-- ==== Sys2Proof/Word.lean ====
section
/-! DEFINITION. The words of the machine: 32-bit registers and addresses (00_scope R8, XLEN), bytes, and the
5-bit register numbers and 12-bit CSR numbers an instruction holds (30_encoding R101). -/

namespace Sys2Proof

/-- A 32-bit register or address (R8: XLEN = 32). -/
abbrev Word := BitVec 32

/-- A byte, the smallest addressable unit (R60). -/
abbrev Byte := BitVec 8

/-- A register number, `x0` to `x31` (R20, R101). -/
abbrev Reg := BitVec 5

/-- A CSR number, `inst[31:20]` (R108). -/
abbrev CsrNum := BitVec 12

end Sys2Proof
end

