-- ==== Sys2Proof/Syntax.lean ====
section
/-! DEFINITION. The instruction set: one constructor of `Instr` per row of spec/opcode_table.json, in the table's order.
Operands are the fields of 30_encoding R101 to R109 under the spec's names; fields the hardware accepts and ignores
(aq, rl, R276; the fields of FENCE and FENCE.I, R116) are kept, so that no bit of a word is lost. -/

namespace Sys2Proof

/-- The instructions of the core (R111). Branch and jump offsets are the byte offsets immB (R105) and immJ (R107) before
sign extension; `imm` of an I- or S-type instruction is the 12-bit immediate (R103, R104); `imm20` is `inst[31:12]`. -/
inductive Instr where
  -- 40_upper_jump
  | lui (rd : Reg) (imm20 : BitVec 20)
  | auipc (rd : Reg) (imm20 : BitVec 20)
  | jal (rd : Reg) (off : BitVec 21)
  | jalr (rd rs1 : Reg) (imm : BitVec 12)
  -- 41_branch
  | beq (rs1 rs2 : Reg) (off : BitVec 13)
  | bne (rs1 rs2 : Reg) (off : BitVec 13)
  | blt (rs1 rs2 : Reg) (off : BitVec 13)
  | bge (rs1 rs2 : Reg) (off : BitVec 13)
  | bltu (rs1 rs2 : Reg) (off : BitVec 13)
  | bgeu (rs1 rs2 : Reg) (off : BitVec 13)
  -- 42_load_store
  | lb (rd rs1 : Reg) (imm : BitVec 12)
  | lh (rd rs1 : Reg) (imm : BitVec 12)
  | lw (rd rs1 : Reg) (imm : BitVec 12)
  | lbu (rd rs1 : Reg) (imm : BitVec 12)
  | lhu (rd rs1 : Reg) (imm : BitVec 12)
  | sb (rs1 rs2 : Reg) (imm : BitVec 12)
  | sh (rs1 rs2 : Reg) (imm : BitVec 12)
  | sw (rs1 rs2 : Reg) (imm : BitVec 12)
  -- 43_imm_arith
  | addi (rd rs1 : Reg) (imm : BitVec 12)
  | slti (rd rs1 : Reg) (imm : BitVec 12)
  | sltiu (rd rs1 : Reg) (imm : BitVec 12)
  | xori (rd rs1 : Reg) (imm : BitVec 12)
  | ori (rd rs1 : Reg) (imm : BitVec 12)
  | andi (rd rs1 : Reg) (imm : BitVec 12)
  | slli (rd rs1 : Reg) (shamt : BitVec 5)
  | srli (rd rs1 : Reg) (shamt : BitVec 5)
  | srai (rd rs1 : Reg) (shamt : BitVec 5)
  -- 44_op_arith
  | add (rd rs1 rs2 : Reg)
  | sub (rd rs1 rs2 : Reg)
  | sll (rd rs1 rs2 : Reg)
  | slt (rd rs1 rs2 : Reg)
  | sltu (rd rs1 rs2 : Reg)
  | xor (rd rs1 rs2 : Reg)
  | srl (rd rs1 rs2 : Reg)
  | sra (rd rs1 rs2 : Reg)
  | or (rd rs1 rs2 : Reg)
  | and (rd rs1 rs2 : Reg)
  -- 47_misc_mem
  | fence (rd rs1 : Reg) (fm pred succ : BitVec 4)
  | fenceI (rd rs1 : Reg) (imm : BitVec 12)
  -- 48_system
  | ecall
  | ebreak
  -- 45_muldiv
  | mul (rd rs1 rs2 : Reg)
  | mulh (rd rs1 rs2 : Reg)
  | mulhsu (rd rs1 rs2 : Reg)
  | mulhu (rd rs1 rs2 : Reg)
  | div (rd rs1 rs2 : Reg)
  | divu (rd rs1 rs2 : Reg)
  | rem (rd rs1 rs2 : Reg)
  | remu (rd rs1 rs2 : Reg)
  -- 46_amo
  | lrW (rd rs1 : Reg) (aq rl : BitVec 1)
  | scW (rd rs1 rs2 : Reg) (aq rl : BitVec 1)
  | amoswapW (rd rs1 rs2 : Reg) (aq rl : BitVec 1)
  | amoaddW (rd rs1 rs2 : Reg) (aq rl : BitVec 1)
  | amoxorW (rd rs1 rs2 : Reg) (aq rl : BitVec 1)
  | amoandW (rd rs1 rs2 : Reg) (aq rl : BitVec 1)
  | amoorW (rd rs1 rs2 : Reg) (aq rl : BitVec 1)
  | amominW (rd rs1 rs2 : Reg) (aq rl : BitVec 1)
  | amomaxW (rd rs1 rs2 : Reg) (aq rl : BitVec 1)
  | amominuW (rd rs1 rs2 : Reg) (aq rl : BitVec 1)
  | amomaxuW (rd rs1 rs2 : Reg) (aq rl : BitVec 1)
  -- 48_system
  | csrrw (rd rs1 : Reg) (csr : CsrNum)
  | csrrs (rd rs1 : Reg) (csr : CsrNum)
  | csrrc (rd rs1 : Reg) (csr : CsrNum)
  | csrrwi (rd : Reg) (uimm : BitVec 5) (csr : CsrNum)
  | csrrsi (rd : Reg) (uimm : BitVec 5) (csr : CsrNum)
  | csrrci (rd : Reg) (uimm : BitVec 5) (csr : CsrNum)
  | mret
deriving DecidableEq, Repr

end Sys2Proof
end

