-- ==== Sys2Proof/WellFormed.lean ====
section
/-! DEFINITION. Which instructions are words of the machine: every operand of `Instr` has exactly the width of its field,
so the only check left is that a branch or jump offset is even (30_encoding R105, R107). -/

namespace Sys2Proof

/-- immB is "an even value" (R105): bit 0 of the 13-bit offset is not encoded. -/
def evenBranch (off : BitVec 13) : Bool := off.getLsbD 0 == false

/-- immJ is "an even value" (R107). -/
def evenJump (off : BitVec 21) : Bool := off.getLsbD 0 == false

/-- An instruction that some word encodes. -/
def Instr.wellFormed : Instr → Bool
  | .jal _ off => evenJump off
  | .beq _ _ off => evenBranch off
  | .bne _ _ off => evenBranch off
  | .blt _ _ off => evenBranch off
  | .bge _ _ off => evenBranch off
  | .bltu _ _ off => evenBranch off
  | .bgeu _ _ off => evenBranch off
  | _ => true

end Sys2Proof
end

