-- ==== Sys2Proof/Decode.lean ====
section
/-! DEFINITION. Decoding (30_encoding R100 to R120) and, after it, the encoder written from the same tables. `decodeWord` is
total: a word is one instruction or is refused by name, and the engine turns a refusal into the illegal-instruction trap
(R118, R120). -/

namespace Sys2Proof

/-- Why no instruction is read. Raised by `decodeWord` and `decodeBytes` only; the engine answers every one of them but
`tooShort` with the illegal-instruction trap of R342 (safe: it is what the spec says of such a word). -/
inductive DecodeError where
  /-- Fewer than four bytes: every instruction is 32 bits (R100). -/
  | tooShort
  /-- The opcode is none of the twelve of R111. -/
  | badOpcode
  /-- JALR with funct3 other than 000 (R112). -/
  | badJalr
  /-- BRANCH with funct3 010 or 011 (R112). -/
  | badBranch
  /-- LOAD with funct3 011, 110 or 111 (R112). -/
  | badLoad
  /-- STORE with funct3 011 to 111 (R112). -/
  | badStore
  /-- A shift-immediate whose funct7 is not the one R109 asks for (R113). -/
  | badShift
  /-- OP with a funct7 and funct3 pair that R114 leaves empty. -/
  | badOp
  /-- AMO with funct3 other than 010, an unused funct5, or LR.W with rs2 other than 0 (R115). -/
  | badAmo
  /-- MISC-MEM with funct3 010 to 111 (R116). -/
  | badMiscMem
  /-- SYSTEM with funct3 100, or funct3 000 and not ECALL, EBREAK or MRET (R117). -/
  | badSystem
deriving DecidableEq, Repr

/-! ## Fields (R101) -/

def fOpcode (w : Word) : BitVec 7 := w.extractLsb' 0 7
def fRd (w : Word) : Reg := w.extractLsb' 7 5
def fFunct3 (w : Word) : BitVec 3 := w.extractLsb' 12 3
def fRs1 (w : Word) : Reg := w.extractLsb' 15 5
def fRs2 (w : Word) : Reg := w.extractLsb' 20 5
def fFunct7 (w : Word) : BitVec 7 := w.extractLsb' 25 7
def fFunct5 (w : Word) : BitVec 5 := w.extractLsb' 27 5
def fAq (w : Word) : BitVec 1 := w.extractLsb' 26 1
def fRl (w : Word) : BitVec 1 := w.extractLsb' 25 1
def fFm (w : Word) : BitVec 4 := w.extractLsb' 28 4
def fPred (w : Word) : BitVec 4 := w.extractLsb' 24 4
def fSucc (w : Word) : BitVec 4 := w.extractLsb' 20 4

/-- `inst[31:20]`: the I-immediate before sign extension (R103) and the CSR number (R108). -/
def fImm12 (w : Word) : BitVec 12 := w.extractLsb' 20 12

/-- `inst[31:25] ++ inst[11:7]`: the S-immediate before sign extension (R104). -/
def fImmS (w : Word) : BitVec 12 := w.extractLsb' 25 7 ++ w.extractLsb' 7 5

/-- `inst[31] ++ inst[7] ++ inst[30:25] ++ inst[11:8] ++ 0`: immB before sign extension (R105). -/
def fImmB (w : Word) : BitVec 13 :=
  w.extractLsb' 31 1 ++ w.extractLsb' 7 1 ++ w.extractLsb' 25 6 ++ w.extractLsb' 8 4 ++ 0#1

/-- `inst[31:12]`: the upper 20 bits of immU (R106). -/
def fImmU (w : Word) : BitVec 20 := w.extractLsb' 12 20

/-- `inst[31] ++ inst[19:12] ++ inst[20] ++ inst[30:21] ++ 0`: immJ before sign extension (R107). -/
def fImmJ (w : Word) : BitVec 21 :=
  w.extractLsb' 31 1 ++ w.extractLsb' 12 8 ++ w.extractLsb' 20 1 ++ w.extractLsb' 21 10 ++ 0#1

/-! ## Sub-decoding by major opcode -/

/-- BRANCH 0x63 by funct3 (R112). -/
def decodeBranch (w : Word) : Except DecodeError Instr :=
  let f := fFunct3 w
  if f = 0b000#3 then .ok (.beq (fRs1 w) (fRs2 w) (fImmB w))
  else if f = 0b001#3 then .ok (.bne (fRs1 w) (fRs2 w) (fImmB w))
  else if f = 0b100#3 then .ok (.blt (fRs1 w) (fRs2 w) (fImmB w))
  else if f = 0b101#3 then .ok (.bge (fRs1 w) (fRs2 w) (fImmB w))
  else if f = 0b110#3 then .ok (.bltu (fRs1 w) (fRs2 w) (fImmB w))
  else if f = 0b111#3 then .ok (.bgeu (fRs1 w) (fRs2 w) (fImmB w))
  else .error .badBranch

/-- LOAD 0x03 by funct3 (R112). -/
def decodeLoad (w : Word) : Except DecodeError Instr :=
  let f := fFunct3 w
  if f = 0b000#3 then .ok (.lb (fRd w) (fRs1 w) (fImm12 w))
  else if f = 0b001#3 then .ok (.lh (fRd w) (fRs1 w) (fImm12 w))
  else if f = 0b010#3 then .ok (.lw (fRd w) (fRs1 w) (fImm12 w))
  else if f = 0b100#3 then .ok (.lbu (fRd w) (fRs1 w) (fImm12 w))
  else if f = 0b101#3 then .ok (.lhu (fRd w) (fRs1 w) (fImm12 w))
  else .error .badLoad

/-- STORE 0x23 by funct3 (R112). -/
def decodeStore (w : Word) : Except DecodeError Instr :=
  let f := fFunct3 w
  if f = 0b000#3 then .ok (.sb (fRs1 w) (fRs2 w) (fImmS w))
  else if f = 0b001#3 then .ok (.sh (fRs1 w) (fRs2 w) (fImmS w))
  else if f = 0b010#3 then .ok (.sw (fRs1 w) (fRs2 w) (fImmS w))
  else .error .badStore

/-- OP-IMM 0x13 by funct3, and funct7 for the shifts (R109, R113). -/
def decodeOpImm (w : Word) : Except DecodeError Instr :=
  let f := fFunct3 w
  if f = 0b000#3 then .ok (.addi (fRd w) (fRs1 w) (fImm12 w))
  else if f = 0b010#3 then .ok (.slti (fRd w) (fRs1 w) (fImm12 w))
  else if f = 0b011#3 then .ok (.sltiu (fRd w) (fRs1 w) (fImm12 w))
  else if f = 0b100#3 then .ok (.xori (fRd w) (fRs1 w) (fImm12 w))
  else if f = 0b110#3 then .ok (.ori (fRd w) (fRs1 w) (fImm12 w))
  else if f = 0b111#3 then .ok (.andi (fRd w) (fRs1 w) (fImm12 w))
  else if f = 0b001#3 then
    if fFunct7 w = 0b0000000#7 then .ok (.slli (fRd w) (fRs1 w) (fRs2 w)) else .error .badShift
  else if fFunct7 w = 0b0000000#7 then .ok (.srli (fRd w) (fRs1 w) (fRs2 w))
  else if fFunct7 w = 0b0100000#7 then .ok (.srai (fRd w) (fRs1 w) (fRs2 w))
  else .error .badShift

/-- OP 0x33 by funct7 and funct3 (R114). -/
def decodeOp (w : Word) : Except DecodeError Instr :=
  let f := fFunct3 w
  if fFunct7 w = 0b0000000#7 then
    if f = 0b000#3 then .ok (.add (fRd w) (fRs1 w) (fRs2 w))
    else if f = 0b001#3 then .ok (.sll (fRd w) (fRs1 w) (fRs2 w))
    else if f = 0b010#3 then .ok (.slt (fRd w) (fRs1 w) (fRs2 w))
    else if f = 0b011#3 then .ok (.sltu (fRd w) (fRs1 w) (fRs2 w))
    else if f = 0b100#3 then .ok (.xor (fRd w) (fRs1 w) (fRs2 w))
    else if f = 0b101#3 then .ok (.srl (fRd w) (fRs1 w) (fRs2 w))
    else if f = 0b110#3 then .ok (.or (fRd w) (fRs1 w) (fRs2 w))
    else .ok (.and (fRd w) (fRs1 w) (fRs2 w))
  else if fFunct7 w = 0b0100000#7 then
    if f = 0b000#3 then .ok (.sub (fRd w) (fRs1 w) (fRs2 w))
    else if f = 0b101#3 then .ok (.sra (fRd w) (fRs1 w) (fRs2 w))
    else .error .badOp
  else if fFunct7 w = 0b0000001#7 then
    if f = 0b000#3 then .ok (.mul (fRd w) (fRs1 w) (fRs2 w))
    else if f = 0b001#3 then .ok (.mulh (fRd w) (fRs1 w) (fRs2 w))
    else if f = 0b010#3 then .ok (.mulhsu (fRd w) (fRs1 w) (fRs2 w))
    else if f = 0b011#3 then .ok (.mulhu (fRd w) (fRs1 w) (fRs2 w))
    else if f = 0b100#3 then .ok (.div (fRd w) (fRs1 w) (fRs2 w))
    else if f = 0b101#3 then .ok (.divu (fRd w) (fRs1 w) (fRs2 w))
    else if f = 0b110#3 then .ok (.rem (fRd w) (fRs1 w) (fRs2 w))
    else .ok (.remu (fRd w) (fRs1 w) (fRs2 w))
  else .error .badOp

/-- AMO 0x2F: funct3 must be 010, funct5 selects, LR.W needs rs2 = 0, aq and rl are free (R115). -/
def decodeAmo (w : Word) : Except DecodeError Instr :=
  let f := fFunct5 w
  if fFunct3 w ≠ 0b010#3 then .error .badAmo
  else if f = 0b00010#5 then
    if fRs2 w = 0#5 then .ok (.lrW (fRd w) (fRs1 w) (fAq w) (fRl w)) else .error .badAmo
  else if f = 0b00011#5 then .ok (.scW (fRd w) (fRs1 w) (fRs2 w) (fAq w) (fRl w))
  else if f = 0b00001#5 then .ok (.amoswapW (fRd w) (fRs1 w) (fRs2 w) (fAq w) (fRl w))
  else if f = 0b00000#5 then .ok (.amoaddW (fRd w) (fRs1 w) (fRs2 w) (fAq w) (fRl w))
  else if f = 0b00100#5 then .ok (.amoxorW (fRd w) (fRs1 w) (fRs2 w) (fAq w) (fRl w))
  else if f = 0b01100#5 then .ok (.amoandW (fRd w) (fRs1 w) (fRs2 w) (fAq w) (fRl w))
  else if f = 0b01000#5 then .ok (.amoorW (fRd w) (fRs1 w) (fRs2 w) (fAq w) (fRl w))
  else if f = 0b10000#5 then .ok (.amominW (fRd w) (fRs1 w) (fRs2 w) (fAq w) (fRl w))
  else if f = 0b10100#5 then .ok (.amomaxW (fRd w) (fRs1 w) (fRs2 w) (fAq w) (fRl w))
  else if f = 0b11000#5 then .ok (.amominuW (fRd w) (fRs1 w) (fRs2 w) (fAq w) (fRl w))
  else if f = 0b11100#5 then .ok (.amomaxuW (fRd w) (fRs1 w) (fRs2 w) (fAq w) (fRl w))
  else .error .badAmo

/-- MISC-MEM 0x0F by funct3, every other field free (R116, D28). -/
def decodeMiscMem (w : Word) : Except DecodeError Instr :=
  if fFunct3 w = 0b000#3 then .ok (.fence (fRd w) (fRs1 w) (fFm w) (fPred w) (fSucc w))
  else if fFunct3 w = 0b001#3 then .ok (.fenceI (fRd w) (fRs1 w) (fImm12 w))
  else .error .badMiscMem

/-- SYSTEM 0x73 by funct3, and by the whole word for funct3 000 (R117, D29). -/
def decodeSystem (w : Word) : Except DecodeError Instr :=
  let f := fFunct3 w
  if f = 0b001#3 then .ok (.csrrw (fRd w) (fRs1 w) (fImm12 w))
  else if f = 0b010#3 then .ok (.csrrs (fRd w) (fRs1 w) (fImm12 w))
  else if f = 0b011#3 then .ok (.csrrc (fRd w) (fRs1 w) (fImm12 w))
  else if f = 0b101#3 then .ok (.csrrwi (fRd w) (fRs1 w) (fImm12 w))
  else if f = 0b110#3 then .ok (.csrrsi (fRd w) (fRs1 w) (fImm12 w))
  else if f = 0b111#3 then .ok (.csrrci (fRd w) (fRs1 w) (fImm12 w))
  else if w = 0x00000073#32 then .ok .ecall
  else if w = 0x00100073#32 then .ok .ebreak
  else if w = 0x30200073#32 then .ok .mret
  else .error .badSystem

/-- The decoder, by major opcode (R111). -/
def decodeWord (w : Word) : Except DecodeError Instr :=
  let op := fOpcode w
  if op = 0b0110111#7 then .ok (.lui (fRd w) (fImmU w))
  else if op = 0b0010111#7 then .ok (.auipc (fRd w) (fImmU w))
  else if op = 0b1101111#7 then .ok (.jal (fRd w) (fImmJ w))
  else if op = 0b1100111#7 then
    if fFunct3 w = 0b000#3 then .ok (.jalr (fRd w) (fRs1 w) (fImm12 w)) else .error .badJalr
  else if op = 0b1100011#7 then decodeBranch w
  else if op = 0b0000011#7 then decodeLoad w
  else if op = 0b0100011#7 then decodeStore w
  else if op = 0b0010011#7 then decodeOpImm w
  else if op = 0b0110011#7 then decodeOp w
  else if op = 0b0101111#7 then decodeAmo w
  else if op = 0b0001111#7 then decodeMiscMem w
  else if op = 0b1110011#7 then decodeSystem w
  else .error .badOpcode

/-! ## Bytes: every instruction is one little-endian word (R64, R100) -/

/-- The word whose bytes, lowest address first, are `b0` to `b3`. -/
def wordOfBytes (b0 b1 b2 b3 : Byte) : Word := b3 ++ b2 ++ b1 ++ b0

/-- The bytes of a word, lowest address first. -/
def bytesOfWord (w : Word) : List Byte :=
  [w.extractLsb' 0 8, w.extractLsb' 8 8, w.extractLsb' 16 8, w.extractLsb' 24 8]

/-- The decoder on bytes: the instruction and the bytes after it. -/
def decodeBytes : List Byte → Except DecodeError (Instr × List Byte)
  | b0 :: b1 :: b2 :: b3 :: rest =>
    match decodeWord (wordOfBytes b0 b1 b2 b3) with
    | .ok i => .ok (i, rest)
    | .error e => .error e
  | _ => .error .tooShort

/-- The host's question of the decoder: the instruction of the word `w`, whose bits above `nbits` are 0, laid out as the
hardware stores it (R64: lowest byte first). -/
def decodeTableWord (nbits w : Nat) : Option Instr :=
  match decodeBytes (bytesOfWord (BitVec.ofNat 32 (w % 2 ^ nbits))) with
  | .ok (i, _) => some i
  | .error _ => none

/-! ## The encoder (R102 and the tables of R111 to R117) -/

def encR (f7 : BitVec 7) (rs2 rs1 : Reg) (f3 : BitVec 3) (rd : Reg) (op : BitVec 7) : Word :=
  f7 ++ rs2 ++ rs1 ++ f3 ++ rd ++ op

def encI (imm : BitVec 12) (rs1 : Reg) (f3 : BitVec 3) (rd : Reg) (op : BitVec 7) : Word :=
  imm ++ rs1 ++ f3 ++ rd ++ op

def encS (imm : BitVec 12) (rs2 rs1 : Reg) (f3 : BitVec 3) (op : BitVec 7) : Word :=
  imm.extractLsb' 5 7 ++ rs2 ++ rs1 ++ f3 ++ imm.extractLsb' 0 5 ++ op

def encB (off : BitVec 13) (rs2 rs1 : Reg) (f3 : BitVec 3) (op : BitVec 7) : Word :=
  off.extractLsb' 12 1 ++ off.extractLsb' 5 6 ++ rs2 ++ rs1 ++ f3 ++ off.extractLsb' 1 4 ++ off.extractLsb' 11 1 ++ op

def encU (imm20 : BitVec 20) (rd : Reg) (op : BitVec 7) : Word := imm20 ++ rd ++ op

def encJ (off : BitVec 21) (rd : Reg) (op : BitVec 7) : Word :=
  off.extractLsb' 20 1 ++ off.extractLsb' 1 10 ++ off.extractLsb' 11 1 ++ off.extractLsb' 12 8 ++ rd ++ op

def encAmo (f5 : BitVec 5) (aq rl : BitVec 1) (rs2 rs1 rd : Reg) : Word :=
  f5 ++ aq ++ rl ++ rs2 ++ rs1 ++ 0b010#3 ++ rd ++ 0b0101111#7

/-- The word of an instruction. -/
def encode : Instr → Word
  | .lui rd imm20 => encU imm20 rd 0b0110111#7
  | .auipc rd imm20 => encU imm20 rd 0b0010111#7
  | .jal rd off => encJ off rd 0b1101111#7
  | .jalr rd rs1 imm => encI imm rs1 0b000#3 rd 0b1100111#7
  | .beq rs1 rs2 off => encB off rs2 rs1 0b000#3 0b1100011#7
  | .bne rs1 rs2 off => encB off rs2 rs1 0b001#3 0b1100011#7
  | .blt rs1 rs2 off => encB off rs2 rs1 0b100#3 0b1100011#7
  | .bge rs1 rs2 off => encB off rs2 rs1 0b101#3 0b1100011#7
  | .bltu rs1 rs2 off => encB off rs2 rs1 0b110#3 0b1100011#7
  | .bgeu rs1 rs2 off => encB off rs2 rs1 0b111#3 0b1100011#7
  | .lb rd rs1 imm => encI imm rs1 0b000#3 rd 0b0000011#7
  | .lh rd rs1 imm => encI imm rs1 0b001#3 rd 0b0000011#7
  | .lw rd rs1 imm => encI imm rs1 0b010#3 rd 0b0000011#7
  | .lbu rd rs1 imm => encI imm rs1 0b100#3 rd 0b0000011#7
  | .lhu rd rs1 imm => encI imm rs1 0b101#3 rd 0b0000011#7
  | .sb rs1 rs2 imm => encS imm rs2 rs1 0b000#3 0b0100011#7
  | .sh rs1 rs2 imm => encS imm rs2 rs1 0b001#3 0b0100011#7
  | .sw rs1 rs2 imm => encS imm rs2 rs1 0b010#3 0b0100011#7
  | .addi rd rs1 imm => encI imm rs1 0b000#3 rd 0b0010011#7
  | .slti rd rs1 imm => encI imm rs1 0b010#3 rd 0b0010011#7
  | .sltiu rd rs1 imm => encI imm rs1 0b011#3 rd 0b0010011#7
  | .xori rd rs1 imm => encI imm rs1 0b100#3 rd 0b0010011#7
  | .ori rd rs1 imm => encI imm rs1 0b110#3 rd 0b0010011#7
  | .andi rd rs1 imm => encI imm rs1 0b111#3 rd 0b0010011#7
  | .slli rd rs1 shamt => encR 0b0000000#7 shamt rs1 0b001#3 rd 0b0010011#7
  | .srli rd rs1 shamt => encR 0b0000000#7 shamt rs1 0b101#3 rd 0b0010011#7
  | .srai rd rs1 shamt => encR 0b0100000#7 shamt rs1 0b101#3 rd 0b0010011#7
  | .add rd rs1 rs2 => encR 0b0000000#7 rs2 rs1 0b000#3 rd 0b0110011#7
  | .sub rd rs1 rs2 => encR 0b0100000#7 rs2 rs1 0b000#3 rd 0b0110011#7
  | .sll rd rs1 rs2 => encR 0b0000000#7 rs2 rs1 0b001#3 rd 0b0110011#7
  | .slt rd rs1 rs2 => encR 0b0000000#7 rs2 rs1 0b010#3 rd 0b0110011#7
  | .sltu rd rs1 rs2 => encR 0b0000000#7 rs2 rs1 0b011#3 rd 0b0110011#7
  | .xor rd rs1 rs2 => encR 0b0000000#7 rs2 rs1 0b100#3 rd 0b0110011#7
  | .srl rd rs1 rs2 => encR 0b0000000#7 rs2 rs1 0b101#3 rd 0b0110011#7
  | .sra rd rs1 rs2 => encR 0b0100000#7 rs2 rs1 0b101#3 rd 0b0110011#7
  | .or rd rs1 rs2 => encR 0b0000000#7 rs2 rs1 0b110#3 rd 0b0110011#7
  | .and rd rs1 rs2 => encR 0b0000000#7 rs2 rs1 0b111#3 rd 0b0110011#7
  | .fence rd rs1 fm pred succ => encI (fm ++ pred ++ succ) rs1 0b000#3 rd 0b0001111#7
  | .fenceI rd rs1 imm => encI imm rs1 0b001#3 rd 0b0001111#7
  | .ecall => 0x00000073#32
  | .ebreak => 0x00100073#32
  | .mul rd rs1 rs2 => encR 0b0000001#7 rs2 rs1 0b000#3 rd 0b0110011#7
  | .mulh rd rs1 rs2 => encR 0b0000001#7 rs2 rs1 0b001#3 rd 0b0110011#7
  | .mulhsu rd rs1 rs2 => encR 0b0000001#7 rs2 rs1 0b010#3 rd 0b0110011#7
  | .mulhu rd rs1 rs2 => encR 0b0000001#7 rs2 rs1 0b011#3 rd 0b0110011#7
  | .div rd rs1 rs2 => encR 0b0000001#7 rs2 rs1 0b100#3 rd 0b0110011#7
  | .divu rd rs1 rs2 => encR 0b0000001#7 rs2 rs1 0b101#3 rd 0b0110011#7
  | .rem rd rs1 rs2 => encR 0b0000001#7 rs2 rs1 0b110#3 rd 0b0110011#7
  | .remu rd rs1 rs2 => encR 0b0000001#7 rs2 rs1 0b111#3 rd 0b0110011#7
  | .lrW rd rs1 aq rl => encAmo 0b00010#5 aq rl 0#5 rs1 rd
  | .scW rd rs1 rs2 aq rl => encAmo 0b00011#5 aq rl rs2 rs1 rd
  | .amoswapW rd rs1 rs2 aq rl => encAmo 0b00001#5 aq rl rs2 rs1 rd
  | .amoaddW rd rs1 rs2 aq rl => encAmo 0b00000#5 aq rl rs2 rs1 rd
  | .amoxorW rd rs1 rs2 aq rl => encAmo 0b00100#5 aq rl rs2 rs1 rd
  | .amoandW rd rs1 rs2 aq rl => encAmo 0b01100#5 aq rl rs2 rs1 rd
  | .amoorW rd rs1 rs2 aq rl => encAmo 0b01000#5 aq rl rs2 rs1 rd
  | .amominW rd rs1 rs2 aq rl => encAmo 0b10000#5 aq rl rs2 rs1 rd
  | .amomaxW rd rs1 rs2 aq rl => encAmo 0b10100#5 aq rl rs2 rs1 rd
  | .amominuW rd rs1 rs2 aq rl => encAmo 0b11000#5 aq rl rs2 rs1 rd
  | .amomaxuW rd rs1 rs2 aq rl => encAmo 0b11100#5 aq rl rs2 rs1 rd
  | .csrrw rd rs1 csr => encI csr rs1 0b001#3 rd 0b1110011#7
  | .csrrs rd rs1 csr => encI csr rs1 0b010#3 rd 0b1110011#7
  | .csrrc rd rs1 csr => encI csr rs1 0b011#3 rd 0b1110011#7
  | .csrrwi rd uimm csr => encI csr uimm 0b101#3 rd 0b1110011#7
  | .csrrsi rd uimm csr => encI csr uimm 0b110#3 rd 0b1110011#7
  | .csrrci rd uimm csr => encI csr uimm 0b111#3 rd 0b1110011#7
  | .mret => 0x30200073#32

/-! ## The opcode table (spec/opcode_table.json): the mask and the match of each row -/

/-- A row of the table: `w` is a word of the row exactly when `w &&& mask = pattern`. -/
structure TableRow where
  mask : Word
  pattern : Word
deriving DecidableEq, Repr

/-- The row of an instruction. -/
def tableRow : Instr → TableRow
  | .lui _ _ => ⟨0x0000007F#32, 0x00000037#32⟩
  | .auipc _ _ => ⟨0x0000007F#32, 0x00000017#32⟩
  | .jal _ _ => ⟨0x0000007F#32, 0x0000006F#32⟩
  | .jalr _ _ _ => ⟨0x0000707F#32, 0x00000067#32⟩
  | .beq _ _ _ => ⟨0x0000707F#32, 0x00000063#32⟩
  | .bne _ _ _ => ⟨0x0000707F#32, 0x00001063#32⟩
  | .blt _ _ _ => ⟨0x0000707F#32, 0x00004063#32⟩
  | .bge _ _ _ => ⟨0x0000707F#32, 0x00005063#32⟩
  | .bltu _ _ _ => ⟨0x0000707F#32, 0x00006063#32⟩
  | .bgeu _ _ _ => ⟨0x0000707F#32, 0x00007063#32⟩
  | .lb _ _ _ => ⟨0x0000707F#32, 0x00000003#32⟩
  | .lh _ _ _ => ⟨0x0000707F#32, 0x00001003#32⟩
  | .lw _ _ _ => ⟨0x0000707F#32, 0x00002003#32⟩
  | .lbu _ _ _ => ⟨0x0000707F#32, 0x00004003#32⟩
  | .lhu _ _ _ => ⟨0x0000707F#32, 0x00005003#32⟩
  | .sb _ _ _ => ⟨0x0000707F#32, 0x00000023#32⟩
  | .sh _ _ _ => ⟨0x0000707F#32, 0x00001023#32⟩
  | .sw _ _ _ => ⟨0x0000707F#32, 0x00002023#32⟩
  | .addi _ _ _ => ⟨0x0000707F#32, 0x00000013#32⟩
  | .slti _ _ _ => ⟨0x0000707F#32, 0x00002013#32⟩
  | .sltiu _ _ _ => ⟨0x0000707F#32, 0x00003013#32⟩
  | .xori _ _ _ => ⟨0x0000707F#32, 0x00004013#32⟩
  | .ori _ _ _ => ⟨0x0000707F#32, 0x00006013#32⟩
  | .andi _ _ _ => ⟨0x0000707F#32, 0x00007013#32⟩
  | .slli _ _ _ => ⟨0xFE00707F#32, 0x00001013#32⟩
  | .srli _ _ _ => ⟨0xFE00707F#32, 0x00005013#32⟩
  | .srai _ _ _ => ⟨0xFE00707F#32, 0x40005013#32⟩
  | .add _ _ _ => ⟨0xFE00707F#32, 0x00000033#32⟩
  | .sub _ _ _ => ⟨0xFE00707F#32, 0x40000033#32⟩
  | .sll _ _ _ => ⟨0xFE00707F#32, 0x00001033#32⟩
  | .slt _ _ _ => ⟨0xFE00707F#32, 0x00002033#32⟩
  | .sltu _ _ _ => ⟨0xFE00707F#32, 0x00003033#32⟩
  | .xor _ _ _ => ⟨0xFE00707F#32, 0x00004033#32⟩
  | .srl _ _ _ => ⟨0xFE00707F#32, 0x00005033#32⟩
  | .sra _ _ _ => ⟨0xFE00707F#32, 0x40005033#32⟩
  | .or _ _ _ => ⟨0xFE00707F#32, 0x00006033#32⟩
  | .and _ _ _ => ⟨0xFE00707F#32, 0x00007033#32⟩
  | .fence _ _ _ _ _ => ⟨0x0000707F#32, 0x0000000F#32⟩
  | .fenceI _ _ _ => ⟨0x0000707F#32, 0x0000100F#32⟩
  | .ecall => ⟨0xFFFFFFFF#32, 0x00000073#32⟩
  | .ebreak => ⟨0xFFFFFFFF#32, 0x00100073#32⟩
  | .mul _ _ _ => ⟨0xFE00707F#32, 0x02000033#32⟩
  | .mulh _ _ _ => ⟨0xFE00707F#32, 0x02001033#32⟩
  | .mulhsu _ _ _ => ⟨0xFE00707F#32, 0x02002033#32⟩
  | .mulhu _ _ _ => ⟨0xFE00707F#32, 0x02003033#32⟩
  | .div _ _ _ => ⟨0xFE00707F#32, 0x02004033#32⟩
  | .divu _ _ _ => ⟨0xFE00707F#32, 0x02005033#32⟩
  | .rem _ _ _ => ⟨0xFE00707F#32, 0x02006033#32⟩
  | .remu _ _ _ => ⟨0xFE00707F#32, 0x02007033#32⟩
  | .lrW _ _ _ _ => ⟨0xF9F0707F#32, 0x1000202F#32⟩
  | .scW _ _ _ _ _ => ⟨0xF800707F#32, 0x1800202F#32⟩
  | .amoswapW _ _ _ _ _ => ⟨0xF800707F#32, 0x0800202F#32⟩
  | .amoaddW _ _ _ _ _ => ⟨0xF800707F#32, 0x0000202F#32⟩
  | .amoxorW _ _ _ _ _ => ⟨0xF800707F#32, 0x2000202F#32⟩
  | .amoandW _ _ _ _ _ => ⟨0xF800707F#32, 0x6000202F#32⟩
  | .amoorW _ _ _ _ _ => ⟨0xF800707F#32, 0x4000202F#32⟩
  | .amominW _ _ _ _ _ => ⟨0xF800707F#32, 0x8000202F#32⟩
  | .amomaxW _ _ _ _ _ => ⟨0xF800707F#32, 0xA000202F#32⟩
  | .amominuW _ _ _ _ _ => ⟨0xF800707F#32, 0xC000202F#32⟩
  | .amomaxuW _ _ _ _ _ => ⟨0xF800707F#32, 0xE000202F#32⟩
  | .csrrw _ _ _ => ⟨0x0000707F#32, 0x00001073#32⟩
  | .csrrs _ _ _ => ⟨0x0000707F#32, 0x00002073#32⟩
  | .csrrc _ _ _ => ⟨0x0000707F#32, 0x00003073#32⟩
  | .csrrwi _ _ _ => ⟨0x0000707F#32, 0x00005073#32⟩
  | .csrrsi _ _ _ => ⟨0x0000707F#32, 0x00006073#32⟩
  | .csrrci _ _ _ => ⟨0x0000707F#32, 0x00007073#32⟩
  | .mret => ⟨0xFFFFFFFF#32, 0x30200073#32⟩

end Sys2Proof
end

