-- ==== Sys2Proof/Config.lean ====
section
/-! DEFINITION. What is fixed for one machine (00_scope R8): the constants the spec gives, the record `Params` of the
parameters it leaves OPEN, and the free values (draws of R10, the UART oracle of R372), which are opaque. -/

namespace Sys2Proof

/-- The privilege levels of R23 and R360. -/
inductive Priv where
  | user
  | supervisor
  | machine
deriving DecidableEq, Repr, Inhabited

/-- The widths of a memory access, 1, 2 or 4 bytes (R74). -/
inductive Width where
  | byte
  | half
  | word
deriving DecidableEq, Repr, Inhabited

/-- The direction of a device access (R79: a device has read accessors and write accessors). -/
inductive Dir where
  | read
  | write
deriving DecidableEq, Repr, Inhabited

/-- The registers of the UART (R371). -/
inductive UartReg where
  | txdata
  | rxdata
  | txctrl
  | rxctrl
  | interruptEnable
  | interruptPending
  | baudDivisor
deriving DecidableEq, Repr, Inhabited

/-- One accessor of the UART: a direction, a register and a width. -/
structure UartPort where
  dir : Dir
  reg : UartReg
  width : Width
deriving DecidableEq, Repr, Inhabited

/-- When a change of a counter is seen by a CSR read (R359, D19). -/
inductive Visibility where
  | perInstruction
  | perBatch
deriving DecidableEq, Repr, Inhabited

/-- The parameters the spec leaves OPEN (R8), fixed when the machine is built. -/
structure Params where
  /-- `AGG_SLOT` (D3): the device slot of the interrupt aggregator. -/
  aggSlot : BitVec 4
  /-- `UART_SLOT` (D3): the device slot of the UART. -/
  uartSlot : BitVec 4
  /-- `UART_IRQ_SOURCE - 1` (D4, D35): the bit of the aggregator's masks that the UART's line drives. -/
  uartIrq : Fin 32
  /-- `MISA_VALUE` (D8). -/
  misa : Word
  /-- `MPP2_PRIV` (D12): the level an MRET with MPP = 2 gives, or `none` where such an MRET is refused (R316). -/
  mpp2Priv : Option Priv
  /-- `INTR_MEPC_OFFSET` (D15): 4 where true, 0 where false. -/
  intrMepcPlus4 : Bool
  /-- `CYCLE_VISIBILITY` (D19). -/
  cycleVisibility : Visibility
  /-- `INSTRET_VISIBILITY` (D19). -/
  instretVisibility : Visibility
  /-- `SC_CLEARS_RESERVATION` (D22). -/
  scClears : Bool
  /-- `UART_WIDTHS` (D41): the accessors the UART supports (R79, R372 item 1). -/
  uartWidths : List UartPort
deriving DecidableEq, Repr, Inhabited

/-- The premise of R8 on the parameters: the two devices stand in distinct slots (D3). -/
abbrev Params.wf (p : Params) : Prop := p.aggSlot ≠ p.uartSlot

namespace Config

/-- `RAM_END` (R8, R61): RAM is `[0, RAM_END)`, the device region `[RAM_END, 2^32)`. -/
def ramEnd : Nat := 0xC0000000

/-- `RESET_PC` (R8, R400). -/
def resetPc : Word := 0x1000#32

/-- `IMAGE_BASE` (R8, R403). -/
def imageBase : Nat := 0x1000

/-- `UART_FIFO_DEPTH` (R8, R372 item 2). -/
def uartFifoDepth : Nat := 8

/-- The parameter values of the spec's test vectors (95_test_vectors, Conventions). Only `params` falls back on it, and
only where the opaque choice breaks a premise of R8. -/
def suggested : Params :=
  { aggSlot := 2#4, uartSlot := 1#4, uartIrq := 0, misa := 0x40101101#32, mpp2Priv := none, intrMepcPlus4 := false,
    cycleVisibility := .perBatch, instretVisibility := .perInstruction, scClears := true, uartWidths := [] }

/-- A choice of the OPEN parameters about which nothing is known. -/
opaque rawParams : Params

/-- The parameters of the machine at `State.reset`: any parameters that meet R8's premise, and nothing more is known
of them (log entries 1 and 12). -/
def params : Params := if rawParams.wf then rawParams else suggested

/-- FREE VALUE: the outcome of the `n`-th two-valued draw of R348 (R10: a draw is under no law). -/
opaque draw : Nat → Bool

/-- FREE VALUE: `UART_ORACLE` (R372), the bits of the `n`-th UART read that the register contract leaves open. -/
opaque uartOracle : Nat → Word

/-- FREE VALUE: the level of the UART's line after its `n`-th access or injection (R372 item 5). -/
opaque uartLine : Nat → Bool

end Config

end Sys2Proof
end

