-- ==== Sys2Proof/Machine/State.lean ====
section
/-! DEFINITION. The state of the machine as plain data: every piece 10_state names, the UART's FIFOs (60_exceptions R372),
and two fields of the model's own (`host`, the host's moves to come; `draws`, the index of the next free value).
State after reset: 10_state R42, 70_reset_and_hazards R400. -/

namespace Sys2Proof.Machine

/-- RAM as the list of its bytes that differ from `Mem.unlisted`, by rising address (R61; log entry 2). -/
abbrev Mem := List Host.Cell

/-- What an address that `Mem` does not list reads as. DESIGN CHOICE, unsafe (log entry 2): the spec's RAM_INIT is
arbitrary, and every RAM_INIT is the memory of some state. -/
abbrev Mem.unlisted : Byte := 0#8

/-- The kinds of trap of R340. -/
inductive Cause where
  /-- The fetch at pc fails (R341). -/
  | instrAccessFault
  /-- Illegal instruction (R342). -/
  | illegalInstr
  /-- EBREAK (R343). -/
  | breakpoint
  /-- A failed read (R344). -/
  | loadAccessFault
  /-- A failed write (R345). -/
  | storeAccessFault
  /-- ECALL, from the level it executes in (R346). -/
  | envCall (level : Priv)
  /-- An interrupt, with the index of the lowest set bit of `mie & mip` (R352). -/
  | interrupt (index : Nat)
deriving DecidableEq, Repr

/-- A raised trap: its kind and its trap value. -/
structure Trap where
  cause : Cause
  tval : Word
deriving DecidableEq, Repr

/-- The two states of the engine (R24). The pending-exception flag and its code are the argument of `trapEntry`. -/
inductive Engine where
  | running
  | trapEntry (t : Trap)
deriving DecidableEq, Repr

/-- The aggregator's masks, bit s-1 for source s (R39). -/
structure Aggregator where
  pending : BitVec 32
  served : BitVec 32
deriving DecidableEq, Repr

/-- The UART's FIFOs, oldest byte first (R372). -/
structure Uart where
  tx : List Byte
  rx : List Byte
deriving DecidableEq, Repr

/-- What the host can do between batches (R408). -/
inductive HostMove where
  /-- `reset()` (R400). -/
  | reset
  /-- `load(image)`: the image is copied to 0x1000 (R403). -/
  | load (image : List Byte)
  /-- `run(n)`: one batch with budget n (R358). -/
  | run (n : Nat)
  /-- Bytes delivered into the UART's receive FIFO (R372 item 5). -/
  | inject (bytes : List Byte)
  /-- `n` bytes taken from the UART's transmit FIFO (R372 item 5). -/
  | drain (n : Nat)
deriving DecidableEq, Repr

/-- The state. -/
structure State where
  /-- x1 to x31 (R20); x0 is hard-wired and not stored. -/
  regs : Vector Word 31
  /-- The address of the instruction being executed (R22). -/
  pc : Word
  /-- The privilege level (R23). -/
  priv : Priv
  /-- Running, or in the trap sequence with a pending exception (R24). -/
  engine : Engine
  /-- The reservation's address, or none when its valid bit is 0 (R25, R260). -/
  resv : Option Word
  /-- The cycle counter as a CSR read sees it (R26, R359). -/
  cycle : BitVec 64
  /-- The instret counter as a CSR read sees it (R26, R359). -/
  instret : BitVec 64
  /-- mstatus (R28). -/
  mstatus : Word
  /-- mie (R30). -/
  mie : Word
  /-- mtvec (R31). -/
  mtvec : Word
  /-- mcounteren (R32). -/
  mcounteren : Word
  /-- mscratch (R34). -/
  mscratch : Word
  /-- mepc (R35). -/
  mepc : Word
  /-- mcause (R36). -/
  mcause : Word
  /-- mtval (R37). -/
  mtval : Word
  /-- The interrupt aggregator (R39); mip is computed from it (R33, R366). -/
  agg : Aggregator
  /-- The UART's FIFOs (R372). -/
  uart : Uart
  /-- RAM (R40, R61). -/
  mem : Mem
  /-- The slot table, the interrupt wiring and the other OPEN parameters, fixed at construction (R8, R40). -/
  cfg : Params
  /-- The count k of instructions retired so far in the batch (R41). -/
  batchRetired : Nat
  /-- The remaining budget of the batch; 0 between batches (R41). -/
  batchLeft : Nat
  /-- MODEL'S OWN: the host's moves still to come (log entry 3). -/
  host : List HostMove
  /-- MODEL'S OWN: the index of the next free value (log entry 5). -/
  draws : Nat
deriving DecidableEq, Repr

/-- Why the machine stops with no next state. No instruction stops so. -/
inductive Fault where
  /-- Raised by the host's `load` when the image does not fit below RAM_END: "a host error outside this spec" (R403).
  Safe: the machine stops (log entry 11). -/
  | imageDoesNotFit
deriving DecidableEq, Repr

/-- Why an instruction has no meaning. -/
inductive Refusal where
  /-- The instruction is not modelled yet. No arm of `exec` answers so. Safe. -/
  | notModelled (mnemonic : String)
  /-- Raised by MRET in Machine mode with MPP = 2, in a machine whose MPP2_PRIV is not given: "the model refuses" (R316,
  D12). Safe: the machine stops (log entry 10). -/
  | mppReserved
deriving DecidableEq, Repr

/-- The machine after its first reset (R42, R400, R402): the reset values the spec gives, memory with nothing listed (log
entry 2), the OPEN parameters unknown (log entry 1), the UART's FIFOs empty (log entry 7), no host move listed. -/
def State.reset : State :=
  { regs := Vector.replicate 31 0#32
    pc := Config.resetPc
    priv := .machine
    engine := .running
    resv := none
    cycle := 0#64
    instret := 0#64
    mstatus := 0#32
    mie := 0#32
    mtvec := 0#32
    mcounteren := 0#32
    mscratch := 0#32
    mepc := 0#32
    mcause := 0#32
    mtval := 0#32
    agg := { pending := 0#32, served := 0#32 }
    uart := { tx := [], rx := [] }
    mem := []
    cfg := Config.params
    batchRetired := 0
    batchLeft := 0
    host := []
    draws := 0 }

end Sys2Proof.Machine
end

