-- ==== Sys2Proof/Machine/Flags.lean ====
section
/-! DEFINITION. The core has no condition flags (10_state R43); what stands here is the comparisons that give a 0 or 1 result or
a branch condition (00_scope R9), the fields of mstatus (R28), mie and mip (R30, R33), the privilege numbers (D13) and the
search for the lowest set bit (60_exceptions R352, R367). -/

namespace Sys2Proof.Machine

/-- `<s`: signed comparison (R9). -/
def ltS (a b : Word) : Bool := decide (a.toInt < b.toInt)

/-- `<u`: unsigned comparison (R9). -/
def ltU (a b : Word) : Bool := decide (a.toNat < b.toNat)

/-- The result of a set-if instruction: exactly 0 or 1 (R202). -/
def boolWord (c : Bool) : Word := if c then 1#32 else 0#32

/-- The encodings of the privilege levels: U = 0, S = 1, M = 3 (R23, D13). -/
def privCode : Priv → BitVec 2
  | .user => 0#2
  | .supervisor => 1#2
  | .machine => 3#2

/-- The level a 2-bit encoding names; 2 is reserved (R28, D12). -/
def privOfCode (c : BitVec 2) : Option Priv :=
  if c = 0#2 then some .user
  else if c = 1#2 then some .supervisor
  else if c = 3#2 then some .machine
  else none

/-- The write mask of mstatus (R27). -/
def mstatusMask : Word := 0x00001888#32

/-- The write mask of mie (R27). -/
def mieMask : Word := 0x00000888#32

/-- mstatus.MIE, bit 3 (R28). -/
def statusMie (m : Word) : Bool := m.getLsbD 3

/-- mstatus.MPIE, bit 7 (R28). -/
def statusMpie (m : Word) : Bool := m.getLsbD 7

/-- mstatus.MPP, bits 12:11 (R28). -/
def statusMpp (m : Word) : BitVec 2 := m.extractLsb' 11 2

/-- mstatus with the given fields and every other bit 0 (R28, R305). -/
def mkStatus (mpp : BitVec 2) (mpie mie : Bool) : Word :=
  0#19 ++ mpp ++ 0#3 ++ BitVec.ofBool mpie ++ 0#3 ++ BitVec.ofBool mie ++ 0#3

/-- MEIP, bit 11 of mip (R33). -/
def meip : Word := 0x00000800#32

/-- The index of the lowest set bit, if a bit is set (R352, R367). -/
def lowestSet (m : BitVec 32) : Option Nat := (List.range 32).find? (fun i => m.getLsbD i)

end Sys2Proof.Machine
end

