-- ==== Sys2Proof/Machine/Operands.lean ====
section
/-! DEFINITION. The operand forms: immediates (30_encoding R103 to R109), widths and extensions of a memory access (20_memory
R74, 42_load_store R180 to R189), the classification of an access (R63) and the device registers an address selects. -/

namespace Sys2Proof.Machine

/-! ## Immediates -/

/-- immI and immS: the 12-bit immediate, sign-extended (R103, R104). -/
def imm12 (imm : BitVec 12) : Word := imm.signExtend 32

/-- immB (R105). -/
def immB (off : BitVec 13) : Word := off.signExtend 32

/-- immJ (R107). -/
def immJ (off : BitVec 21) : Word := off.signExtend 32

/-- immU: `inst[31:12] ++ 0^12` (R106). -/
def immU (imm20 : BitVec 20) : Word := imm20 ++ 0#12

/-- The zero-extended 5-bit immediate of the CSR forms (R108). -/
def uimm5 (u : BitVec 5) : Word := u.zeroExtend 32

/-- The amount of a register shift: "register shift amounts are `x[rs2][4:0]`" (R220). -/
def shiftAmount (v : Word) : BitVec 5 := v.extractLsb' 0 5

/-! ## Widths -/

/-- The bytes of an access (R74). -/
def bytesOf : Width → Nat
  | .byte => 1
  | .half => 2
  | .word => 4

/-- The low bytes of `v` an access of the width carries, zero-extended. -/
def lowBytes : Width → Word → Word
  | .byte, v => (v.extractLsb' 0 8).zeroExtend 32
  | .half, v => (v.extractLsb' 0 16).zeroExtend 32
  | .word, v => v

/-- `sext_8` (R181). -/
def sext8 (v : Word) : Word := (v.extractLsb' 0 8).signExtend 32

/-- `sext_16` (R182). -/
def sext16 (v : Word) : Word := (v.extractLsb' 0 16).signExtend 32

/-! ## Where an access goes -/

/-- The classes of R63. -/
inductive AccessClass where
  | ram
  | device (slot : BitVec 4) (regNo : BitVec 24)
  | split
deriving DecidableEq, Repr

/-- The device slot an address selects, `a[27:24]` (R62). -/
def slotOf (a : Word) : BitVec 4 := a.extractLsb' 24 4

/-- The device-local register number, `a[23:0]` (R62). -/
def regNoOf (a : Word) : BitVec 24 := a.extractLsb' 0 24

/-- `Classify(a, w)` (R63): the range is computed without wrap-around. -/
def classify (a : Word) (w : Width) : AccessClass :=
  if a.toNat + bytesOf w ≤ Config.ramEnd then .ram
  else if Config.ramEnd ≤ a.toNat ∧ (regNoOf a).toNat + bytesOf w ≤ 2 ^ 24 then .device (slotOf a) (regNoOf a)
  else .split

/-- The aggregator's only register, claim and complete (R369). -/
def aggClaimReg : BitVec 24 := 0x000004#24

/-- The UART's register map (R371). -/
def uartRegOf (r : BitVec 24) : Option UartReg :=
  if r = 0x000#24 then some .txdata
  else if r = 0x004#24 then some .rxdata
  else if r = 0x008#24 then some .txctrl
  else if r = 0x00C#24 then some .rxctrl
  else if r = 0x010#24 then some .interruptEnable
  else if r = 0x014#24 then some .interruptPending
  else if r = 0x018#24 then some .baudDivisor
  else none

end Sys2Proof.Machine
end

