-- ==== Sys2Proof/Machine/Ops.lean ====
section
/-! DEFINITION. The named operations over the state: RAM, the register file, the devices, reads, writes and fetches
(20_memory R63 to R71), the aggregator (60_exceptions R364 to R369), the UART's register contract (R371, R372), retirement
(R359), taking a trap (R354) and returning from one (48_system R316). -/

namespace Sys2Proof.Machine

/-- What a meaning answers. -/
abbrev Answer := Host.Outcome State Fault Refusal

/-! ## RAM (R61, R64 to R66) -/

/-- The byte at an address: "a read returns the bytes last written" (R61). -/
def Mem.read : Mem → Nat → Byte
  | [], _ => Mem.unlisted
  | (c, d) :: m, a => if c = a then d else Mem.read m a

/-- The memory without its entry for `a`. -/
def Mem.eraseAt (m : Mem) (a : Nat) : Mem := m.filter (fun c => c.1 != a)

/-- A cell put before the first entry of a higher address. -/
def Mem.insertCell : Mem → Nat → Byte → Mem
  | [], a, b => [(a, b)]
  | (c, d) :: m, a, b => if a < c then (a, b) :: (c, d) :: m else (c, d) :: Mem.insertCell m a b

/-- One byte written; writing what an unlisted address reads as removes the entry. -/
def Mem.write (m : Mem) (a : Nat) (b : Byte) : Mem :=
  if b = Mem.unlisted then Mem.eraseAt m a else Mem.insertCell (Mem.eraseAt m a) a b

/-- The little-endian value of `n` bytes from `a` (R64, R65). -/
def Mem.readLE (m : Mem) (a : Nat) : Nat → Nat
  | 0 => 0
  | n + 1 => (Mem.read m a).toNat + 256 * Mem.readLE m (a + 1) n

/-- The low `n` bytes of `v` written from `a`, lowest byte first (R64, R66). -/
def Mem.writeLE (m : Mem) (a : Nat) (v : Nat) : Nat → Mem
  | 0 => m
  | n + 1 => Mem.writeLE (Mem.write m a (BitVec.ofNat 8 v)) (a + 1) (v / 256) n

/-- Bytes copied one after the other from `a` (R403). -/
def Mem.copy (m : Mem) (a : Nat) : List Byte → Mem
  | [] => m
  | b :: bs => Mem.copy (Mem.write m a b) (a + 1) bs

/-- The canonical form: addresses strictly rising, no entry equal to what an unlisted address reads as. -/
abbrev Mem.wf (m : Mem) : Prop := m.Pairwise (fun c d => c.1 < d.1) ∧ ∀ c ∈ m, c.2 ≠ Mem.unlisted

/-- Every listed address lies in RAM (R61). -/
abbrev Mem.inRam (m : Mem) : Prop := ∀ c ∈ m, c.1 < Config.ramEnd

/-! ## The register file (R20) -/

theorem regIndex_lt (r : Reg) : r.toNat - 1 < 31 := by
  have := r.isLt
  omega

/-- `x[r]`: x0 reads as 0 (R20). -/
def State.getReg (s : State) (r : Reg) : Word :=
  if r = 0#5 then 0#32 else s.regs[r.toNat - 1]'(regIndex_lt r)

/-- `x[r] <- v`: a write to x0 is discarded (R20). -/
def State.setReg (s : State) (r : Reg) (v : Word) : State :=
  if r = 0#5 then s else { s with regs := s.regs.set (r.toNat - 1) v (regIndex_lt r) }

/-! ## The interrupt aggregator (R364 to R369) -/

/-- The aggregate output: "asserted whenever `pending != 0`" (R365). -/
def Aggregator.output (g : Aggregator) : Bool := g.pending != 0#32

/-- `signal(s, level)` for the source whose bit is `i` (R364). -/
def Aggregator.signal (g : Aggregator) (i : Nat) (level : Bool) : Aggregator :=
  if level then { g with pending := g.pending ||| (1#32 <<< i) }
  else { g with pending := g.pending &&& ~~~(1#32 <<< i) }

/-- `claim()` (R367): the number of the lowest pending unserved source, marked served, or 0. -/
def Aggregator.claim (g : Aggregator) : Word × Aggregator :=
  match lowestSet (g.pending &&& ~~~g.served) with
  | none => (0#32, g)
  | some i => (BitVec.ofNat 32 (i + 1), { g with served := g.served ||| (1#32 <<< i) })

/-- `complete(v)` (R368): ids outside 1..32 change nothing (D34). -/
def Aggregator.complete (g : Aggregator) (v : Word) : Aggregator :=
  if 1 ≤ v.toNat ∧ v.toNat ≤ 32 then { g with served := g.served &&& ~~~(1#32 <<< (v.toNat - 1)) } else g

/-- mip: MEIP equals the aggregator's output, every other bit is 0 (R33, R366). -/
def State.mip (s : State) : Word := if s.agg.output then meip else 0#32

/-! ## The UART's register contract (R371, R372) -/

/-- The value a 32-bit read of a UART register gives; `o` holds the bits the contract leaves open (R372 items 2, 3, 6). -/
def uartReadValue (u : Uart) (r : UartReg) (o : Word) : Word :=
  match r with
  | .txdata => BitVec.ofBool (decide (Config.uartFifoDepth ≤ u.tx.length)) ++ o.extractLsb' 0 31
  | .rxdata =>
    match u.rx with
    | [] => 1#1 ++ o.extractLsb' 0 31
    | b :: _ => 0#1 ++ o.extractLsb' 8 23 ++ b
  | .txctrl => o
  | .rxctrl => o
  | .interruptEnable => o
  | .interruptPending => o
  | .baudDivisor => o

/-- The FIFOs after a read: rxdata dequeues one byte (R372 item 3). -/
def uartAfterRead (u : Uart) (r : UartReg) : Uart :=
  match r with
  | .rxdata => { u with rx := u.rx.tail }
  | _ => u

/-- The FIFOs after a write of `v`: txdata enqueues its low byte unless the FIFO is full (R372 item 2). -/
def uartAfterWrite (u : Uart) (r : UartReg) (v : Word) : Uart :=
  match r with
  | .txdata => if u.tx.length < Config.uartFifoDepth then { u with tx := u.tx ++ [v.extractLsb' 0 8] } else u
  | _ => u

/-- The UART's line after an access or an injection: a free level, signalled to its source (R372 item 5, R80). -/
def State.uartSignal (s : State) : State :=
  { s with agg := s.agg.signal s.cfg.uartIrq (Config.uartLine s.draws), draws := s.draws + 1 }

/-- An accepted write of `v` to a UART register: the divisor takes it "with no effect on anything else" (R372 item 4), every other
register is an access after which the line may have changed (R372 item 5). -/
def State.uartWrite (s : State) (r : UartReg) (v : Word) : State :=
  if r = .baudDivisor then s else State.uartSignal { s with uart := uartAfterWrite s.uart r v }

/-! ## Device accesses (R67, R68, R79) -/

/-- A sized device read: the value and the state after its side effects, or `none` for `ok = false` (R67). -/
def State.deviceRead (s : State) (slot : BitVec 4) (r : BitVec 24) (w : Width) : Option (Word × State) :=
  if slot = s.cfg.aggSlot then
    if r = aggClaimReg ∧ w = .word then some (s.agg.claim.1, { s with agg := s.agg.claim.2 }) else none
  else if slot = s.cfg.uartSlot then
    match uartRegOf r with
    | none => none
    | some u =>
      if (⟨.read, u, w⟩ : UartPort) ∈ s.cfg.uartWidths then
        some (lowBytes w (uartReadValue s.uart u (Config.uartOracle s.draws)),
          State.uartSignal { s with uart := uartAfterRead s.uart u })
      else none
  else none

/-- A sized device write: the state after it, or `none` for `ok = false` (R68). -/
def State.deviceWrite (s : State) (slot : BitVec 4) (r : BitVec 24) (w : Width) (v : Word) : Option State :=
  if slot = s.cfg.aggSlot then
    if r = aggClaimReg ∧ w = .word then some { s with agg := s.agg.complete v } else none
  else if slot = s.cfg.uartSlot then
    match uartRegOf r with
    | none => none
    | some u =>
      if (⟨.write, u, w⟩ : UartPort) ∈ s.cfg.uartWidths then
        some (s.uartWrite u (lowBytes w v))
      else none
  else none

/-! ## Reads, writes and fetches (R69 to R71) -/

/-- `MemRead(a, w)`: the value, zero-extended to a word, and the state after its side effects; `none` where R69 raises the
load access fault. -/
def State.memRead (s : State) (a : Word) (w : Width) : Option (Word × State) :=
  match classify a w with
  | .ram => some (BitVec.ofNat 32 (Mem.readLE s.mem a.toNat (bytesOf w)), s)
  | .device slot r => s.deviceRead slot r w
  | .split => none

/-- `MemWrite(a, w, v)`: the state after it; `none` where R70 raises the store/AMO access fault. -/
def State.memWrite (s : State) (a : Word) (w : Width) (v : Word) : Option State :=
  match classify a w with
  | .ram => some { s with mem := Mem.writeLE s.mem a.toNat v.toNat (bytesOf w) }
  | .device slot r => s.deviceWrite slot r w v
  | .split => none

/-- `Fetch(a)`: four bytes wholly inside RAM at any alignment; `none` where R71 raises the instruction access fault. -/
def State.fetch (s : State) (a : Word) : Option Word :=
  if a.toNat + 4 ≤ Config.ramEnd then some (BitVec.ofNat 32 (Mem.readLE s.mem a.toNat 4)) else none

/-! ## Batches and retirement (R41, R358, R359) -/

/-- What a PER_BATCH counter gains when the batch ends, and a PER_INSTRUCTION counter at each retirement (R359). -/
def batchGain (v : Visibility) (k : Nat) : BitVec 64 :=
  match v with
  | .perInstruction => 0#64
  | .perBatch => BitVec.ofNat 64 k

def retireGain (v : Visibility) : BitVec 64 :=
  match v with
  | .perInstruction => 1#64
  | .perBatch => 0#64

/-- The batch ends: a PER_BATCH counter gains k, and the batch's bookkeeping is cleared (R359, R41). -/
def State.endBatch (s : State) : State :=
  { s with
    cycle := s.cycle + batchGain s.cfg.cycleVisibility s.batchRetired
    instret := s.instret + batchGain s.cfg.instretVisibility s.batchRetired
    batchRetired := 0
    batchLeft := 0 }

/-- One instruction has retired: counters, k and the budget (R359); the batch ends with its budget (R358). Outside a batch it
acts as in `run(1)` (log entry 4). -/
def State.retire (s : State) : State :=
  let t : State :=
    { s with
      cycle := s.cycle + retireGain s.cfg.cycleVisibility
      instret := s.instret + retireGain s.cfg.instretVisibility
      batchRetired := s.batchRetired + 1
      batchLeft := s.batchLeft - 1 }
  if s.batchLeft ≤ 1 then t.endBatch else t

/-- The instruction completes and the next one is at `target` (R22). -/
def State.goTo (s : State) (target : Word) : State := State.retire { s with pc := target }

/-- The instruction completes and the next one follows it: the default `pc <- pc + 4` (R10, R22). -/
def State.advance (s : State) : State := s.goTo (s.pc + 4#32)

/-- `x[rd] <- v; pc <- pc + 4`. -/
def State.writeBack (s : State) (rd : Reg) (v : Word) : State := (s.setReg rd v).advance

/-! ## Draws (R10, R348) -/

/-- The next two-valued draw. -/
def State.draw (s : State) : Bool := Config.draw s.draws

/-- The draw has been made. -/
def State.drawn (s : State) : State := { s with draws := s.draws + 1 }

/-- `x[rd]` is a draw in its value before and `v` (R348). -/
def State.drawReg (s : State) (rd : Reg) (v : Word) : State :=
  if s.draw then s.drawn.setReg rd v else s.drawn

/-- `resv` is a draw in its value before and `r` (R348). -/
def State.drawResv (s : State) (r : Option Word) : State :=
  if s.draw then { s.drawn with resv := r } else s.drawn

/-! ## Traps (R340, R354) and the return from one (R316) -/

/-- The number of a cause in mcause (R340, R352). -/
def causeCode : Cause → Word
  | .instrAccessFault => 1#32
  | .illegalInstr => 2#32
  | .breakpoint => 3#32
  | .loadAccessFault => 5#32
  | .storeAccessFault => 7#32
  | .envCall .user => 8#32
  | .envCall .supervisor => 9#32
  | .envCall .machine => 11#32
  | .interrupt i => 0x80000000#32 ||| BitVec.ofNat 32 i

/-- What is added to pc in mepc: INTR_MEPC_OFFSET for an interrupt, 0 for an exception (R354, D15). -/
def mepcOffset (p : Params) : Cause → Word
  | .interrupt _ => if p.intrMepcPlus4 then 4#32 else 0#32
  | _ => 0#32

/-- `TrapEntry` (R354): run in the engine state Trap-Entry, it reads the pending exception, clears it and ends the batch. -/
def State.completeTrap (s : State) : State :=
  match s.engine with
  | .running => s
  | .trapEntry t =>
    State.endBatch
      { s with
        mepc := s.pc + mepcOffset s.cfg t.cause
        mcause := causeCode t.cause
        mtval := t.tval
        mstatus := mkStatus (privCode s.priv) (statusMie s.mstatus) false
        priv := .machine
        pc := s.mtvec
        engine := .running }

/-- `raise E(tval)` (R10): the instruction is abandoned, the pending exception is set (R24) and the trap is taken. -/
def State.raise (s : State) (c : Cause) (tval : Word) : State :=
  State.completeTrap { s with engine := .trapEntry ⟨c, tval⟩ }

/-- MRET to the privilege `p` (R316): priv, MIE from MPIE, MPIE 1, MPP User, pc from mepc; the instruction retires. -/
def State.trapReturn (s : State) (p : Priv) : State :=
  State.goTo { s with priv := p, mstatus := mkStatus (privCode .user) true (statusMpie s.mstatus) } s.mepc

/-- The interrupt condition of R350 and the index of R352: taken when MIE is set and `mie & mip` is not 0. -/
def State.interrupt (s : State) : Option Nat :=
  if statusMie s.mstatus then lowestSet (s.mie &&& s.mip) else none

end Sys2Proof.Machine
end

