-- ==== Sys2Proof/Machine/Amo.lean ====
section
/-! DEFINITION. Atomic memory operations and the reservation (46_amo R260 to R277). aq and rl have no effect (R276). -/

namespace Sys2Proof.Machine

/-- The reservation after an SC.W (R262): cleared where SC_CLEARS_RESERVATION (D22). -/
def resvAfterSc (p : Params) (r : Option Word) : Option Word := if p.scClears then none else r

/-- The template of R264: read a word, write `op old src`, give the old word to rd. A failed read raises the load access fault;
a failed write after a successful read raises the store/AMO access fault, keeps the read's device side effects, and leaves rd a
draw (R348). -/
def amoWith (op : Word → Word → Word) (rd rs1 rs2 : Reg) (s : State) : Answer :=
  let a := s.getReg rs1
  let src := s.getReg rs2
  match s.memRead a .word with
  | none => .next (s.raise .loadAccessFault a)
  | some (old, t) =>
    match t.memWrite a .word (op old src) with
    | some u => .next (u.writeBack rd old)
    | none => .next ((t.drawReg rd old).raise .storeAccessFault a)

/-- LR.W (R265): a completed LR.W records its address (R261); where the read fails the reservation is a draw (R348). -/
def execLrW (rd rs1 : Reg) (_aq _rl : BitVec 1) (s : State) : Answer :=
  let a := s.getReg rs1
  match s.memRead a .word with
  | some (v, t) => .next (State.writeBack { t with resv := some a } rd v)
  | none => .next ((s.drawResv (some a)).raise .loadAccessFault a)

/-- SC.W (R266): stores and gives 0 exactly when the reservation is valid at this address, else gives 1 with no access; where
the write fails, rd and the reservation are draws (R348). -/
def execScW (rd rs1 rs2 : Reg) (_aq _rl : BitVec 1) (s : State) : Answer :=
  let a := s.getReg rs1
  if s.resv = some a then
    match s.memWrite a .word (s.getReg rs2) with
    | some t => .next (State.writeBack { t with resv := resvAfterSc t.cfg t.resv } rd 0#32)
    | none => .next (((s.drawReg rd 0#32).drawResv (resvAfterSc s.cfg s.resv)).raise .storeAccessFault a)
  else .next (State.writeBack { s with resv := resvAfterSc s.cfg s.resv } rd 1#32)

/-- AMOSWAP.W (R267). -/
def execAmoswapW (rd rs1 rs2 : Reg) (_aq _rl : BitVec 1) (s : State) : Answer :=
  amoWith (fun _ src => src) rd rs1 rs2 s

/-- AMOADD.W (R268). -/
def execAmoaddW (rd rs1 rs2 : Reg) (_aq _rl : BitVec 1) (s : State) : Answer :=
  amoWith (fun old src => old + src) rd rs1 rs2 s

/-- AMOXOR.W (R269). -/
def execAmoxorW (rd rs1 rs2 : Reg) (_aq _rl : BitVec 1) (s : State) : Answer :=
  amoWith (fun old src => old ^^^ src) rd rs1 rs2 s

/-- AMOAND.W (R270). -/
def execAmoandW (rd rs1 rs2 : Reg) (_aq _rl : BitVec 1) (s : State) : Answer :=
  amoWith (fun old src => old &&& src) rd rs1 rs2 s

/-- AMOOR.W (R271). -/
def execAmoorW (rd rs1 rs2 : Reg) (_aq _rl : BitVec 1) (s : State) : Answer :=
  amoWith (fun old src => old ||| src) rd rs1 rs2 s

/-- AMOMIN.W (R272). -/
def execAmominW (rd rs1 rs2 : Reg) (_aq _rl : BitVec 1) (s : State) : Answer :=
  amoWith (fun old src => if ltS old src then old else src) rd rs1 rs2 s

/-- AMOMAX.W (R273). -/
def execAmomaxW (rd rs1 rs2 : Reg) (_aq _rl : BitVec 1) (s : State) : Answer :=
  amoWith (fun old src => if ltS old src then src else old) rd rs1 rs2 s

/-- AMOMINU.W (R274). -/
def execAmominuW (rd rs1 rs2 : Reg) (_aq _rl : BitVec 1) (s : State) : Answer :=
  amoWith (fun old src => if ltU old src then old else src) rd rs1 rs2 s

/-- AMOMAXU.W (R275). -/
def execAmomaxuW (rd rs1 rs2 : Reg) (_aq _rl : BitVec 1) (s : State) : Answer :=
  amoWith (fun old src => if ltU old src then src else old) rd rs1 rs2 s

end Sys2Proof.Machine
end

