-- ==== Sys2Proof/Machine/Branch.lean ====
section
/-! DEFINITION. Conditional branches (41_branch R160 to R166). -/

namespace Sys2Proof.Machine

/-- The common behaviour of R160: taken, the next pc is the branch's own address plus immB; else pc + 4. -/
def branchIf (cond : Bool) (off : BitVec 13) (s : State) : Answer :=
  .next (if cond then s.goTo (s.pc + immB off) else s.advance)

/-- BEQ (R161). -/
def execBeq (rs1 rs2 : Reg) (off : BitVec 13) (s : State) : Answer :=
  branchIf (s.getReg rs1 == s.getReg rs2) off s

/-- BNE (R162). -/
def execBne (rs1 rs2 : Reg) (off : BitVec 13) (s : State) : Answer :=
  branchIf (s.getReg rs1 != s.getReg rs2) off s

/-- BLT (R163). -/
def execBlt (rs1 rs2 : Reg) (off : BitVec 13) (s : State) : Answer :=
  branchIf (ltS (s.getReg rs1) (s.getReg rs2)) off s

/-- BGE (R164). -/
def execBge (rs1 rs2 : Reg) (off : BitVec 13) (s : State) : Answer :=
  branchIf (!ltS (s.getReg rs1) (s.getReg rs2)) off s

/-- BLTU (R165). -/
def execBltu (rs1 rs2 : Reg) (off : BitVec 13) (s : State) : Answer :=
  branchIf (ltU (s.getReg rs1) (s.getReg rs2)) off s

/-- BGEU (R166). -/
def execBgeu (rs1 rs2 : Reg) (off : BitVec 13) (s : State) : Answer :=
  branchIf (!ltU (s.getReg rs1) (s.getReg rs2)) off s

end Sys2Proof.Machine
end

