-- ==== Sys2Proof/Machine/ImmArith.lean ====
section
/-! DEFINITION. Register-immediate arithmetic (43_imm_arith R200 to R209). -/

namespace Sys2Proof.Machine

/-- ADDI (R201). -/
def execAddi (rd rs1 : Reg) (imm : BitVec 12) (s : State) : Answer :=
  .next (s.writeBack rd (s.getReg rs1 + imm12 imm))

/-- SLTI (R202). -/
def execSlti (rd rs1 : Reg) (imm : BitVec 12) (s : State) : Answer :=
  .next (s.writeBack rd (boolWord (ltS (s.getReg rs1) (imm12 imm))))

/-- SLTIU (R203). -/
def execSltiu (rd rs1 : Reg) (imm : BitVec 12) (s : State) : Answer :=
  .next (s.writeBack rd (boolWord (ltU (s.getReg rs1) (imm12 imm))))

/-- XORI (R204). -/
def execXori (rd rs1 : Reg) (imm : BitVec 12) (s : State) : Answer :=
  .next (s.writeBack rd (s.getReg rs1 ^^^ imm12 imm))

/-- ORI (R205). -/
def execOri (rd rs1 : Reg) (imm : BitVec 12) (s : State) : Answer :=
  .next (s.writeBack rd (s.getReg rs1 ||| imm12 imm))

/-- ANDI (R206). -/
def execAndi (rd rs1 : Reg) (imm : BitVec 12) (s : State) : Answer :=
  .next (s.writeBack rd (s.getReg rs1 &&& imm12 imm))

/-- SLLI (R207). -/
def execSlli (rd rs1 : Reg) (shamt : BitVec 5) (s : State) : Answer :=
  .next (s.writeBack rd (s.getReg rs1 <<< shamt.toNat))

/-- SRLI (R208). -/
def execSrli (rd rs1 : Reg) (shamt : BitVec 5) (s : State) : Answer :=
  .next (s.writeBack rd (s.getReg rs1 >>> shamt.toNat))

/-- SRAI (R209). -/
def execSrai (rd rs1 : Reg) (shamt : BitVec 5) (s : State) : Answer :=
  .next (s.writeBack rd ((s.getReg rs1).sshiftRight shamt.toNat))

end Sys2Proof.Machine
end

