-- ==== Sys2Proof/Machine/LoadStore.lean ====
section
/-! DEFINITION. Loads and stores (42_load_store R180 to R189). -/

namespace Sys2Proof.Machine

/-- A load: the address is x[rs1] + immI (R180), the value read is extended by `ext`; a failed read raises the load access
fault with the address (R69, R344). -/
def loadWith (w : Width) (ext : Word → Word) (rd rs1 : Reg) (imm : BitVec 12) (s : State) : Answer :=
  let a := s.getReg rs1 + imm12 imm
  match s.memRead a w with
  | some (v, t) => .next (t.writeBack rd (ext v))
  | none => .next (s.raise .loadAccessFault a)

/-- A store of the low bytes of x[rs2] at x[rs1] + immS (R180); a failed write raises the store/AMO access fault with the
address (R70, R345). -/
def storeWith (w : Width) (rs1 rs2 : Reg) (imm : BitVec 12) (s : State) : Answer :=
  let a := s.getReg rs1 + imm12 imm
  match s.memWrite a w (s.getReg rs2) with
  | some t => .next t.advance
  | none => .next (s.raise .storeAccessFault a)

/-- LB (R181). -/
def execLb (rd rs1 : Reg) (imm : BitVec 12) (s : State) : Answer :=
  loadWith .byte sext8 rd rs1 imm s

/-- LH (R182). -/
def execLh (rd rs1 : Reg) (imm : BitVec 12) (s : State) : Answer :=
  loadWith .half sext16 rd rs1 imm s

/-- LW (R183). -/
def execLw (rd rs1 : Reg) (imm : BitVec 12) (s : State) : Answer :=
  loadWith .word id rd rs1 imm s

/-- LBU (R184). -/
def execLbu (rd rs1 : Reg) (imm : BitVec 12) (s : State) : Answer :=
  loadWith .byte (lowBytes .byte) rd rs1 imm s

/-- LHU (R185). -/
def execLhu (rd rs1 : Reg) (imm : BitVec 12) (s : State) : Answer :=
  loadWith .half (lowBytes .half) rd rs1 imm s

/-- SB (R186). -/
def execSb (rs1 rs2 : Reg) (imm : BitVec 12) (s : State) : Answer :=
  storeWith .byte rs1 rs2 imm s

/-- SH (R187). -/
def execSh (rs1 rs2 : Reg) (imm : BitVec 12) (s : State) : Answer :=
  storeWith .half rs1 rs2 imm s

/-- SW (R188). -/
def execSw (rs1 rs2 : Reg) (imm : BitVec 12) (s : State) : Answer :=
  storeWith .word rs1 rs2 imm s

end Sys2Proof.Machine
end

