-- ==== Sys2Proof/Machine/MiscMem.lean ====
section
/-! DEFINITION. Fences (47_misc_mem R290 to R292): both are no-ops that retire, whatever their other fields hold (D28). -/

namespace Sys2Proof.Machine

/-- FENCE (R290). -/
def execFence (_rd _rs1 : Reg) (_fm _pred _succ : BitVec 4) (s : State) : Answer := .next s.advance

/-- FENCE.I (R291). -/
def execFenceI (_rd _rs1 : Reg) (_imm : BitVec 12) (s : State) : Answer := .next s.advance

end Sys2Proof.Machine
end

