-- ==== Sys2Proof/Machine/MulDiv.lean ====
section
/-! DEFINITION. Multiply and divide (45_muldiv R240 to R249). Operands are converted to exact integers, the operation is done there, and
the result is narrowed once (R240). -/

namespace Sys2Proof.Machine

/-- `INT_MIN` (R240). -/
def intMin : Word := 0x80000000#32

/-- `trunc_32` of an exact integer (R9). -/
def trunc32 (i : Int) : Word := BitVec.ofInt 32 i

/-- DIV: quotient toward zero; by zero -1, on overflow INT_MIN (R245). -/
def divSigned (a b : Word) : Word :=
  if b = 0#32 then 0xFFFFFFFF#32
  else if a = intMin ∧ b = 0xFFFFFFFF#32 then intMin
  else trunc32 (Int.tdiv a.toInt b.toInt)

/-- DIVU: by zero all-ones (R246). -/
def divUnsigned (a b : Word) : Word := if b = 0#32 then 0xFFFFFFFF#32 else BitVec.ofNat 32 (a.toNat / b.toNat)

/-- REM: by zero the dividend, on overflow 0 (R247). -/
def remSigned (a b : Word) : Word :=
  if b = 0#32 then a
  else if a = intMin ∧ b = 0xFFFFFFFF#32 then 0#32
  else trunc32 (a.toInt - b.toInt * Int.tdiv a.toInt b.toInt)

/-- REMU: by zero the dividend (R248). -/
def remUnsigned (a b : Word) : Word := if b = 0#32 then a else BitVec.ofNat 32 (a.toNat % b.toNat)

/-- MUL (R241). -/
def execMul (rd rs1 rs2 : Reg) (s : State) : Answer :=
  .next (s.writeBack rd (trunc32 ((s.getReg rs1).toInt * (s.getReg rs2).toInt)))

/-- MULH (R242). -/
def execMulh (rd rs1 rs2 : Reg) (s : State) : Answer :=
  .next (s.writeBack rd (trunc32 ((s.getReg rs1).toInt * (s.getReg rs2).toInt / 2 ^ 32)))

/-- MULHSU (R243). -/
def execMulhsu (rd rs1 rs2 : Reg) (s : State) : Answer :=
  .next (s.writeBack rd (trunc32 ((s.getReg rs1).toInt * ((s.getReg rs2).toNat : Int) / 2 ^ 32)))

/-- MULHU (R244). -/
def execMulhu (rd rs1 rs2 : Reg) (s : State) : Answer :=
  .next (s.writeBack rd (BitVec.ofNat 32 ((s.getReg rs1).toNat * (s.getReg rs2).toNat / 2 ^ 32)))

/-- DIV (R245). -/
def execDiv (rd rs1 rs2 : Reg) (s : State) : Answer :=
  .next (s.writeBack rd (divSigned (s.getReg rs1) (s.getReg rs2)))

/-- DIVU (R246). -/
def execDivu (rd rs1 rs2 : Reg) (s : State) : Answer :=
  .next (s.writeBack rd (divUnsigned (s.getReg rs1) (s.getReg rs2)))

/-- REM (R247). -/
def execRem (rd rs1 rs2 : Reg) (s : State) : Answer :=
  .next (s.writeBack rd (remSigned (s.getReg rs1) (s.getReg rs2)))

/-- REMU (R248). -/
def execRemu (rd rs1 rs2 : Reg) (s : State) : Answer :=
  .next (s.writeBack rd (remUnsigned (s.getReg rs1) (s.getReg rs2)))

end Sys2Proof.Machine
end

