-- ==== Sys2Proof/Machine/OpArith.lean ====
section
/-! DEFINITION. Register-register arithmetic (44_op_arith R220 to R230); shift amounts are x[rs2][4:0] (R220). -/

namespace Sys2Proof.Machine

/-- ADD (R221). -/
def execAdd (rd rs1 rs2 : Reg) (s : State) : Answer :=
  .next (s.writeBack rd (s.getReg rs1 + s.getReg rs2))

/-- SUB (R222). -/
def execSub (rd rs1 rs2 : Reg) (s : State) : Answer :=
  .next (s.writeBack rd (s.getReg rs1 - s.getReg rs2))

/-- SLL (R223). -/
def execSll (rd rs1 rs2 : Reg) (s : State) : Answer :=
  .next (s.writeBack rd (s.getReg rs1 <<< (shiftAmount (s.getReg rs2)).toNat))

/-- SLT (R224). -/
def execSlt (rd rs1 rs2 : Reg) (s : State) : Answer :=
  .next (s.writeBack rd (boolWord (ltS (s.getReg rs1) (s.getReg rs2))))

/-- SLTU (R225). -/
def execSltu (rd rs1 rs2 : Reg) (s : State) : Answer :=
  .next (s.writeBack rd (boolWord (ltU (s.getReg rs1) (s.getReg rs2))))

/-- XOR (R226). -/
def execXor (rd rs1 rs2 : Reg) (s : State) : Answer :=
  .next (s.writeBack rd (s.getReg rs1 ^^^ s.getReg rs2))

/-- SRL (R227). -/
def execSrl (rd rs1 rs2 : Reg) (s : State) : Answer :=
  .next (s.writeBack rd (s.getReg rs1 >>> (shiftAmount (s.getReg rs2)).toNat))

/-- SRA (R228). -/
def execSra (rd rs1 rs2 : Reg) (s : State) : Answer :=
  .next (s.writeBack rd ((s.getReg rs1).sshiftRight (shiftAmount (s.getReg rs2)).toNat))

/-- OR (R229). -/
def execOr (rd rs1 rs2 : Reg) (s : State) : Answer :=
  .next (s.writeBack rd (s.getReg rs1 ||| s.getReg rs2))

/-- AND (R230). -/
def execAnd (rd rs1 rs2 : Reg) (s : State) : Answer :=
  .next (s.writeBack rd (s.getReg rs1 &&& s.getReg rs2))

end Sys2Proof.Machine
end

