-- ==== Sys2Proof/Machine/Csr.lean ====
section
/-! DEFINITION. The CSR file and its access protocol (10_state R27 to R38, 48_system R300 to R307). -/

namespace Sys2Proof.Machine

/-- The fourteen implemented CSRs (R27, R301). -/
inductive Csr where
  | mstatus
  | misa
  | mie
  | mtvec
  | mcounteren
  | mscratch
  | mepc
  | mcause
  | mtval
  | mip
  | cycle
  | instret
  | cycleh
  | instreth
deriving DecidableEq, Repr

/-- The CSR of a number, if it is implemented (R27, D6, D7). -/
def csrOf (c : CsrNum) : Option Csr :=
  if c = 0x300#12 then some .mstatus
  else if c = 0x301#12 then some .misa
  else if c = 0x304#12 then some .mie
  else if c = 0x305#12 then some .mtvec
  else if c = 0x306#12 then some .mcounteren
  else if c = 0x340#12 then some .mscratch
  else if c = 0x341#12 then some .mepc
  else if c = 0x342#12 then some .mcause
  else if c = 0x343#12 then some .mtval
  else if c = 0x344#12 then some .mip
  else if c = 0xC00#12 then some .cycle
  else if c = 0xC02#12 then some .instret
  else if c = 0xC80#12 then some .cycleh
  else if c = 0xC82#12 then some .instreth
  else none

/-- The privilege gate passes: the level is not below bits [9:8] of the number (R302). -/
def csrPrivOk (p : Priv) (c : CsrNum) : Bool := decide ((c.extractLsb' 8 2).toNat ≤ (privCode p).toNat)

/-- The counter gate passes: below Machine mode a counter view needs its mcounteren bit (R303). -/
def csrCounterOk (p : Priv) (mcounteren : Word) (r : Csr) : Bool :=
  match r with
  | .cycle => p == .machine || mcounteren.getLsbD 0
  | .cycleh => p == .machine || mcounteren.getLsbD 0
  | .instret => p == .machine || mcounteren.getLsbD 2
  | .instreth => p == .machine || mcounteren.getLsbD 2
  | _ => true

/-- Bits [11:10] = 0b11 mark a CSR read-only (R304, C2). -/
def csrReadOnly (c : CsrNum) : Bool := c.extractLsb' 10 2 == 0b11#2

/-- `CsrRead(c)` (R305). -/
def State.csrRead (s : State) : Csr → Word
  | .mstatus => s.mstatus &&& mstatusMask
  | .misa => s.cfg.misa
  | .mie => s.mie &&& mieMask
  | .mtvec => s.mtvec
  | .mcounteren => s.mcounteren
  | .mscratch => s.mscratch
  | .mepc => s.mepc
  | .mcause => s.mcause
  | .mtval => s.mtval
  | .mip => s.mip
  | .cycle => s.cycle.extractLsb' 0 32
  | .instret => s.instret.extractLsb' 0 32
  | .cycleh => s.cycle.extractLsb' 32 32
  | .instreth => s.instret.extractLsb' 32 32

/-- `CsrWrite(c, v)` (R306): misa and the counter views are never reached, a write of mip is ignored. -/
def State.csrWrite (s : State) (r : Csr) (v : Word) : State :=
  match r with
  | .mstatus => { s with mstatus := v &&& mstatusMask }
  | .mie => { s with mie := v &&& mieMask }
  | .mtvec => { s with mtvec := v }
  | .mcounteren => { s with mcounteren := v }
  | .mscratch => { s with mscratch := v }
  | .mepc => { s with mepc := v }
  | .mcause => { s with mcause := v }
  | .mtval => { s with mtval := v }
  | .misa => s
  | .mip => s
  | .cycle => s
  | .instret => s
  | .cycleh => s
  | .instreth => s

/-- What the protocol of R300 answers: the old value and the state after the write; illegal instruction; or illegal
instruction by a write of misa, after the read of the old value (R306). -/
inductive CsrAnswer where
  | done (old : Word) (s : State)
  | illegal
  | illegalMisa (old : Word)
deriving DecidableEq, Repr

/-- `CsrAccess(c, write, f)` (R300). -/
def State.csrAccess (s : State) (c : CsrNum) (write : Bool) (f : Word → Word) : CsrAnswer :=
  match csrOf c with
  | none => .illegal
  | some r =>
    if !csrPrivOk s.priv c then .illegal
    else if !csrCounterOk s.priv s.mcounteren r then .illegal
    else if write && csrReadOnly c then .illegal
    else if write then
      if r = .misa then .illegalMisa (s.csrRead r) else .done (s.csrRead r) (s.csrWrite r (f (s.csrRead r)))
    else .done (s.csrRead r) s

/-- A CSR instruction with the word `inst`: the protocol, then `x[rd] <- old; pc <- pc + 4` (R300); illegal instruction with
mtval = inst where it refuses (R342), rd being a draw where misa was to be written (R348). -/
def csrWith (inst : Word) (rd : Reg) (c : CsrNum) (write : Bool) (f : Word → Word) (s : State) : Answer :=
  match s.csrAccess c write f with
  | .done old t => .next (t.writeBack rd old)
  | .illegal => .next (s.raise .illegalInstr inst)
  | .illegalMisa old => .next ((s.drawReg rd old).raise .illegalInstr inst)

end Sys2Proof.Machine
end

