-- ==== Sys2Proof/Machine/System.lean ====
section
/-! DEFINITION. System instructions (48_system R308 to R316). `inst`, the trap value of an illegal instruction, is the instruction's own
word, which its operands determine (log entry 16). -/

namespace Sys2Proof.Machine

/-- CSRRW (R308): always writes. -/
def execCsrrw (rd rs1 : Reg) (csr : CsrNum) (s : State) : Answer :=
  csrWith (encode (.csrrw rd rs1 csr)) rd csr (true) (fun _ => s.getReg rs1) s

/-- CSRRS (R309): writes exactly when x[rs1] is not 0 (R307). -/
def execCsrrs (rd rs1 : Reg) (csr : CsrNum) (s : State) : Answer :=
  csrWith (encode (.csrrs rd rs1 csr)) rd csr (s.getReg rs1 != 0#32) (fun o => o ||| s.getReg rs1) s

/-- CSRRC (R310): writes exactly when x[rs1] is not 0 (R307). -/
def execCsrrc (rd rs1 : Reg) (csr : CsrNum) (s : State) : Answer :=
  csrWith (encode (.csrrc rd rs1 csr)) rd csr (s.getReg rs1 != 0#32) (fun o => o &&& ~~~(s.getReg rs1)) s

/-- CSRRWI (R311): always writes. -/
def execCsrrwi (rd : Reg) (uimm : BitVec 5) (csr : CsrNum) (s : State) : Answer :=
  csrWith (encode (.csrrwi rd uimm csr)) rd csr (true) (fun _ => uimm5 uimm) s

/-- CSRRSI (R312): writes exactly when uimm is not 0 (R307). -/
def execCsrrsi (rd : Reg) (uimm : BitVec 5) (csr : CsrNum) (s : State) : Answer :=
  csrWith (encode (.csrrsi rd uimm csr)) rd csr (uimm != 0#5) (fun o => o ||| uimm5 uimm) s

/-- CSRRCI (R313): writes exactly when uimm is not 0 (R307). -/
def execCsrrci (rd : Reg) (uimm : BitVec 5) (csr : CsrNum) (s : State) : Answer :=
  csrWith (encode (.csrrci rd uimm csr)) rd csr (uimm != 0#5) (fun o => o &&& ~~~(uimm5 uimm)) s

/-- ECALL (R314): the environment call of the level it executes in, trap value 0. -/
def execEcall (s : State) : Answer := .next (s.raise (.envCall s.priv) 0#32)

/-- EBREAK (R315): breakpoint, trap value 0. -/
def execEbreak (s : State) : Answer := .next (s.raise .breakpoint 0#32)

/-- The level MRET restores (R316): the one MPP names, or MPP2_PRIV for MPP = 2, if it is given (D12). -/
def mretPriv (s : State) : Option Priv :=
  match privOfCode (statusMpp s.mstatus) with
  | some p => some p
  | none => s.cfg.mpp2Priv

/-- MRET (R316): illegal instruction below Machine mode; refused where MPP = 2 and MPP2_PRIV is not given. -/
def execMret (s : State) : Answer :=
  if s.priv = .machine then
    match mretPriv s with
    | some p => .next (s.trapReturn p)
    | none => .refused .mppReserved
  else .next (s.raise .illegalInstr (encode .mret))

end Sys2Proof.Machine
end

