-- ==== Sys2Proof/Machine/UpperJump.lean ====
section
/-! DEFINITION. Upper-immediate and jump instructions (40_upper_jump R140 to R144). -/

namespace Sys2Proof.Machine

/-- LUI (R140). -/
def execLui (rd : Reg) (imm20 : BitVec 20) (s : State) : Answer := .next (s.writeBack rd (immU imm20))

/-- AUIPC (R141). -/
def execAuipc (rd : Reg) (imm20 : BitVec 20) (s : State) : Answer := .next (s.writeBack rd (s.pc + immU imm20))

/-- JAL (R142): no alignment check. -/
def execJal (rd : Reg) (off : BitVec 21) (s : State) : Answer :=
  .next ((s.setReg rd (s.pc + 4#32)).goTo (s.pc + immJ off))

/-- JALR (R143): the target is computed from the old rs1 and bit 0 is cleared. -/
def execJalr (rd rs1 : Reg) (imm : BitVec 12) (s : State) : Answer :=
  .next ((s.setReg rd (s.pc + 4#32)).goTo ((s.getReg rs1 + imm12 imm) &&& 0xFFFFFFFE#32))

end Sys2Proof.Machine
end

