-- ==== Sys2Proof/Machine/Engine.lean ====
section
/-! DEFINITION. The engine: fetch, decode and execute one instruction, start a batch, and perform a host move (60_exceptions
R350, R358; 70_reset_and_hazards R400 to R403, R408). -/

namespace Sys2Proof.Machine

/-- One turn of the loop of R358: fetch at pc, decode, execute. A failed fetch raises the instruction access fault (R341), an
undecodable word the illegal instruction exception with the word as its trap value (R342). -/
def State.runInstr (s : State) : Answer :=
  match s.fetch s.pc with
  | none => .next (s.raise .instrAccessFault s.pc)
  | some inst =>
    match decodeWord inst with
    | .error _ => .next (s.raise .illegalInstr inst)
    | .ok i => exec i s

/-- `run(n)` (R358): interrupts are sampled once; if none is taken the batch begins with its first instruction, or ends at once
with a budget of 0. -/
def State.runBatch (s : State) (n : Nat) : Answer :=
  match s.interrupt with
  | some i => .next (s.raise (.interrupt i) 0#32)
  | none => if n = 0 then .next s else State.runInstr { s with batchRetired := 0, batchLeft := n }

/-- `reset()` (R400): every item of R42 at its reset value; RAM, the slot table and the wiring are kept (R401). The UART's own
reset empties its FIFOs (log entry 7). The host's list and the index of free values are the model's own and stay. -/
def State.hostReset (s : State) : State :=
  { State.reset with mem := s.mem, cfg := s.cfg, host := s.host, draws := s.draws }

/-- `load(image)` (R403): the bytes go to 0x1000 and up, nothing else changes; an image that does not fit is a host error. -/
def State.hostLoad (s : State) (image : List Byte) : Answer :=
  if Config.imageBase + image.length ≤ Config.ramEnd then
    .next { s with mem := Mem.copy s.mem Config.imageBase image }
  else .fault .imageDoesNotFit

/-- Bytes delivered to the UART enter its receive FIFO; its line may change (R372 item 5, R408 item 4). -/
def State.hostInject (s : State) (bytes : List Byte) : State :=
  State.uartSignal { s with uart := { s.uart with rx := s.uart.rx ++ bytes } }

/-- The oldest `n` bytes leave the transmit FIFO (R372 item 5, R408 item 4). -/
def State.hostDrain (s : State) (n : Nat) : State := { s with uart := { s.uart with tx := s.uart.tx.drop n } }

/-- The host's next move, between batches (R408). -/
def State.hostMove (s : State) : HostMove → Answer
  | .reset => .next s.hostReset
  | .load image => s.hostLoad image
  | .run n => s.runBatch n
  | .inject bytes => .next (s.hostInject bytes)
  | .drain n => .next (s.hostDrain n)

/-- No batch is running: the host makes the first move it lists; when it lists none it invokes the engine with a budget of 1
(log entry 3). -/
def State.hostTurn (s : State) : Answer :=
  match s.host with
  | [] => s.runBatch 1
  | m :: rest => State.hostMove { s with host := rest } m

/-- One step: an unfinished trap sequence is finished (R24; log entry 14); between batches the host moves; inside a batch one
instruction is executed and no interrupt is sampled (R350, R358). -/
def State.engineStep (s : State) : Answer :=
  match s.engine with
  | .trapEntry _ => .next s.completeTrap
  | .running => if s.batchLeft = 0 then s.hostTurn else s.runInstr

/-- The address of the next fetch of `withFetchWord`: pc, or RESET_PC where nothing can be fetched at pc. -/
def State.fetchablePc (s : State) : Word := if s.pc.toNat + 4 ≤ Config.ramEnd then s.pc else Config.resetPc

/-- A host has loaded the word `w` at the next fetch and a batch is running: the next step fetches and runs it (log entry 4). -/
def State.placeWord (s : State) (w : Word) : State :=
  { s with
    engine := .running
    batchLeft := if s.batchLeft = 0 then 1 else s.batchLeft
    pc := s.fetchablePc
    mem := Mem.writeLE s.mem s.fetchablePc.toNat w.toNat 4 }

end Sys2Proof.Machine
end

