-- ==== Sys2Proof/Machine/Step.lean ====
section
/-! DEFINITION. The step of the machine and the host's way to place one instruction. -/

namespace Sys2Proof.Machine

/-- One step: one host move, one batch start with its first instruction, or one instruction (log entry 4). -/
def step (s : State) : Host.Outcome State Fault Refusal := s.engineStep

/-- `s` with the instruction word `w`, whose bits above `nbits` are 0, where the next step fetches. -/
def State.withFetchWord (s : State) (nbits w : Nat) : State := s.placeWord (BitVec.ofNat 32 (w % 2 ^ nbits))

end Sys2Proof.Machine
end

