-- ==== Sys2Proof/Safety.lean ====
section
/-! DEFINITION. The terms statements are made in: what an instruction leaves alone, what retirement does (60_exceptions R359),
what a trap leaves (R354), when a memory access is refused (R344, R345), and the invariant of the machine. -/

namespace Sys2Proof.Machine

/-! ## Retirement (R359) -/

/-- What retirement makes of a counter of visibility `v`, with `left` instructions of budget left and `k` retired before it:
PER_INSTRUCTION adds one at once; PER_BATCH adds the batch's count when this retirement ends the batch. -/
def retiredCounter (v : Visibility) (left k : Nat) (c : BitVec 64) : BitVec 64 :=
  match v with
  | .perInstruction => c + 1#64
  | .perBatch => if left ≤ 1 then c + BitVec.ofNat 64 (k + 1) else c

/-- What the end of a batch by a trap makes of a counter: PER_BATCH adds the `k` instructions retired before the trap. -/
def trappedCounter (v : Visibility) (k : Nat) (c : BitVec 64) : BitVec 64 :=
  match v with
  | .perInstruction => c
  | .perBatch => c + BitVec.ofNat 64 k

/-- One instruction retired between `s` and `t`: both counters, the batch count and the budget (R359, R41, R358). -/
def Retired (s t : State) : Prop :=
  t.cycle = retiredCounter s.cfg.cycleVisibility s.batchLeft s.batchRetired s.cycle ∧
  t.instret = retiredCounter s.cfg.instretVisibility s.batchLeft s.batchRetired s.instret ∧
  t.batchRetired = (if s.batchLeft ≤ 1 then 0 else s.batchRetired + 1) ∧
  t.batchLeft = s.batchLeft - 1

/-! ## Frames -/

/-- `x[rd]` holds `v` and every other register what it held; x0 reads 0 whatever rd is (R20). -/
def RegWritten (s t : State) (rd : Reg) (v : Word) : Prop :=
  ∀ r : Reg, t.getReg r = if r = 0#5 then 0#32 else if r = rd then v else s.getReg r

/-- Every register holds what it held. -/
def SameRegs (s t : State) : Prop := ∀ r : Reg, t.getReg r = s.getReg r

/-- Every byte of RAM reads as it did. -/
def SameMem (s t : State) : Prop := ∀ a : Nat, Mem.read t.mem a = Mem.read s.mem a

/-- Every writable CSR holds what it held. -/
def SameCsrs (s t : State) : Prop :=
  t.mstatus = s.mstatus ∧ t.mie = s.mie ∧ t.mtvec = s.mtvec ∧ t.mcounteren = s.mcounteren ∧ t.mscratch = s.mscratch ∧
  t.mepc = s.mepc ∧ t.mcause = s.mcause ∧ t.mtval = s.mtval

/-- The aggregator and the UART (with the index of the free values) are as they were. -/
def SameDevices (s t : State) : Prop := t.agg = s.agg ∧ t.uart = s.uart ∧ t.draws = s.draws

/-- What no instruction changes but by a trap or MRET: the privilege level and the engine state; and what none changes at all:
the parameters and the host's list. -/
def SameControl (s t : State) : Prop := t.priv = s.priv ∧ t.engine = s.engine ∧ t.cfg = s.cfg ∧ t.host = s.host

/-- Nothing but registers, pc, memory, the counters and the batch's bookkeeping may differ. -/
def Quiet (s t : State) : Prop := SameCsrs s t ∧ SameDevices s t ∧ SameControl s t ∧ t.resv = s.resv

/-- `w` is a word of `i`, and from `s` the instruction completes: `v` is in rd, the next pc is `npc`, one instruction has retired,
and every other register, every CSR, the reservation, the devices, the privilege and every byte of RAM are as they were. -/
def Computes (w : Word) (i : Instr) (s : State) (rd : Reg) (v npc : Word) : Prop :=
  decodeWord w = .ok i ∧
  ∃ t, exec i s = .next t ∧ RegWritten s t rd v ∧ t.pc = npc ∧ Retired s t ∧ Quiet s t ∧ SameMem s t

/-- As `Computes`, for an instruction with no destination register. -/
def Proceeds (w : Word) (i : Instr) (s : State) (npc : Word) : Prop :=
  decodeWord w = .ok i ∧ ∃ t, exec i s = .next t ∧ SameRegs s t ∧ t.pc = npc ∧ Retired s t ∧ Quiet s t ∧ SameMem s t

/-- The `n` bytes from `a` hold the bytes of `v`, lowest first, and every other byte of RAM reads as it did (R64, R66). -/
def Stored (s t : State) (a n : Nat) (v : Word) : Prop :=
  (∀ i, i < n → Mem.read t.mem (a + i) = v.extractLsb' (8 * i) 8) ∧
  ∀ x, x < a ∨ a + n ≤ x → Mem.read t.mem x = Mem.read s.mem x

/-- `w` is a word of `i`, and from `s` the instruction stores the low `n` bytes of `v` at `a`, changes no register and goes on. -/
def Stores (w : Word) (i : Instr) (s : State) (a n : Nat) (v : Word) : Prop :=
  decodeWord w = .ok i ∧
  ∃ t, exec i s = .next t ∧ Stored s t a n v ∧ SameRegs s t ∧ t.pc = s.pc + 4#32 ∧ Retired s t ∧ Quiet s t

/-! ## Traps (R354) -/

/-- What trap entry writes, for the cause number `c`, the trap value `v` and mepc `p`: the trap CSRs, mstatus, the privilege, the
pc and the end of the batch; the other CSRs, the parameters and the host's list are as they were. -/
def TrapTaken (s t : State) (c v p : Word) : Prop :=
  t.mepc = p ∧ t.mcause = c ∧ t.mtval = v ∧
  statusMpie t.mstatus = statusMie s.mstatus ∧ statusMpp t.mstatus = privCode s.priv ∧ statusMie t.mstatus = false ∧
  (∀ i, i ≠ 3 → i ≠ 7 → i ≠ 11 → i ≠ 12 → t.mstatus.getLsbD i = false) ∧
  t.priv = .machine ∧ t.pc = s.mtvec ∧ t.engine = .running ∧
  t.batchRetired = 0 ∧ t.batchLeft = 0 ∧
  t.cycle = trappedCounter s.cfg.cycleVisibility s.batchRetired s.cycle ∧
  t.instret = trappedCounter s.cfg.instretVisibility s.batchRetired s.instret ∧
  t.mie = s.mie ∧ t.mtvec = s.mtvec ∧ t.mcounteren = s.mcounteren ∧ t.mscratch = s.mscratch ∧
  t.cfg = s.cfg ∧ t.host = s.host

/-- A precise exception: trap entry with mepc = pc, and every register, the reservation, RAM and the devices as they were (R349,
R354). -/
def Traps (s t : State) (c v : Word) : Prop :=
  TrapTaken s t c v s.pc ∧ SameRegs s t ∧ t.resv = s.resv ∧ SameMem s t ∧ SameDevices s t

/-- `w` is a word of `i`, and from `s` it raises the precise exception with the number `c` and the trap value `v`. -/
def Raises (w : Word) (i : Instr) (s : State) (c v : Word) : Prop :=
  decodeWord w = .ok i ∧ ∃ t, exec i s = .next t ∧ Traps s t c v

/-! ## Where an access goes (R63, R344, R345) -/

/-- The `n` bytes from `a` lie in RAM (R63). -/
def InRam (a : Word) (n : Nat) : Prop := a.toNat + n ≤ 0xC0000000

/-- An access that the memory refuses: not in RAM, and either not within one device slot, or to an empty slot, or to a register
or width the device does not support (R63, R67 to R70, R369, R371, R372 item 1). -/
def Refused (s : State) (d : Dir) (a : Word) (w : Width) : Prop :=
  ¬ InRam a (bytesOf w) ∧
  (a.toNat < 0xC0000000 ∨ 2 ^ 24 < a.toNat % 2 ^ 24 + bytesOf w ∨
    (slotOf a ≠ s.cfg.aggSlot ∧ slotOf a ≠ s.cfg.uartSlot) ∨
    (slotOf a = s.cfg.aggSlot ∧ ¬ (a.toNat % 2 ^ 24 = 4 ∧ w = .word)) ∨
    (slotOf a ≠ s.cfg.aggSlot ∧ slotOf a = s.cfg.uartSlot ∧
      ∀ u, uartRegOf (regNoOf a) = some u → (⟨d, u, w⟩ : UartPort) ∉ s.cfg.uartWidths))

/-- `a` is the aggregator's claim and complete register, or one of its aliases (R62, R367). -/
def AtClaimRegister (s : State) (a : Word) : Prop :=
  0xC0000000 ≤ a.toNat ∧ slotOf a = s.cfg.aggSlot ∧ regNoOf a = 4#24

/-- `a` is the UART's register `u`, and the UART has the accessor (R62, R371, R372 item 1). -/
def AtUart (s : State) (d : Dir) (a : Word) (u : UartReg) (w : Width) : Prop :=
  0xC0000000 ≤ a.toNat ∧ slotOf a ≠ s.cfg.aggSlot ∧ slotOf a = s.cfg.uartSlot ∧ uartRegOf (regNoOf a) = some u ∧
  (⟨d, u, w⟩ : UartPort) ∈ s.cfg.uartWidths

/-! ## Instructions that access memory (R64 to R70, R264) -/

/-- The byte of RAM at `a + k`. -/
def byteAt (s : State) (a : Word) (k : Nat) : Byte := Mem.read s.mem (a.toNat + k)

/-- The word RAM holds at `a`: the byte at the lowest address is the least significant one (R64). -/
def wordAt (s : State) (a : Word) : Word := byteAt s a 3 ++ byteAt s a 2 ++ byteAt s a 1 ++ byteAt s a 0

/-- `t` has the memory and the devices of `u`, the state an access of this instruction left; one instruction has retired since `s`,
the next one follows it, and every CSR and the privilege are as in `s`. -/
def Follows (s u t : State) : Prop :=
  t.mem = u.mem ∧ t.agg = u.agg ∧ t.uart = u.uart ∧ t.draws = u.draws ∧
  SameCsrs s t ∧ SameControl s t ∧ t.pc = s.pc + 4#32 ∧ Retired s t

/-- The load `i`, whose word is `word`, from `a`: in RAM it gives `value`; refused, it raises the load access fault; where a
device answers a read with `v`, it gives `ext v` and leaves the devices as the read left them. -/
def Loads (word : Word) (i : Instr) (s : State) (rd : Reg) (a : Word) (width : Width) (value : Word) (ext : Word → Word) : Prop :=
  (InRam a (bytesOf width) → Computes word i s rd value (s.pc + 4#32)) ∧
  (Refused s .read a width → Raises word i s 5#32 a) ∧
  (∀ v u, ¬ InRam a (bytesOf width) → s.memRead a width = some (v, u) →
    ∃ t, exec i s = .next t ∧ RegWritten s t rd (ext v) ∧ Follows s u t ∧ t.resv = s.resv)

/-- The store `i`, whose word is `word`, of the low bytes of `v` at `a`: in RAM they are stored; refused, it raises the store/AMO
access fault; where a device takes the write, it leaves the devices as the write left them. -/
def StoresAt (word : Word) (i : Instr) (s : State) (a : Word) (width : Width) (v : Word) : Prop :=
  (InRam a (bytesOf width) → Stores word i s a.toNat (bytesOf width) v) ∧
  (Refused s .write a width → Raises word i s 7#32 a) ∧
  (∀ u, ¬ InRam a (bytesOf width) → s.memWrite a width v = some u →
    ∃ t, exec i s = .next t ∧ SameRegs s t ∧ Follows s u t ∧ t.resv = s.resv)

/-- The template of R264 for the AMO `i`, whose word is `word`, at `a`: in RAM; where the read is refused; where the read succeeds and
the write is refused (rd is a draw in its value before and the word read, R348); and where a device takes both. -/
def Amos (word : Word) (i : Instr) (s : State) (rd : Reg) (a src : Word) (op : Word → Word → Word) : Prop :=
  decodeWord word = .ok i ∧
  (InRam a 4 →
    ∃ t, exec i s = .next t ∧ RegWritten s t rd (wordAt s a) ∧ Stored s t a.toNat 4 (op (wordAt s a) src) ∧
      t.pc = s.pc + 4#32 ∧ Retired s t ∧ Quiet s t) ∧
  (Refused s .read a .word → ∃ t, exec i s = .next t ∧ Traps s t 5#32 a) ∧
  (∀ v u, s.memRead a .word = some (v, u) → Refused s .write a .word →
    ∃ t, exec i s = .next t ∧ TrapTaken s t 7#32 a s.pc ∧ (SameRegs s t ∨ RegWritten s t rd v) ∧ t.resv = s.resv ∧
      t.mem = u.mem ∧ t.agg = u.agg ∧ t.uart = u.uart) ∧
  (∀ v u u', s.memRead a .word = some (v, u) → u.memWrite a .word (op v src) = some u' →
    ∃ t, exec i s = .next t ∧ RegWritten s t rd v ∧ Follows s u' t ∧ t.resv = s.resv)

/-! ## The UART's register contract (R371, R372) -/

/-- What the 32-bit value `o` of a UART register tells (R372 items 2 and 3): txdata reports a full transmit FIFO in bit 31; rxdata
reports an empty receive FIFO in bit 31, and gives the oldest byte otherwise. Every other bit is free. -/
def UartShows (u : Uart) (r : UartReg) (o : Word) : Prop :=
  (r = .txdata → o.getLsbD 31 = decide (8 ≤ u.tx.length)) ∧
  (r = .rxdata → u.rx = [] → o.getLsbD 31 = true) ∧
  (r = .rxdata → ∀ b rest, u.rx = b :: rest → o.getLsbD 31 = false ∧ o.extractLsb' 0 8 = b)

/-- What an access of the UART leaves besides its FIFOs: only the UART's own pending bit may have changed (R372 item 5), one
instruction has retired, and the rest is as it was. -/
def UartTouched (s t : State) : Prop :=
  t.mem = s.mem ∧ t.agg.served = s.agg.served ∧
  (∀ j, j ≠ s.cfg.uartIrq.val → t.agg.pending.getLsbD j = s.agg.pending.getLsbD j) ∧
  SameCsrs s t ∧ SameControl s t ∧ t.resv = s.resv ∧ t.pc = s.pc + 4#32 ∧ Retired s t

/-- The load `i` from the UART's register `r` at `a`: rd receives the extension of a value the contract allows; a read of rxdata takes the
oldest byte (R372 item 3). -/
def LoadsUart (i : Instr) (s : State) (rd : Reg) (a : Word) (w : Width) (r : UartReg) (ext : Word → Word) : Prop :=
  AtUart s .read a r w →
  ∃ o t, UartShows s.uart r o ∧ exec i s = .next t ∧ RegWritten s t rd (ext o) ∧ t.uart.tx = s.uart.tx ∧
    t.uart.rx = (if r = .rxdata then s.uart.rx.tail else s.uart.rx) ∧ UartTouched s t

/-- The store `i` of `v` to the UART's register `r` at `a`: a write of txdata enqueues the low byte unless the FIFO holds 8 bytes (R372
item 2); no other write changes a FIFO, and a write of the divisor changes nothing (R372 item 4). -/
def StoresUart (i : Instr) (s : State) (a : Word) (w : Width) (r : UartReg) (v : Word) : Prop :=
  AtUart s .write a r w →
  ∃ t, exec i s = .next t ∧ SameRegs s t ∧ t.uart.rx = s.uart.rx ∧
    t.uart.tx = (if r = .txdata ∧ s.uart.tx.length < 8 then s.uart.tx ++ [v.extractLsb' 0 8] else s.uart.tx) ∧
    (r = .baudDivisor → SameDevices s t) ∧ UartTouched s t

/-- The AMO `i` on the claim register at `a`: a claim, then a complete with the computed value (R369). -/
def AmoClaims (i : Instr) (s : State) (rd : Reg) (a src : Word) (op : Word → Word → Word) : Prop :=
  AtClaimRegister s a →
  ∃ t, exec i s = .next t ∧ RegWritten s t rd s.agg.claim.1 ∧
    t.agg = s.agg.claim.2.complete (op s.agg.claim.1 src) ∧ t.uart = s.uart ∧ SameMem s t ∧ SameCsrs s t ∧
    SameControl s t ∧ t.resv = s.resv ∧ t.pc = s.pc + 4#32 ∧ Retired s t

/-! ## The CSRs by their numbers (R27, R300 to R306) -/

/-- The fourteen implemented numbers (R301). -/
def csrNumbers : List CsrNum :=
  [0x300#12, 0x301#12, 0x304#12, 0x305#12, 0x306#12, 0x340#12, 0x341#12, 0x342#12, 0x343#12, 0x344#12,
   0xC00#12, 0xC02#12, 0xC80#12, 0xC82#12]

/-- The access passes the protocol of R300: the number exists (R301), the level is not below its bits [9:8] (R302), below Machine a
counter has its mcounteren bit (R303), and a write is neither to a read-only number (R304) nor to misa (R306). -/
def CsrAllowed (s : State) (c : CsrNum) (write : Prop) : Prop :=
  c ∈ csrNumbers ∧ (c.extractLsb' 8 2).toNat ≤ (privCode s.priv).toNat ∧
  (s.priv ≠ .machine → c = 0xC00#12 ∨ c = 0xC80#12 → s.mcounteren.getLsbD 0 = true) ∧
  (s.priv ≠ .machine → c = 0xC02#12 ∨ c = 0xC82#12 → s.mcounteren.getLsbD 2 = true) ∧
  (write → c.extractLsb' 10 2 ≠ 0b11#2 ∧ c ≠ 0x301#12)

/-- What a read of a CSR shows (R305). -/
def csrShown (s : State) (c : CsrNum) : Word :=
  if c = 0x300#12 then
    0#19 ++ s.mstatus.extractLsb' 11 2 ++ 0#3 ++ s.mstatus.extractLsb' 7 1 ++ 0#3 ++ s.mstatus.extractLsb' 3 1 ++ 0#3
  else if c = 0x301#12 then s.cfg.misa
  else if c = 0x304#12 then s.mie &&& 0x00000888#32
  else if c = 0x305#12 then s.mtvec
  else if c = 0x306#12 then s.mcounteren
  else if c = 0x340#12 then s.mscratch
  else if c = 0x341#12 then s.mepc
  else if c = 0x342#12 then s.mcause
  else if c = 0x343#12 then s.mtval
  else if c = 0x344#12 then (if s.agg.pending = 0#32 then 0#32 else 0x00000800#32)
  else if c = 0xC00#12 then s.cycle.extractLsb' 0 32
  else if c = 0xC80#12 then s.cycle.extractLsb' 32 32
  else if c = 0xC02#12 then s.instret.extractLsb' 0 32
  else s.instret.extractLsb' 32 32

/-- What a write of `v` to a CSR leaves in all of them (R306): mip ignores it, and every CSR but the one named is as it was. -/
def CsrWritten (s t : State) (c : CsrNum) (v : Word) : Prop :=
  t.mstatus = (if c = 0x300#12 then v &&& 0x00001888#32 else s.mstatus) ∧
  t.mie = (if c = 0x304#12 then v &&& 0x00000888#32 else s.mie) ∧
  t.mtvec = (if c = 0x305#12 then v else s.mtvec) ∧
  t.mcounteren = (if c = 0x306#12 then v else s.mcounteren) ∧
  t.mscratch = (if c = 0x340#12 then v else s.mscratch) ∧
  t.mepc = (if c = 0x341#12 then v else s.mepc) ∧
  t.mcause = (if c = 0x342#12 then v else s.mcause) ∧
  t.mtval = (if c = 0x343#12 then v else s.mtval)

/-- The CSR instruction `i`, whose word is `word`, with a write attempted exactly when `write` holds (R307): allowed, rd receives what
the CSR showed and the CSR `new`, if a write was attempted; else it raises illegal instruction with its word (R342), rd
being a draw in its value before and misa where a write of misa was what failed (R306, R348). -/
def AccessesCsr (word : Word) (i : Instr) (s : State) (rd : Reg) (c : CsrNum) (write : Prop) (new : Word) : Prop :=
  decodeWord word = .ok i ∧
  (CsrAllowed s c write →
    ∃ t, exec i s = .next t ∧ RegWritten s t rd (csrShown s c) ∧
      (write → CsrWritten s t c new) ∧ (¬ write → SameCsrs s t) ∧
      t.pc = s.pc + 4#32 ∧ Retired s t ∧ SameMem s t ∧ SameDevices s t ∧ SameControl s t ∧ t.resv = s.resv) ∧
  (¬ CsrAllowed s c write →
    ∃ t, exec i s = .next t ∧ TrapTaken s t 2#32 word s.pc ∧
      (SameRegs s t ∨ (c = 0x301#12 ∧ write ∧ s.priv = .machine ∧ RegWritten s t rd s.cfg.misa)) ∧
      t.resv = s.resv ∧ SameMem s t ∧ t.agg = s.agg ∧ t.uart = s.uart)

/-! ## Which instructions write what -/

/-- The address and the number of bytes an instruction stores to, if it completes (R180, R264, R266). -/
def storeTarget (s : State) : Instr → Option (Word × Nat)
  | .sb rs1 _ imm => some (s.getReg rs1 + imm12 imm, 1)
  | .sh rs1 _ imm => some (s.getReg rs1 + imm12 imm, 2)
  | .sw rs1 _ imm => some (s.getReg rs1 + imm12 imm, 4)
  | .scW _ rs1 _ _ _ => some (s.getReg rs1, 4)
  | .amoswapW _ rs1 _ _ _ => some (s.getReg rs1, 4)
  | .amoaddW _ rs1 _ _ _ => some (s.getReg rs1, 4)
  | .amoxorW _ rs1 _ _ _ => some (s.getReg rs1, 4)
  | .amoandW _ rs1 _ _ _ => some (s.getReg rs1, 4)
  | .amoorW _ rs1 _ _ _ => some (s.getReg rs1, 4)
  | .amominW _ rs1 _ _ _ => some (s.getReg rs1, 4)
  | .amomaxW _ rs1 _ _ _ => some (s.getReg rs1, 4)
  | .amominuW _ rs1 _ _ _ => some (s.getReg rs1, 4)
  | .amomaxuW _ rs1 _ _ _ => some (s.getReg rs1, 4)
  | _ => none

/-- The CSR number a CSR instruction names (R108). -/
def csrOperand : Instr → Option CsrNum
  | .csrrw _ _ c => some c
  | .csrrs _ _ c => some c
  | .csrrc _ _ c => some c
  | .csrrwi _ _ c => some c
  | .csrrsi _ _ c => some c
  | .csrrci _ _ c => some c
  | _ => none

/-! ## Steps -/

/-- The word at pc, as `Fetch` composes it (R65, R71). -/
def wordAtPc (s : State) : Word := wordAt s s.pc

/-- The engine is running and a batch is in progress: the next step executes an instruction (R358). -/
def InBatch (s : State) : Prop := s.engine = .running ∧ s.batchLeft ≠ 0

/-- The engine is running and no batch is in progress: the next step is a host move (R408). -/
def BetweenBatches (s : State) : Prop := s.engine = .running ∧ s.batchLeft = 0

/-- An interrupt is pending and enabled (R350, R351): mstatus.MIE (bit 3), mie.MEIE (bit 11) and the aggregator's output. -/
abbrev InterruptReady (s : State) : Prop := s.mstatus.getLsbD 3 = true ∧ s.mie.getLsbD 11 = true ∧ s.agg.pending ≠ 0#32

/-- The next step executes an instruction (or fails to fetch one), in the state given: the state itself inside a batch, and at a batch
start with no interrupt ready the state with the move `run(n)` taken from the host's list, k = 0 and the budget set (R358, R41).
MODEL'S CHOICE: a batch start is one step with its first instruction (log entry 4), and a host that lists no move runs a
batch with budget 1 (log entry 3). -/
inductive Entered (s : State) : State → Prop where
  | inside (hb : InBatch s) : Entered s s
  | starts (n : Nat) (r : List HostMove) (hb : BetweenBatches s) (hh : s.host = .run n :: r) (hn : n ≠ 0)
      (hi : ¬ InterruptReady s) : Entered s { s with host := r, batchRetired := 0, batchLeft := n }
  | alone (hb : BetweenBatches s) (hh : s.host = []) (hi : ¬ InterruptReady s) :
      Entered s { s with batchRetired := 0, batchLeft := 1 }

/-! ## The invariant -/

/-- What a counter will show when the running batch ends (R359): a PER_BATCH counter lags by the batch's count. -/
def settledCounter (v : Visibility) (k : Nat) (c : BitVec 64) : BitVec 64 :=
  match v with
  | .perInstruction => c
  | .perBatch => c + BitVec.ofNat 64 k

/-- The invariant of the machine, from reset on. -/
structure Inv (s : State) : Prop where
  /-- Memory is in canonical form. -/
  memWf : Mem.wf s.mem
  /-- Only RAM is listed (R61). -/
  memInRam : Mem.inRam s.mem
  /-- The bits of mstatus outside its mask are hard-wired zero (R28). -/
  mstatusMasked : s.mstatus &&& 0x00001888#32 = s.mstatus
  /-- The bits of mie outside its mask are hard-wired zero (R30). -/
  mieMasked : s.mie &&& 0x00000888#32 = s.mie
  /-- "Sources with no device attached stay 0" (R364): only the UART's source can be pending. -/
  onlyUartPending : ∀ i : Fin 32, i ≠ s.cfg.uartIrq → s.agg.pending.getLsbD i = false
  /-- The transmit FIFO holds at most 8 bytes (R372 item 2). -/
  txBounded : s.uart.tx.length ≤ 8
  /-- The aggregator and the UART stand in distinct slots (R8, D3). -/
  cfgWf : s.cfg.wf
  /-- Between steps the engine is Running with no pending exception (R24). -/
  running : s.engine = .running
  /-- Between batches k is 0 (R41). -/
  idle : s.batchLeft = 0 → s.batchRetired = 0
  /-- "the two are always equal when both reset to 0" (R26, the spec's own inference), once the batch's count is settled. -/
  countersAgree :
    settledCounter s.cfg.cycleVisibility s.batchRetired s.cycle =
      settledCounter s.cfg.instretVisibility s.batchRetired s.instret

end Sys2Proof.Machine
end

