-- ==== Sys2Proof/Certificates/Slice0/Obligations.lean ====
section
/-! DEFINITION. The statements for the provers, each a proposition about the machine over all its states and operands. A docstring names
the rules of spec/ a statement formalises, and the log entries where it rests on a choice of the model. -/

section

open Sys2Proof Sys2Proof.Machine

/-- R100 to R117, R120: every well-formed instruction is what its word decodes to, with every operand at every value. -/
def Obligations.DecodeEncodeRoundTrip : Prop :=
  ∀ i : Instr, i.wellFormed = true → decodeWord (encode i) = .ok i

/-- R120: a word that decodes is the word of exactly the instruction it decodes to: no bit of an accepted word is lost. -/
def Obligations.EncodeDecodeRoundTrip : Prop :=
  ∀ (w : Word) (i : Instr), decodeWord w = .ok i → encode i = w ∧ i.wellFormed = true

/-- R120: a word is an instruction of a row exactly when it matches the row's mask and pattern in spec/opcode_table.json; so no word
matches two rows, and a word that matches none is refused. -/
def Obligations.DecoderIsTheOpcodeTable : Prop :=
  (∀ (w : Word) (i : Instr), decodeWord w = .ok i → w &&& (tableRow i).mask = (tableRow i).pattern) ∧
  (∀ (w : Word) (i : Instr), w &&& (tableRow i).mask = (tableRow i).pattern →
    ∃ j, decodeWord w = .ok j ∧ tableRow j = tableRow i)

/-- A few of the words the instruction rules give as examples (R140, R142, R143, R161, R183, R188, R209, R222, R245, R266, R290, R312,
R316) decode to the instructions they stand for. -/
def Obligations.SpecWordsDecode : Prop :=
  decodeWord 0x123452B7#32 = .ok (.lui 5#5 0x12345#20) ∧
  decodeWord 0x008000EF#32 = .ok (.jal 1#5 8#21) ∧
  decodeWord 0x002280E7#32 = .ok (.jalr 1#5 5#5 2#12) ∧
  decodeWord 0x00208863#32 = .ok (.beq 1#5 2#5 16#13) ∧
  decodeWord 0x0002A303#32 = .ok (.lw 6#5 5#5 0#12) ∧
  decodeWord 0xFE62AE23#32 = .ok (.sw 5#5 6#5 0xFFC#12) ∧
  decodeWord 0x40435293#32 = .ok (.srai 5#5 6#5 4#5) ∧
  decodeWord 0x407302B3#32 = .ok (.sub 5#5 6#5 7#5) ∧
  decodeWord 0x027342B3#32 = .ok (.div 5#5 6#5 7#5) ∧
  decodeWord 0x188323AF#32 = .ok (.scW 7#5 6#5 8#5 0#1 0#1) ∧
  decodeWord 0x0FF0000F#32 = .ok (.fence 0#5 0#5 0#4 0xF#4 0xF#4) ∧
  decodeWord 0x300462F3#32 = .ok (.csrrsi 5#5 8#5 0x300#12) ∧
  decodeWord 0x30200073#32 = .ok .mret ∧
  decodeWord 0x00000000#32 = .error .badOpcode ∧
  decodeWord 0xFFFFFFFF#32 = .error .badOpcode

/-- R358: when the word at pc decodes, the step executes that instruction: in a batch from the state itself; at a batch start with no
interrupt ready, from the state with k = 0 and the budget set. MODEL'S CHOICE (log entries 3 and 4): a batch start is one step
with its first instruction, and a host that lists no move runs a batch with budget 1. -/
def Obligations.StepRunsDecodedInstruction : Prop :=
  (∀ (s : State) (i : Instr), InBatch s → InRam s.pc 4 → decodeWord (wordAtPc s) = .ok i → step s = exec i s) ∧
  (∀ (s : State) (i : Instr) (n : Nat) (r : List HostMove), BetweenBatches s → s.host = .run n :: r → n ≠ 0 →
    ¬ InterruptReady s → InRam s.pc 4 → decodeWord (wordAtPc s) = .ok i →
    step s = exec i { s with host := r, batchRetired := 0, batchLeft := n }) ∧
  (∀ (s : State) (i : Instr), BetweenBatches s → s.host = [] →
    ¬ InterruptReady s → InRam s.pc 4 → decodeWord (wordAtPc s) = .ok i →
    step s = exec i { s with batchRetired := 0, batchLeft := 1 })

/-- R118, R342: executing a word that matches no row of the opcode table, inside a batch or as the first of one, raises illegal instruction
with the word as its trap value; the all-zero and the all-ones word are such words. MODEL'S CHOICE (log entries 3 and 4), in Entered: a
batch start is one step with its first instruction, and a host that lists no move runs a batch with budget 1. -/
def Obligations.IllegalWordsTrap : Prop :=
  (∀ s u : State, Entered s u → InRam s.pc 4 →
    (∀ i : Instr, wordAtPc s &&& (tableRow i).mask ≠ (tableRow i).pattern) →
    ∃ t, step s = .next t ∧ Traps u t 2#32 (wordAtPc s)) ∧
  (∀ i : Instr, 0x00000000#32 &&& (tableRow i).mask ≠ (tableRow i).pattern) ∧
  (∀ i : Instr, 0xFFFFFFFF#32 &&& (tableRow i).mask ≠ (tableRow i).pattern)

/-- R341, R71: a pc whose four bytes are not all in RAM, inside a batch or at the start of one, raises the instruction access fault with pc as
its trap value. MODEL'S CHOICE (log entries 3 and 4), in Entered: a batch start is one step with its first instruction, and a host that lists
no move runs a batch with budget 1. -/
def Obligations.FetchOutsideRamTraps : Prop :=
  ∀ s u : State, Entered s u → ¬ InRam s.pc 4 → ∃ t, step s = .next t ∧ Traps u t 1#32 s.pc

/-- R350, R352: at a batch start, MIE = 1 and mie & mip not 0 take the interrupt of the lowest set bit before any instruction,
in every mode and for every budget; otherwise none is taken (a budget of 0 then executes nothing); inside a batch none is taken.
MODEL'S CHOICE: where none is taken, the batch start is one step with its first instruction (log entry 4), and a host that lists no move
starts a batch with budget 1 (log entry 3). -/
def Obligations.InterruptsAreSampledAtBatchStart : Prop :=
  (∀ (s : State) (n : Nat) (r : List HostMove), BetweenBatches s → s.host = .run n :: r ∨ (s.host = [] ∧ r = []) →
    s.mstatus.getLsbD 3 = true → s.mie &&& s.mip ≠ 0#32 →
    ∃ t l, step s = .next t ∧ (s.mie &&& s.mip).getLsbD l = true ∧ (∀ j, j < l → (s.mie &&& s.mip).getLsbD j = false) ∧
      TrapTaken { s with host := r } t (0x80000000#32 ||| BitVec.ofNat 32 l) 0#32
        (s.pc + if s.cfg.intrMepcPlus4 then 4#32 else 0#32) ∧
      SameRegs s t ∧ t.resv = s.resv ∧ SameMem s t ∧ SameDevices s t) ∧
  (∀ (s : State) (r : List HostMove), BetweenBatches s → s.host = .run 0 :: r →
    ¬ (s.mstatus.getLsbD 3 = true ∧ s.mie &&& s.mip ≠ 0#32) → step s = .next { s with host := r }) ∧
  (∀ (s : State) (n : Nat) (r : List HostMove) (i : Instr), BetweenBatches s →
    (s.host = .run n :: r ∧ n ≠ 0) ∨ (s.host = [] ∧ r = [] ∧ n = 1) →
    ¬ (s.mstatus.getLsbD 3 = true ∧ s.mie &&& s.mip ≠ 0#32) → InRam s.pc 4 → decodeWord (wordAtPc s) = .ok i →
    step s = exec i { s with host := r, batchRetired := 0, batchLeft := n }) ∧
  (∀ (s : State) (i : Instr), InBatch s → s.mstatus.getLsbD 3 = true → s.mie &&& s.mip ≠ 0#32 → InRam s.pc 4 →
    decodeWord (wordAtPc s) = .ok i → step s = exec i s)

/-- R354: what taking any trap saves, sets and leaves, for every cause and trap value, and the numbers of R340. -/
def Obligations.TrapEntry : Prop :=
  (∀ (s : State) (c : Cause) (v : Word), (∀ l, c ≠ .interrupt l) → Traps s (s.raise c v) (causeCode c) v) ∧
  (∀ (s : State) (l : Nat) (v : Word),
    TrapTaken s (s.raise (.interrupt l) v) (0x80000000#32 ||| BitVec.ofNat 32 l) v
      (s.pc + if s.cfg.intrMepcPlus4 then 4#32 else 0#32) ∧
    SameRegs s (s.raise (.interrupt l) v) ∧ (s.raise (.interrupt l) v).resv = s.resv ∧
    SameMem s (s.raise (.interrupt l) v) ∧ SameDevices s (s.raise (.interrupt l) v)) ∧
  causeCode .instrAccessFault = 1#32 ∧ causeCode .illegalInstr = 2#32 ∧ causeCode .breakpoint = 3#32 ∧
  causeCode .loadAccessFault = 5#32 ∧ causeCode .storeAccessFault = 7#32 ∧ causeCode (.envCall .user) = 8#32 ∧
  causeCode (.envCall .supervisor) = 9#32 ∧ causeCode (.envCall .machine) = 11#32 ∧
  causeCode (.interrupt 11) = 0x8000000B#32

/-- R357 (the spec's own inference): after any trap, an MRET by a handler that changed neither mstatus nor mepc gives back the
privilege and MIE, sets MPIE, clears MPP and goes to mepc. -/
def Obligations.TrapThenReturn : Prop :=
  ∀ (s t : State) (c : Cause) (v : Word), t.priv = .machine → t.mstatus = (s.raise c v).mstatus →
    t.mepc = (s.raise c v).mepc →
    ∃ u, exec .mret t = .next u ∧ u.priv = s.priv ∧ statusMie u.mstatus = statusMie s.mstatus ∧
      statusMpie u.mstatus = true ∧ statusMpp u.mstatus = 0#2 ∧ u.pc = (s.raise c v).mepc

/-- R358, R316: every instruction in every state gives a next state, but MRET in Machine mode with MPP = 2 in a machine whose
MPP2_PRIV is not given, which is refused by that name (MODEL'S CHOICE, log entry 10). -/
def Obligations.ExecAlwaysGoesOn : Prop :=
  ∀ (i : Instr) (s : State),
    (∃ t, exec i s = .next t) ∨
    (i = .mret ∧ s.priv = .machine ∧ statusMpp s.mstatus = 2#2 ∧ s.cfg.mpp2Priv = none ∧
      exec i s = .refused .mppReserved)

/-- R358, R359: a step inside a batch retires one instruction and takes one from the budget, or takes a trap and ends the batch; the
counters follow their visibilities. -/
def Obligations.EveryStepUsesTheBudget : Prop :=
  ∀ s t : State, InBatch s → step s = .next t →
    t.engine = .running ∧
    ((t.batchLeft + 1 = s.batchLeft ∧ Retired s t) ∨
      (t.batchLeft = 0 ∧ t.batchRetired = 0 ∧ t.priv = .machine ∧ t.pc = s.mtvec ∧ t.mepc = s.pc ∧
        t.cycle = trappedCounter s.cfg.cycleVisibility s.batchRetired s.cycle ∧
        t.instret = trappedCounter s.cfg.instretVisibility s.batchRetired s.instret))

/-- R361 (the spec's own inference): a step leaves the privilege as it was, or is a reset, or takes a trap, which enters Machine mode, or executes
MRET, whose word stands at pc, in Machine mode and takes the level MPP names. MODEL'S CHOICE (log entry 10): for MPP = 2, the
level MPP2_PRIV. -/
def Obligations.PrivilegeChangesOnlyByTrapOrMret : Prop :=
  ∀ s t : State, step s = .next t →
    t.priv = s.priv ∨
    (BetweenBatches s ∧ (∃ r, s.host = .reset :: r) ∧ t.priv = .machine) ∨
    (∃ r k c v p, TrapTaken { s with host := r, batchRetired := k } t c v p ∧
      (p = s.pc ∨ (s.cfg.intrMepcPlus4 = true ∧ p = s.pc + 4#32))) ∨
    (s.priv = .machine ∧ InRam s.pc 4 ∧ wordAtPc s = 0x30200073#32 ∧
      (statusMpp s.mstatus = privCode t.priv ∨ (statusMpp s.mstatus = 2#2 ∧ s.cfg.mpp2Priv = some t.priv)))

/-- R263: a step that changes the reservation is a reset, which clears it, or executes LR.W, which sets it to x[rs1], or SC.W, which
clears it. -/
def Obligations.ReservationChangesOnlyByLrScReset : Prop :=
  ∀ s t : State, step s = .next t →
    t.resv = s.resv ∨
    (BetweenBatches s ∧ (∃ r, s.host = .reset :: r) ∧ t.resv = none) ∨
    (InRam s.pc 4 ∧ ∃ rd rs1 aq rl, decodeWord (wordAtPc s) = .ok (.lrW rd rs1 aq rl) ∧ t.resv = some (s.getReg rs1)) ∨
    (InRam s.pc 4 ∧ ∃ rd rs1 rs2 aq rl, decodeWord (wordAtPc s) = .ok (.scW rd rs1 rs2 aq rl) ∧ t.resv = none)

/-- R61, R76: a byte of RAM that a step changes lies in the image a host load copies, or among the bytes of a store, an SC.W or an
AMO that the step executes. -/
def Obligations.RamChangesOnlyByStoresAndLoad : Prop :=
  ∀ (s t : State) (x : Nat), step s = .next t → Mem.read t.mem x ≠ Mem.read s.mem x →
    (BetweenBatches s ∧ ∃ image r, s.host = .load image :: r ∧ 0x1000 ≤ x ∧ x < 0x1000 + image.length) ∨
    (InRam s.pc 4 ∧ ∃ i a n, decodeWord (wordAtPc s) = .ok i ∧ storeTarget s i = some (a, n) ∧
      InRam a n ∧ a.toNat ≤ x ∧ x < a.toNat + n)

/-- R27: mie, mtvec, mcounteren and mscratch change only by a reset, or by a CSR instruction in Machine mode that names the CSR. -/
def Obligations.MachineCsrsChangeOnlyByCsrInstructions : Prop :=
  ∀ s t : State, step s = .next t →
    (BetweenBatches s ∧ ∃ r, s.host = .reset :: r) ∨
    ((t.mie = s.mie ∨ (s.priv = .machine ∧ InRam s.pc 4 ∧
        ∃ i, decodeWord (wordAtPc s) = .ok i ∧ csrOperand i = some 0x304#12)) ∧
     (t.mtvec = s.mtvec ∨ (s.priv = .machine ∧ InRam s.pc 4 ∧
        ∃ i, decodeWord (wordAtPc s) = .ok i ∧ csrOperand i = some 0x305#12)) ∧
     (t.mcounteren = s.mcounteren ∨ (s.priv = .machine ∧ InRam s.pc 4 ∧
        ∃ i, decodeWord (wordAtPc s) = .ok i ∧ csrOperand i = some 0x306#12)) ∧
     (t.mscratch = s.mscratch ∨ (s.priv = .machine ∧ InRam s.pc 4 ∧
        ∃ i, decodeWord (wordAtPc s) = .ok i ∧ csrOperand i = some 0x340#12)))

/-- R360: User and Supervisor behave alike, except for the ECALL cause and the MPP value a trap saves: from two states that differ in
that level only, every other instruction gives states equal in all but the level, where it stays, and MPP, where it traps; ECALL gives states equal in all but
mcause and MPP. -/
def Obligations.UserAndSupervisorAlike : Prop :=
  (∀ (i : Instr) (s : State), i ≠ .ecall → s.priv = .user →
    ∃ t u, exec i s = .next t ∧ exec i { s with priv := .supervisor } = .next u ∧
      { u with priv := t.priv, mstatus := t.mstatus } = t ∧
      ((t.priv = .user ∧ u.priv = .supervisor ∧ u.mstatus = t.mstatus) ∨
        (t.priv = .machine ∧ u.priv = .machine ∧ statusMpp t.mstatus = 0#2 ∧ statusMpp u.mstatus = 1#2 ∧
          statusMpie u.mstatus = statusMpie t.mstatus ∧ statusMie u.mstatus = statusMie t.mstatus ∧
          ∀ j, j ≠ 11 → j ≠ 12 → u.mstatus.getLsbD j = t.mstatus.getLsbD j))) ∧
  (∀ s : State, s.priv = .user →
    ∃ t u, exec .ecall s = .next t ∧ exec .ecall { s with priv := .supervisor } = .next u ∧
      t.mcause = 8#32 ∧ u.mcause = 9#32 ∧ statusMpp t.mstatus = 0#2 ∧ statusMpp u.mstatus = 1#2 ∧
      (∀ j, j ≠ 11 → j ≠ 12 → u.mstatus.getLsbD j = t.mstatus.getLsbD j) ∧
      { u with mcause := t.mcause, mstatus := t.mstatus } = t) ∧
  privCode .user = 0#2 ∧ privCode .supervisor = 1#2 ∧ privCode .machine = 3#2 ∧ State.reset.priv = .machine

/-- R78, R362: an instruction other than ECALL, MRET and the CSR instructions gives, from every level, states equal in all but the level,
where it stays, and MPP, where it traps: MIE, MPIE and every other bit of mstatus are equal. -/
def Obligations.NoMemoryProtection : Prop :=
  ∀ (i : Instr) (s : State) (p : Priv), csrOperand i = none → i ≠ .ecall → i ≠ .mret →
    ∃ t u, exec i s = .next t ∧ exec i { s with priv := p } = .next u ∧
      { u with priv := t.priv, mstatus := t.mstatus } = t ∧
      ((t.priv = s.priv ∧ u.priv = p ∧ u.mstatus = t.mstatus) ∨
        (t.priv = .machine ∧ u.priv = .machine ∧ statusMpp t.mstatus = privCode s.priv ∧ statusMpp u.mstatus = privCode p ∧
          statusMie u.mstatus = statusMie t.mstatus ∧ statusMpie u.mstatus = statusMpie t.mstatus ∧
          ∀ j, j ≠ 11 → j ≠ 12 → u.mstatus.getLsbD j = t.mstatus.getLsbD j))

/-- Every step keeps the invariant: memory canonical and in RAM (R61), mstatus and mie within their masks (R28, R30), only the UART's
source pending (R364), at most 8 bytes to transmit (R372), k = 0 between batches (R41), the two counters equal when settled (R26). -/
def Obligations.StepKeepsInv : Prop :=
  ∀ s t : State, Inv s → step s = .next t → Inv t

/-- The invariant holds at reset. -/
def Obligations.ResetMeetsInv : Prop :=
  Inv State.reset

/-- R359, R26: at a step that is no reset, both counters, with a PER_BATCH counter settled by the batch's count, advance by the same 0 or 1:
1 only where the step retires an instruction, and 0 at a step that executes one only where it traps. The premise is the invariant
of StepKeepsInv. MODEL'S CHOICE (log entries 3 and 4), in Entered: which steps execute an instruction. -/
def Obligations.CountersAdvanceByRetirements : Prop :=
  ∀ s t : State, Inv s → step s = .next t →
    (BetweenBatches s ∧ ∃ r, s.host = .reset :: r) ∨
    ∃ d : Nat, (d = 0 ∨ d = 1) ∧
      settledCounter t.cfg.cycleVisibility t.batchRetired t.cycle =
        settledCounter s.cfg.cycleVisibility s.batchRetired s.cycle + BitVec.ofNat 64 d ∧
      settledCounter t.cfg.instretVisibility t.batchRetired t.instret =
        settledCounter s.cfg.instretVisibility s.batchRetired s.instret + BitVec.ofNat 64 d ∧
      (d = 1 → ∃ u, Entered s u ∧ Retired u t ∧ t.batchLeft + 1 = u.batchLeft) ∧
      (∀ u, Entered s u → d = 0 → t.batchLeft = 0 ∧ ∃ c v, TrapTaken u t c v u.pc)

/-- R42, R400, R402: what State.reset holds in every register, CSR and mask, whatever the OPEN parameters. -/
def Obligations.ResetValues : Prop :=
  (∀ r : Reg, State.reset.getReg r = 0#32) ∧ State.reset.pc = 0x1000#32 ∧ State.reset.priv = .machine ∧
  State.reset.engine = .running ∧ State.reset.resv = none ∧ State.reset.cycle = 0#64 ∧ State.reset.instret = 0#64 ∧
  (∀ c ∈ csrNumbers, c ≠ 0x301#12 → csrShown State.reset c = 0#32) ∧
  csrShown State.reset 0x301#12 = State.reset.cfg.misa ∧
  State.reset.agg.pending = 0#32 ∧ State.reset.agg.served = 0#32

/-- R401, and the values of R400: a reset between batches leaves RAM, the slot table and the wiring, and resets every other item of the
core together. -/
def Obligations.HostReset : Prop :=
  ∀ (s : State) (r : List HostMove), BetweenBatches s → s.host = .reset :: r →
    ∃ t, step s = .next t ∧ t.mem = s.mem ∧ t.cfg = s.cfg ∧ t.host = r ∧
      (∀ q : Reg, t.getReg q = 0#32) ∧ t.pc = 0x1000#32 ∧ t.priv = .machine ∧ t.engine = .running ∧ t.resv = none ∧
      t.cycle = 0#64 ∧ t.instret = 0#64 ∧ t.mstatus = 0#32 ∧ t.mie = 0#32 ∧ t.mtvec = 0#32 ∧ t.mcounteren = 0#32 ∧
      t.mscratch = 0#32 ∧ t.mepc = 0#32 ∧ t.mcause = 0#32 ∧ t.mtval = 0#32 ∧ t.mip = 0#32 ∧
      t.agg.pending = 0#32 ∧ t.agg.served = 0#32 ∧ t.batchLeft = 0 ∧ t.batchRetired = 0

/-- R403: byte i of an image that fits goes to RAM address 0x1000 + i, every other byte and everything else stays, and load commutes
with reset. -/
def Obligations.HostLoad : Prop :=
  (∀ (s : State) (image : List Byte) (r : List HostMove), BetweenBatches s → s.host = .load image :: r →
    0x1000 + image.length ≤ 0xC0000000 →
    ∃ t, step s = .next t ∧ (∀ i (h : i < image.length), Mem.read t.mem (0x1000 + i) = image[i]) ∧
      (∀ x, x < 0x1000 ∨ 0x1000 + image.length ≤ x → Mem.read t.mem x = Mem.read s.mem x) ∧
      { t with mem := s.mem, host := s.host } = s) ∧
  (∀ (s : State) (image : List Byte) (r : List HostMove) (t u : State), BetweenBatches s →
    s.host = .load image :: .reset :: r → step s = .next t → step t = .next u →
    ∃ t', step { s with host := .reset :: .load image :: r } = .next t' ∧ step t' = .next u)

/-- R372 item 5, R408 item 4: injected bytes enter the receive FIFO behind the others and may move the UART's own pending bit; drained
bytes leave the transmit FIFO, oldest first; nothing else changes. MODEL'S CHOICE (log entry 9): the receive FIFO has no bound and a
drain moves no line. -/
def Obligations.HostUartMoves : Prop :=
  (∀ (s : State) (bytes : List Byte) (r : List HostMove), BetweenBatches s → s.host = .inject bytes :: r →
    ∃ t, step s = .next t ∧ t.uart.rx = s.uart.rx ++ bytes ∧ t.uart.tx = s.uart.tx ∧ t.agg.served = s.agg.served ∧
      (∀ j, j ≠ s.cfg.uartIrq.val → t.agg.pending.getLsbD j = s.agg.pending.getLsbD j) ∧
      { t with uart := s.uart, agg := s.agg, draws := s.draws, host := s.host } = s) ∧
  (∀ (s : State) (n : Nat) (r : List HostMove), BetweenBatches s → s.host = .drain n :: r →
    ∃ t, step s = .next t ∧ t.uart.tx = s.uart.tx.drop n ∧ t.uart.rx = s.uart.rx ∧
      { t with uart := s.uart, host := s.host } = s)

/-- R20: x0 reads 0 and discards writes; every other register reads what was last written to it, and a write changes no other
register; every register resets to 0. -/
def Obligations.RegisterFile : Prop :=
  (∀ (s : State) (r : Reg) (v : Word), RegWritten s (s.setReg r v) r v) ∧
  (∀ s : State, s.getReg 0#5 = 0#32) ∧ (∀ (s : State) (v : Word), s.setReg 0#5 v = s) ∧
  (∀ r : Reg, State.reset.getReg r = 0#32)

/-- R140, R141: LUI and AUIPC. -/
def Obligations.UpperImmediates : Prop :=
  ∀ (s : State) (rd : Reg) (imm20 : BitVec 20),
    Computes (imm20 ++ rd ++ 0b0110111#7) (.lui rd imm20) s rd (imm20 ++ 0#12) (s.pc + 4#32) ∧
    Computes (imm20 ++ rd ++ 0b0010111#7) (.auipc rd imm20) s rd (s.pc + (imm20 ++ 0#12)) (s.pc + 4#32)

/-- R142, R143: JAL and JALR link pc + 4 and jump with no alignment check; JALR's target uses the old
rs1 and has bit 0 cleared, and its other funct3 values are illegal. -/
def Obligations.Jumps : Prop :=
  (∀ (s : State) (rd : Reg) (b20 : BitVec 1) (b19 : BitVec 8) (b11 : BitVec 1) (b10 : BitVec 10),
    Computes (b20 ++ b10 ++ b11 ++ b19 ++ rd ++ 0b1101111#7) (.jal rd (b20 ++ b19 ++ b11 ++ b10 ++ 0#1)) s rd
      (s.pc + 4#32) (s.pc + BitVec.ofInt 32 (b20 ++ b19 ++ b11 ++ b10 ++ 0#1 : BitVec 21).toInt)) ∧
  (∀ (s : State) (rd rs1 : Reg) (imm : BitVec 12),
    Computes (imm ++ rs1 ++ 0b000#3 ++ rd ++ 0b1100111#7) (.jalr rd rs1 imm) s rd (s.pc + 4#32)
      ((s.getReg rs1 + BitVec.ofInt 32 imm.toInt).extractLsb' 1 31 ++ 0#1)) ∧
  (∀ (w : Word) (i : Instr), w.extractLsb' 0 7 = 0b1100111#7 → w.extractLsb' 12 3 ≠ 0b000#3 → decodeWord w ≠ .ok i)

/-- R160 to R166: a branch whose condition holds goes to its own address plus the offset, else to pc + 4; it writes only pc; funct3 010 and
011 are illegal. -/
def Obligations.Branches : Prop :=
  (∀ (s : State) (rs1 rs2 : Reg) (b12 b11 : BitVec 1) (b10 : BitVec 6) (b4 : BitVec 4),
    Proceeds (b12 ++ b10 ++ rs2 ++ rs1 ++ 0b000#3 ++ b4 ++ b11 ++ 0b1100011#7)
      (.beq rs1 rs2 (b12 ++ b11 ++ b10 ++ b4 ++ 0#1)) s
      (if s.getReg rs1 = s.getReg rs2 then s.pc + BitVec.ofInt 32 (b12 ++ b11 ++ b10 ++ b4 ++ 0#1 : BitVec 13).toInt else s.pc + 4#32) ∧
    Proceeds (b12 ++ b10 ++ rs2 ++ rs1 ++ 0b001#3 ++ b4 ++ b11 ++ 0b1100011#7)
      (.bne rs1 rs2 (b12 ++ b11 ++ b10 ++ b4 ++ 0#1)) s
      (if s.getReg rs1 ≠ s.getReg rs2 then s.pc + BitVec.ofInt 32 (b12 ++ b11 ++ b10 ++ b4 ++ 0#1 : BitVec 13).toInt else s.pc + 4#32) ∧
    Proceeds (b12 ++ b10 ++ rs2 ++ rs1 ++ 0b100#3 ++ b4 ++ b11 ++ 0b1100011#7)
      (.blt rs1 rs2 (b12 ++ b11 ++ b10 ++ b4 ++ 0#1)) s
      (if (s.getReg rs1).toInt < (s.getReg rs2).toInt then s.pc + BitVec.ofInt 32 (b12 ++ b11 ++ b10 ++ b4 ++ 0#1 : BitVec 13).toInt else s.pc + 4#32) ∧
    Proceeds (b12 ++ b10 ++ rs2 ++ rs1 ++ 0b101#3 ++ b4 ++ b11 ++ 0b1100011#7)
      (.bge rs1 rs2 (b12 ++ b11 ++ b10 ++ b4 ++ 0#1)) s
      (if (s.getReg rs2).toInt ≤ (s.getReg rs1).toInt then s.pc + BitVec.ofInt 32 (b12 ++ b11 ++ b10 ++ b4 ++ 0#1 : BitVec 13).toInt else s.pc + 4#32) ∧
    Proceeds (b12 ++ b10 ++ rs2 ++ rs1 ++ 0b110#3 ++ b4 ++ b11 ++ 0b1100011#7)
      (.bltu rs1 rs2 (b12 ++ b11 ++ b10 ++ b4 ++ 0#1)) s
      (if (s.getReg rs1).toNat < (s.getReg rs2).toNat then s.pc + BitVec.ofInt 32 (b12 ++ b11 ++ b10 ++ b4 ++ 0#1 : BitVec 13).toInt else s.pc + 4#32) ∧
    Proceeds (b12 ++ b10 ++ rs2 ++ rs1 ++ 0b111#3 ++ b4 ++ b11 ++ 0b1100011#7)
      (.bgeu rs1 rs2 (b12 ++ b11 ++ b10 ++ b4 ++ 0#1)) s
      (if (s.getReg rs2).toNat ≤ (s.getReg rs1).toNat then s.pc + BitVec.ofInt 32 (b12 ++ b11 ++ b10 ++ b4 ++ 0#1 : BitVec 13).toInt else s.pc + 4#32)) ∧
  (∀ (w : Word) (i : Instr), w.extractLsb' 0 7 = 0b1100011#7 → w.extractLsb' 12 3 = 0b010#3 ∨ w.extractLsb' 12 3 = 0b011#3 →
    decodeWord w ≠ .ok i)

/-- R181 to R185: the five loads at x[rs1] + immI, from RAM at any alignment, refused, and from a device. -/
def Obligations.LoadInstructions : Prop :=
  ∀ (s : State) (rd rs1 : Reg) (imm : BitVec 12) (a : Word), a = s.getReg rs1 + BitVec.ofInt 32 imm.toInt →
    Loads (imm ++ rs1 ++ 0b000#3 ++ rd ++ 0b0000011#7) (.lb rd rs1 imm) s rd a .byte
      ((byteAt s a 0).signExtend 32) (fun v => (v.extractLsb' 0 8).signExtend 32) ∧
    Loads (imm ++ rs1 ++ 0b001#3 ++ rd ++ 0b0000011#7) (.lh rd rs1 imm) s rd a .half
      ((byteAt s a 1 ++ byteAt s a 0).signExtend 32) (fun v => (v.extractLsb' 0 16).signExtend 32) ∧
    Loads (imm ++ rs1 ++ 0b010#3 ++ rd ++ 0b0000011#7) (.lw rd rs1 imm) s rd a .word
      (byteAt s a 3 ++ byteAt s a 2 ++ byteAt s a 1 ++ byteAt s a 0) (fun v => v) ∧
    Loads (imm ++ rs1 ++ 0b100#3 ++ rd ++ 0b0000011#7) (.lbu rd rs1 imm) s rd a .byte
      (0#24 ++ byteAt s a 0) (fun v => 0#24 ++ v.extractLsb' 0 8) ∧
    Loads (imm ++ rs1 ++ 0b101#3 ++ rd ++ 0b0000011#7) (.lhu rd rs1 imm) s rd a .half
      (0#16 ++ byteAt s a 1 ++ byteAt s a 0) (fun v => 0#16 ++ v.extractLsb' 0 16)

/-- R186 to R188: the three stores at x[rs1] + immS, to RAM at any alignment, refused, and to a device. -/
def Obligations.StoreInstructions : Prop :=
  ∀ (s : State) (rs1 rs2 : Reg) (hi : BitVec 7) (lo : BitVec 5) (a : Word),
    a = s.getReg rs1 + BitVec.ofInt 32 (hi ++ lo : BitVec 12).toInt →
    StoresAt (hi ++ rs2 ++ rs1 ++ 0b000#3 ++ lo ++ 0b0100011#7) (.sb rs1 rs2 (hi ++ lo)) s a .byte (s.getReg rs2) ∧
    StoresAt (hi ++ rs2 ++ rs1 ++ 0b001#3 ++ lo ++ 0b0100011#7) (.sh rs1 rs2 (hi ++ lo)) s a .half (s.getReg rs2) ∧
    StoresAt (hi ++ rs2 ++ rs1 ++ 0b010#3 ++ lo ++ 0b0100011#7) (.sw rs1 rs2 (hi ++ lo)) s a .word (s.getReg rs2)

/-- R65, R66: an access wholly in RAM succeeds; a read gives the sum of its bytes times 2^(8i) and changes nothing, a write stores the
low bytes, lowest first, and changes nothing else. -/
def Obligations.RamReadsAndWrites : Prop :=
  ∀ (s : State) (a v : Word) (w : Width), InRam a (bytesOf w) →
    (∃ x, s.memRead a w = some (x, s) ∧
      x.toNat = ((List.range (bytesOf w)).map (fun i => (byteAt s a i).toNat * 2 ^ (8 * i))).sum) ∧
    (∃ u, s.memWrite a w v = some u ∧ Stored s u a.toNat (bytesOf w) v ∧ { u with mem := s.mem } = s)

/-- R63, R67 to R70, R344, R345: an access fails exactly where it is not wholly in RAM and not wholly in one slot, or its slot
holds no device, or the device refuses the register or the width. -/
def Obligations.AccessesFailExactlyWhereRefused : Prop :=
  ∀ (s : State) (a : Word) (w : Width),
    (s.memRead a w = none ↔ Refused s .read a w) ∧ (∀ v, s.memWrite a w v = none ↔ Refused s .write a w)

/-- R62 (the spec's own inference): addresses of the device region with the same bits 27:0 reach the same device register. -/
def Obligations.DeviceAliases : Prop :=
  ∀ (s : State) (a b v : Word) (w : Width), 0xC0000000 ≤ a.toNat → 0xC0000000 ≤ b.toNat →
    a.extractLsb' 0 28 = b.extractLsb' 0 28 → ¬ InRam a (bytesOf w) ∧
      s.memRead a w = s.memRead b w ∧ s.memWrite a w v = s.memWrite b w v

/-- R64: memory is little-endian for data and for fetch: after a word is written, every narrower access at an offset sees the
corresponding bytes, and a fetch sees the word. -/
def Obligations.ByteOrder : Prop :=
  ∀ (s : State) (a v : Word), InRam a 4 →
    ∃ u, s.memWrite a .word v = some u ∧
      u.memRead a .word = some (v, u) ∧
      u.memRead a .byte = some (0#24 ++ v.extractLsb' 0 8, u) ∧
      u.memRead (a + 1#32) .byte = some (0#24 ++ v.extractLsb' 8 8, u) ∧
      u.memRead (a + 2#32) .byte = some (0#24 ++ v.extractLsb' 16 8, u) ∧
      u.memRead (a + 3#32) .byte = some (0#24 ++ v.extractLsb' 24 8, u) ∧
      u.memRead a .half = some (0#16 ++ v.extractLsb' 0 16, u) ∧
      u.memRead (a + 1#32) .half = some (0#16 ++ v.extractLsb' 8 16, u) ∧
      u.memRead (a + 2#32) .half = some (0#16 ++ v.extractLsb' 16 16, u) ∧
      u.fetch a = some v

/-- R77 (the spec's own inference), R409: a word stored over the next instruction is what the next step executes. -/
def Obligations.StoresAreSeenByTheNextFetch : Prop :=
  ∀ (s t : State) (rs1 rs2 : Reg) (imm : BitVec 12) (i : Instr),
    s.engine = .running → 1 < s.batchLeft → s.getReg rs1 + BitVec.ofInt 32 imm.toInt = s.pc + 4#32 →
    InRam (s.pc + 4#32) 4 → decodeWord (s.getReg rs2) = .ok i → exec (.sw rs1 rs2 imm) s = .next t →
    step t = exec i t

/-- R367: a 32-bit read of the claim register, at its address and its aliases, gives the number of the lowest pending, unserved source
and marks it served, or gives 0 and changes nothing; it changes nothing else. -/
def Obligations.ClaimRegister : Prop :=
  (∀ s : State, AtClaimRegister s (0xC0000004#32 ||| (s.cfg.aggSlot.zeroExtend 32 <<< 24))) ∧
  (∀ (s : State) (a : Word), AtClaimRegister s a →
    (s.agg.pending &&& ~~~s.agg.served = 0#32 → s.memRead a .word = some (0#32, s)) ∧
    (∀ l : Nat, l < 32 → s.agg.pending.getLsbD l = true → s.agg.served.getLsbD l = false →
      (∀ j, j < l → s.agg.pending.getLsbD j = true → s.agg.served.getLsbD j = true) →
      ∃ u, s.memRead a .word = some (BitVec.ofNat 32 (l + 1), u) ∧ u.agg.pending = s.agg.pending ∧
        (∀ j, u.agg.served.getLsbD j = (decide (j = l) || s.agg.served.getLsbD j)) ∧ { u with agg := s.agg } = s)) ∧
  (∀ (s u : State) (rd rs1 : Reg) (imm : BitVec 12) (v : Word),
    AtClaimRegister s (s.getReg rs1 + BitVec.ofInt 32 imm.toInt) →
    s.memRead (s.getReg rs1 + BitVec.ofInt 32 imm.toInt) .word = some (v, u) →
    ∃ t, exec (.lw rd rs1 imm) s = .next t ∧ RegWritten s t rd v ∧ Follows s u t ∧ t.resv = s.resv)

/-- R368: a 32-bit write of an id 1 to 32 at the claim register clears that source's served bit; any other value changes nothing; both
succeed and change nothing else. -/
def Obligations.CompleteRegister : Prop :=
  (∀ (s : State) (a v : Word), AtClaimRegister s a →
    ∃ u, s.memWrite a .word v = some u ∧ u.agg.pending = s.agg.pending ∧
      (∀ j, u.agg.served.getLsbD j = if j + 1 = v.toNat ∧ j < 32 then false else s.agg.served.getLsbD j) ∧
      { u with agg := s.agg } = s) ∧
  (∀ (s u : State) (rs1 rs2 : Reg) (imm : BitVec 12),
    AtClaimRegister s (s.getReg rs1 + BitVec.ofInt 32 imm.toInt) →
    s.memWrite (s.getReg rs1 + BitVec.ofInt 32 imm.toInt) .word (s.getReg rs2) = some u →
    ∃ t, exec (.sw rs1 rs2 imm) s = .next t ∧ SameRegs s t ∧ Follows s u t ∧ t.resv = s.resv)

/-- R369: at the aggregator every 8- and 16-bit access and every register but 0x000004 raises the access fault of its kind; an AMO on the
claim register claims, then completes with the computed value. -/
def Obligations.AggregatorRegisterMap : Prop :=
  (∀ (s : State) (a v : Word) (w : Width), 0xC0000000 ≤ a.toNat → slotOf a = s.cfg.aggSlot → ¬ (regNoOf a = 4#24 ∧ w = .word) →
    s.memRead a w = none ∧ s.memWrite a w v = none) ∧
  (∀ (s : State) (rd rs1 rs2 : Reg) (imm : BitVec 12) (a : Word), a = s.getReg rs1 + BitVec.ofInt 32 imm.toInt →
    0xC0000000 ≤ a.toNat → slotOf a = s.cfg.aggSlot →
    (∃ t, exec (.lb rd rs1 imm) s = .next t ∧ Traps s t 5#32 a) ∧ (∃ t, exec (.lbu rd rs1 imm) s = .next t ∧ Traps s t 5#32 a) ∧
    (∃ t, exec (.lh rd rs1 imm) s = .next t ∧ Traps s t 5#32 a) ∧ (∃ t, exec (.lhu rd rs1 imm) s = .next t ∧ Traps s t 5#32 a) ∧
    (∃ t, exec (.sb rs1 rs2 imm) s = .next t ∧ Traps s t 7#32 a) ∧ (∃ t, exec (.sh rs1 rs2 imm) s = .next t ∧ Traps s t 7#32 a) ∧
    (regNoOf a ≠ 4#24 →
      (∃ t, exec (.lw rd rs1 imm) s = .next t ∧ Traps s t 5#32 a) ∧ (∃ t, exec (.sw rs1 rs2 imm) s = .next t ∧ Traps s t 7#32 a))) ∧
  (∀ (s : State) (rd rs1 rs2 : Reg) (aq rl : BitVec 1) (a src : Word), a = s.getReg rs1 → src = s.getReg rs2 →
    AmoClaims (.amoswapW rd rs1 rs2 aq rl) s rd a src (fun _ src => src) ∧
    AmoClaims (.amoaddW rd rs1 rs2 aq rl) s rd a src (fun old src => BitVec.ofNat 32 (old.toNat + src.toNat)) ∧
    AmoClaims (.amoxorW rd rs1 rs2 aq rl) s rd a src (fun old src => old ^^^ src) ∧
    AmoClaims (.amoandW rd rs1 rs2 aq rl) s rd a src (fun old src => old &&& src) ∧
    AmoClaims (.amoorW rd rs1 rs2 aq rl) s rd a src (fun old src => old ||| src) ∧
    AmoClaims (.amominW rd rs1 rs2 aq rl) s rd a src (fun old src => if old.toInt < src.toInt then old else src) ∧
    AmoClaims (.amomaxW rd rs1 rs2 aq rl) s rd a src (fun old src => if old.toInt < src.toInt then src else old) ∧
    AmoClaims (.amominuW rd rs1 rs2 aq rl) s rd a src (fun old src => if old.toNat < src.toNat then old else src) ∧
    AmoClaims (.amomaxuW rd rs1 rs2 aq rl) s rd a src (fun old src => if old.toNat < src.toNat then src else old))

/-- R364, R366: signal sets the source's pending bit to the level and no other; mip.MEIP is 1 exactly while a bit is pending (R365), and
every other bit of mip is 0. -/
def Obligations.LinesAndOutput : Prop :=
  (∀ (g : Aggregator) (i : Fin 32) (level : Bool),
    (g.signal i level).served = g.served ∧
    ∀ j, (g.signal i level).pending.getLsbD j = if j = i.val then level else g.pending.getLsbD j) ∧
  (∀ (s : State) (j : Nat), s.mip.getLsbD j = (decide (j = 11) && decide (s.agg.pending ≠ 0#32)))

/-- R371, R372 items 1 to 3, 5 and 6: what the five loads receive from the UART and leave in it. MODEL'S READING (log entry 6): a narrow read
gives the low bytes of the 32-bit value. -/
def Obligations.UartLoads : Prop :=
  ∀ (s : State) (rd rs1 : Reg) (imm : BitVec 12) (r : UartReg) (a : Word), a = s.getReg rs1 + BitVec.ofInt 32 imm.toInt →
    LoadsUart (.lb rd rs1 imm) s rd a .byte r (fun v => (v.extractLsb' 0 8).signExtend 32) ∧
    LoadsUart (.lh rd rs1 imm) s rd a .half r (fun v => (v.extractLsb' 0 16).signExtend 32) ∧
    LoadsUart (.lw rd rs1 imm) s rd a .word r (fun v => v) ∧
    LoadsUart (.lbu rd rs1 imm) s rd a .byte r (fun v => 0#24 ++ v.extractLsb' 0 8) ∧
    LoadsUart (.lhu rd rs1 imm) s rd a .half r (fun v => 0#16 ++ v.extractLsb' 0 16)

/-- R371, R372 items 1, 2, 4 and 5: what the three stores leave in the UART; a write of the divisor changes nothing of the devices. MODEL'S READING
(log entry 6): a write of rxdata, txctrl, rxctrl, interrupt-enable or interrupt-pending changes no FIFO. -/
def Obligations.UartStores : Prop :=
  ∀ (s : State) (rs1 rs2 : Reg) (imm : BitVec 12) (r : UartReg) (a : Word), a = s.getReg rs1 + BitVec.ofInt 32 imm.toInt →
    StoresUart (.sb rs1 rs2 imm) s a .byte r (s.getReg rs2) ∧
    StoresUart (.sh rs1 rs2 imm) s a .half r (s.getReg rs2) ∧
    StoresUart (.sw rs1 rs2 imm) s a .word r (s.getReg rs2)

/-- R200 to R209: the nine register-immediate instructions, their results as integers modulo 2^32, and that they change nothing but rd;
a shift with another funct7 is an illegal word. -/
def Obligations.ImmediateArithmetic : Prop :=
  (∀ (s : State) (rd rs1 : Reg) (imm : BitVec 12),
    Computes (imm ++ rs1 ++ 0b000#3 ++ rd ++ 0b0010011#7) (.addi rd rs1 imm) s rd
      (BitVec.ofInt 32 ((s.getReg rs1).toInt + imm.toInt)) (s.pc + 4#32) ∧
    Computes (imm ++ rs1 ++ 0b010#3 ++ rd ++ 0b0010011#7) (.slti rd rs1 imm) s rd
      (if (s.getReg rs1).toInt < imm.toInt then 1#32 else 0#32) (s.pc + 4#32) ∧
    Computes (imm ++ rs1 ++ 0b011#3 ++ rd ++ 0b0010011#7) (.sltiu rd rs1 imm) s rd
      (if (s.getReg rs1).toNat < (BitVec.ofInt 32 imm.toInt).toNat then 1#32 else 0#32) (s.pc + 4#32) ∧
    Computes (imm ++ rs1 ++ 0b100#3 ++ rd ++ 0b0010011#7) (.xori rd rs1 imm) s rd
      (s.getReg rs1 ^^^ (BitVec.ofInt 32 imm.toInt)) (s.pc + 4#32) ∧
    Computes (imm ++ rs1 ++ 0b110#3 ++ rd ++ 0b0010011#7) (.ori rd rs1 imm) s rd
      (s.getReg rs1 ||| (BitVec.ofInt 32 imm.toInt)) (s.pc + 4#32) ∧
    Computes (imm ++ rs1 ++ 0b111#3 ++ rd ++ 0b0010011#7) (.andi rd rs1 imm) s rd
      (s.getReg rs1 &&& (BitVec.ofInt 32 imm.toInt)) (s.pc + 4#32)) ∧
  (∀ (s : State) (rd rs1 : Reg) (shamt : BitVec 5),
    Computes (0b0000000#7 ++ shamt ++ rs1 ++ 0b001#3 ++ rd ++ 0b0010011#7) (.slli rd rs1 shamt) s rd
      (BitVec.ofNat 32 ((s.getReg rs1).toNat * 2 ^ shamt.toNat)) (s.pc + 4#32) ∧
    Computes (0b0000000#7 ++ shamt ++ rs1 ++ 0b101#3 ++ rd ++ 0b0010011#7) (.srli rd rs1 shamt) s rd
      (BitVec.ofNat 32 ((s.getReg rs1).toNat / 2 ^ shamt.toNat)) (s.pc + 4#32) ∧
    Computes (0b0100000#7 ++ shamt ++ rs1 ++ 0b101#3 ++ rd ++ 0b0010011#7) (.srai rd rs1 shamt) s rd
      (BitVec.ofInt 32 ((s.getReg rs1).toInt / 2 ^ shamt.toNat)) (s.pc + 4#32)) ∧
  (∀ (w : Word) (i : Instr), w.extractLsb' 0 7 = 0b0010011#7 →
    (w.extractLsb' 12 3 = 0b001#3 ∧ w.extractLsb' 25 7 ≠ 0b0000000#7) ∨
      (w.extractLsb' 12 3 = 0b101#3 ∧ w.extractLsb' 25 7 ≠ 0b0000000#7 ∧ w.extractLsb' 25 7 ≠ 0b0100000#7) →
    decodeWord w ≠ .ok i)

/-- R220 to R230: the ten register-register instructions, their results as integers modulo 2^32, shift amounts modulo 32, and that they
change nothing but rd. -/
def Obligations.RegisterArithmetic : Prop :=
  ∀ (s : State) (rd rs1 rs2 : Reg),
    Computes (0b0000000#7 ++ rs2 ++ rs1 ++ 0b000#3 ++ rd ++ 0b0110011#7) (.add rd rs1 rs2) s rd
      (BitVec.ofInt 32 ((s.getReg rs1).toInt + (s.getReg rs2).toInt)) (s.pc + 4#32) ∧
    Computes (0b0100000#7 ++ rs2 ++ rs1 ++ 0b000#3 ++ rd ++ 0b0110011#7) (.sub rd rs1 rs2) s rd
      (BitVec.ofInt 32 ((s.getReg rs1).toInt - (s.getReg rs2).toInt)) (s.pc + 4#32) ∧
    Computes (0b0000000#7 ++ rs2 ++ rs1 ++ 0b001#3 ++ rd ++ 0b0110011#7) (.sll rd rs1 rs2) s rd
      (BitVec.ofNat 32 ((s.getReg rs1).toNat * 2 ^ ((s.getReg rs2).toNat % 32))) (s.pc + 4#32) ∧
    Computes (0b0000000#7 ++ rs2 ++ rs1 ++ 0b010#3 ++ rd ++ 0b0110011#7) (.slt rd rs1 rs2) s rd
      (if (s.getReg rs1).toInt < (s.getReg rs2).toInt then 1#32 else 0#32) (s.pc + 4#32) ∧
    Computes (0b0000000#7 ++ rs2 ++ rs1 ++ 0b011#3 ++ rd ++ 0b0110011#7) (.sltu rd rs1 rs2) s rd
      (if (s.getReg rs1).toNat < (s.getReg rs2).toNat then 1#32 else 0#32) (s.pc + 4#32) ∧
    Computes (0b0000000#7 ++ rs2 ++ rs1 ++ 0b100#3 ++ rd ++ 0b0110011#7) (.xor rd rs1 rs2) s rd
      (s.getReg rs1 ^^^ s.getReg rs2) (s.pc + 4#32) ∧
    Computes (0b0000000#7 ++ rs2 ++ rs1 ++ 0b101#3 ++ rd ++ 0b0110011#7) (.srl rd rs1 rs2) s rd
      (BitVec.ofNat 32 ((s.getReg rs1).toNat / 2 ^ ((s.getReg rs2).toNat % 32))) (s.pc + 4#32) ∧
    Computes (0b0100000#7 ++ rs2 ++ rs1 ++ 0b101#3 ++ rd ++ 0b0110011#7) (.sra rd rs1 rs2) s rd
      (BitVec.ofInt 32 ((s.getReg rs1).toInt / 2 ^ ((s.getReg rs2).toNat % 32))) (s.pc + 4#32) ∧
    Computes (0b0000000#7 ++ rs2 ++ rs1 ++ 0b110#3 ++ rd ++ 0b0110011#7) (.or rd rs1 rs2) s rd
      (s.getReg rs1 ||| s.getReg rs2) (s.pc + 4#32) ∧
    Computes (0b0000000#7 ++ rs2 ++ rs1 ++ 0b111#3 ++ rd ++ 0b0110011#7) (.and rd rs1 rs2) s rd
      (s.getReg rs1 &&& s.getReg rs2) (s.pc + 4#32)

/-- R241 to R244: the low half and the three high halves of the 64-bit product. -/
def Obligations.Multiplication : Prop :=
  ∀ (s : State) (rd rs1 rs2 : Reg),
    Computes (0b0000001#7 ++ rs2 ++ rs1 ++ 0b000#3 ++ rd ++ 0b0110011#7) (.mul rd rs1 rs2) s rd
      (s.getReg rs1 * s.getReg rs2) (s.pc + 4#32) ∧
    Computes (0b0000001#7 ++ rs2 ++ rs1 ++ 0b001#3 ++ rd ++ 0b0110011#7) (.mulh rd rs1 rs2) s rd
      (((s.getReg rs1).signExtend 64 * (s.getReg rs2).signExtend 64).extractLsb' 32 32) (s.pc + 4#32) ∧
    Computes (0b0000001#7 ++ rs2 ++ rs1 ++ 0b010#3 ++ rd ++ 0b0110011#7) (.mulhsu rd rs1 rs2) s rd
      (((s.getReg rs1).signExtend 64 * (s.getReg rs2).zeroExtend 64).extractLsb' 32 32) (s.pc + 4#32) ∧
    Computes (0b0000001#7 ++ rs2 ++ rs1 ++ 0b011#3 ++ rd ++ 0b0110011#7) (.mulhu rd rs1 rs2) s rd
      (((s.getReg rs1).zeroExtend 64 * (s.getReg rs2).zeroExtend 64).extractLsb' 32 32) (s.pc + 4#32)

/-- R245 to R248: quotients and remainders, with division by zero and signed overflow, none of which traps. -/
def Obligations.Division : Prop :=
  ∀ (s : State) (rd rs1 rs2 : Reg),
    Computes (0b0000001#7 ++ rs2 ++ rs1 ++ 0b100#3 ++ rd ++ 0b0110011#7) (.div rd rs1 rs2) s rd
      (if s.getReg rs2 = 0#32 then 0xFFFFFFFF#32 else if s.getReg rs1 = 0x80000000#32 ∧ s.getReg rs2 = 0xFFFFFFFF#32 then 0x80000000#32
        else (s.getReg rs1).sdiv (s.getReg rs2)) (s.pc + 4#32) ∧
    Computes (0b0000001#7 ++ rs2 ++ rs1 ++ 0b101#3 ++ rd ++ 0b0110011#7) (.divu rd rs1 rs2) s rd
      (if s.getReg rs2 = 0#32 then 0xFFFFFFFF#32 else (s.getReg rs1).udiv (s.getReg rs2)) (s.pc + 4#32) ∧
    Computes (0b0000001#7 ++ rs2 ++ rs1 ++ 0b110#3 ++ rd ++ 0b0110011#7) (.rem rd rs1 rs2) s rd
      (if s.getReg rs2 = 0#32 then s.getReg rs1 else if s.getReg rs1 = 0x80000000#32 ∧ s.getReg rs2 = 0xFFFFFFFF#32 then 0#32
        else (s.getReg rs1).srem (s.getReg rs2)) (s.pc + 4#32) ∧
    Computes (0b0000001#7 ++ rs2 ++ rs1 ++ 0b111#3 ++ rd ++ 0b0110011#7) (.remu rd rs1 rs2) s rd
      (if s.getReg rs2 = 0#32 then s.getReg rs1 else (s.getReg rs1).umod (s.getReg rs2)) (s.pc + 4#32)

/-- R240: dividend = quotient * divisor + remainder in the integers whenever the divisor is not 0 and the division is not INT_MIN / -1,
and a nonzero remainder has the sign of the dividend. -/
def Obligations.DivisionLaws : Prop :=
  ∀ (s t u : State) (rd rs1 rs2 : Reg), rd ≠ 0#5 → s.getReg rs2 ≠ 0#32 →
    ¬ (s.getReg rs1 = 0x80000000#32 ∧ s.getReg rs2 = 0xFFFFFFFF#32) →
    exec (.div rd rs1 rs2) s = .next t → exec (.rem rd rs1 rs2) s = .next u →
    (s.getReg rs1).toInt = (t.getReg rd).toInt * (s.getReg rs2).toInt + (u.getReg rd).toInt ∧
    (u.getReg rd ≠ 0#32 → ((u.getReg rd).toInt < 0 ↔ (s.getReg rs1).toInt < 0))

/-- R265, R261: LR.W gives the word at x[rs1] and records the address, from RAM at any alignment and from a device; where the read is
refused it traps and the reservation is a draw in its value before and the new one; rs2 other than 0 is
an illegal word. -/
def Obligations.LoadReserved : Prop :=
  (∀ (s : State) (rd rs1 : Reg) (aq rl : BitVec 1) (a : Word), a = s.getReg rs1 →
    decodeWord (0b00010#5 ++ aq ++ rl ++ 0b00000#5 ++ rs1 ++ 0b010#3 ++ rd ++ 0b0101111#7) = .ok (.lrW rd rs1 aq rl) ∧
    (InRam a 4 → ∃ t, exec (.lrW rd rs1 aq rl) s = .next t ∧ RegWritten s t rd (wordAt s a) ∧ t.resv = some a ∧
      SameMem s t ∧ SameDevices s t ∧ SameCsrs s t ∧ SameControl s t ∧ t.pc = s.pc + 4#32 ∧ Retired s t) ∧
    (Refused s .read a .word → ∃ t, exec (.lrW rd rs1 aq rl) s = .next t ∧ TrapTaken s t 5#32 a s.pc ∧ SameRegs s t ∧
      (t.resv = s.resv ∨ t.resv = some a) ∧ SameMem s t ∧ t.agg = s.agg ∧ t.uart = s.uart) ∧
    (∀ v u, s.memRead a .word = some (v, u) →
      ∃ t, exec (.lrW rd rs1 aq rl) s = .next t ∧ RegWritten s t rd v ∧ t.resv = some a ∧ Follows s u t)) ∧
  (∀ (w : Word) (i : Instr), w.extractLsb' 0 7 = 0b0101111#7 → w.extractLsb' 27 5 = 0b00010#5 → w.extractLsb' 20 5 ≠ 0#5 →
    decodeWord w ≠ .ok i)

/-- R266, R262: SC.W stores and gives 0 exactly when the reservation is valid at x[rs1]; else it gives 1 with no access; afterwards the
reservation is invalid if SC_CLEARS_RESERVATION and unchanged otherwise; where the write is refused it traps, rd and the reservation being
draws in their values before and after. -/
def Obligations.StoreConditional : Prop :=
  ∀ (s : State) (rd rs1 rs2 : Reg) (aq rl : BitVec 1) (a : Word) (r : Option Word), a = s.getReg rs1 →
    r = (if s.cfg.scClears then none else s.resv) →
    decodeWord (0b00011#5 ++ aq ++ rl ++ rs2 ++ rs1 ++ 0b010#3 ++ rd ++ 0b0101111#7) = .ok (.scW rd rs1 rs2 aq rl) ∧
    (s.resv = some a → InRam a 4 →
      ∃ t, exec (.scW rd rs1 rs2 aq rl) s = .next t ∧ RegWritten s t rd 0#32 ∧ Stored s t a.toNat 4 (s.getReg rs2) ∧
        t.resv = r ∧ SameDevices s t ∧ SameCsrs s t ∧ SameControl s t ∧ t.pc = s.pc + 4#32 ∧ Retired s t) ∧
    (s.resv ≠ some a →
      ∃ t, exec (.scW rd rs1 rs2 aq rl) s = .next t ∧ RegWritten s t rd 1#32 ∧ SameMem s t ∧
        t.resv = r ∧ SameDevices s t ∧ SameCsrs s t ∧ SameControl s t ∧ t.pc = s.pc + 4#32 ∧ Retired s t) ∧
    (s.resv = some a → Refused s .write a .word →
      ∃ t, exec (.scW rd rs1 rs2 aq rl) s = .next t ∧ TrapTaken s t 7#32 a s.pc ∧
        (SameRegs s t ∨ RegWritten s t rd 0#32) ∧ (t.resv = s.resv ∨ t.resv = r) ∧ SameMem s t ∧ t.agg = s.agg ∧ t.uart = s.uart) ∧
    (∀ u, s.resv = some a → s.memWrite a .word (s.getReg rs2) = some u →
      ∃ t, exec (.scW rd rs1 rs2 aq rl) s = .next t ∧ RegWritten s t rd 0#32 ∧ t.resv = r ∧ Follows s u t)

/-- R263 (the spec's own inference), R262: in RAM, an SC.W right after an LR.W to the same address stores and gives 0, and where
SC_CLEARS_RESERVATION a second one gives 1 and stores nothing. -/
def Obligations.ReservedPairSucceeds : Prop :=
  ∀ (s t : State) (rd rs1 rd1 rs2 rd2 rs3 : Reg) (aq rl : BitVec 1), InRam (s.getReg rs1) 4 →
    exec (.lrW rd rs1 aq rl) s = .next t → t.getReg rs1 = s.getReg rs1 →
    ∃ u, exec (.scW rd1 rs1 rs2 aq rl) t = .next u ∧ RegWritten t u rd1 0#32 ∧
      Stored s u (s.getReg rs1).toNat 4 (t.getReg rs2) ∧
      (s.cfg.scClears = true →
        ∃ v, exec (.scW rd2 rs3 rs2 aq rl) u = .next v ∧ RegWritten u v rd2 1#32 ∧ SameMem u v)

/-- R264, R267 to R275: the nine AMOs, in RAM at any alignment, with the read refused, with the write refused after the read, and on a device. -/
def Obligations.AtomicOperations : Prop :=
  ∀ (s : State) (rd rs1 rs2 : Reg) (aq rl : BitVec 1) (a src : Word), a = s.getReg rs1 → src = s.getReg rs2 →
    Amos (0b00001#5 ++ aq ++ rl ++ rs2 ++ rs1 ++ 0b010#3 ++ rd ++ 0b0101111#7) (.amoswapW rd rs1 rs2 aq rl) s rd a src
      (fun _ src => src) ∧
    Amos (0b00000#5 ++ aq ++ rl ++ rs2 ++ rs1 ++ 0b010#3 ++ rd ++ 0b0101111#7) (.amoaddW rd rs1 rs2 aq rl) s rd a src
      (fun old src => BitVec.ofNat 32 (old.toNat + src.toNat)) ∧
    Amos (0b00100#5 ++ aq ++ rl ++ rs2 ++ rs1 ++ 0b010#3 ++ rd ++ 0b0101111#7) (.amoxorW rd rs1 rs2 aq rl) s rd a src
      (fun old src => old ^^^ src) ∧
    Amos (0b01100#5 ++ aq ++ rl ++ rs2 ++ rs1 ++ 0b010#3 ++ rd ++ 0b0101111#7) (.amoandW rd rs1 rs2 aq rl) s rd a src
      (fun old src => old &&& src) ∧
    Amos (0b01000#5 ++ aq ++ rl ++ rs2 ++ rs1 ++ 0b010#3 ++ rd ++ 0b0101111#7) (.amoorW rd rs1 rs2 aq rl) s rd a src
      (fun old src => old ||| src) ∧
    Amos (0b10000#5 ++ aq ++ rl ++ rs2 ++ rs1 ++ 0b010#3 ++ rd ++ 0b0101111#7) (.amominW rd rs1 rs2 aq rl) s rd a src
      (fun old src => if old.toInt < src.toInt then old else src) ∧
    Amos (0b10100#5 ++ aq ++ rl ++ rs2 ++ rs1 ++ 0b010#3 ++ rd ++ 0b0101111#7) (.amomaxW rd rs1 rs2 aq rl) s rd a src
      (fun old src => if old.toInt < src.toInt then src else old) ∧
    Amos (0b11000#5 ++ aq ++ rl ++ rs2 ++ rs1 ++ 0b010#3 ++ rd ++ 0b0101111#7) (.amominuW rd rs1 rs2 aq rl) s rd a src
      (fun old src => if old.toNat < src.toNat then old else src) ∧
    Amos (0b11100#5 ++ aq ++ rl ++ rs2 ++ rs1 ++ 0b010#3 ++ rd ++ 0b0101111#7) (.amomaxuW rd rs1 rs2 aq rl) s rd a src
      (fun old src => if old.toNat < src.toNat then src else old)

/-- R290, R291: FENCE and FENCE.I, whatever their other fields hold, only set pc to pc + 4 and retire. -/
def Obligations.Fences : Prop :=
  (∀ (s : State) (rd rs1 : Reg) (fm pred succ : BitVec 4),
    Proceeds (fm ++ pred ++ succ ++ rs1 ++ 0b000#3 ++ rd ++ 0b0001111#7) (.fence rd rs1 fm pred succ) s (s.pc + 4#32)) ∧
  (∀ (s : State) (rd rs1 : Reg) (imm : BitVec 12),
    Proceeds (imm ++ rs1 ++ 0b001#3 ++ rd ++ 0b0001111#7) (.fenceI rd rs1 imm) s (s.pc + 4#32))

/-- R300, R302 to R306, R308 to R313: the six CSR instructions, every CSR, every level: what is read, what is written, and where the access is
an illegal instruction. -/
def Obligations.CsrInstructions : Prop :=
  (∀ (s : State) (rd rs1 : Reg) (c : CsrNum) (x : Word), x = s.getReg rs1 →
    AccessesCsr (c ++ rs1 ++ 0b001#3 ++ rd ++ 0b1110011#7) (.csrrw rd rs1 c) s rd c (True) (x) ∧
    AccessesCsr (c ++ rs1 ++ 0b010#3 ++ rd ++ 0b1110011#7) (.csrrs rd rs1 c) s rd c (x ≠ 0#32) (csrShown s c ||| x) ∧
    AccessesCsr (c ++ rs1 ++ 0b011#3 ++ rd ++ 0b1110011#7) (.csrrc rd rs1 c) s rd c (x ≠ 0#32) (csrShown s c &&& ~~~x)) ∧
  (∀ (s : State) (rd : Reg) (uimm : BitVec 5) (c : CsrNum),
    AccessesCsr (c ++ uimm ++ 0b101#3 ++ rd ++ 0b1110011#7) (.csrrwi rd uimm c) s rd c (True) (0#27 ++ uimm) ∧
    AccessesCsr (c ++ uimm ++ 0b110#3 ++ rd ++ 0b1110011#7) (.csrrsi rd uimm c) s rd c (uimm ≠ 0#5) (csrShown s c ||| (0#27 ++ uimm)) ∧
    AccessesCsr (c ++ uimm ++ 0b111#3 ++ rd ++ 0b1110011#7) (.csrrci rd uimm c) s rd c (uimm ≠ 0#5) (csrShown s c &&& ~~~(0#27 ++ uimm)))

/-- R301: an instruction naming any number but the fourteen raises illegal instruction, whatever the level and whether or not it
writes. -/
def Obligations.UnimplementedCsrsAreIllegal : Prop :=
  ∀ (s : State) (i : Instr) (c : CsrNum), csrOperand i = some c → c ∉ csrNumbers →
    ∃ t, exec i s = .next t ∧ Traps s t 2#32 (encode i)

/-- R307: with a zero operand the set and clear forms only read: they succeed on the read-only counters and on misa in Machine mode and
change no CSR, while CSRRW and CSRRWI always attempt the write. -/
def Obligations.SuppressedWrites : Prop :=
  ∀ (s : State) (rd rs1 : Reg) (u : BitVec 5) (c : CsrNum), s.priv = .machine → c ∈ csrNumbers →
    (s.getReg rs1 = 0#32 →
      (∃ t, exec (.csrrs rd rs1 c) s = .next t ∧ RegWritten s t rd (csrShown s c) ∧ Quiet s t ∧ SameMem s t ∧ Retired s t) ∧
      (∃ t, exec (.csrrc rd rs1 c) s = .next t ∧ RegWritten s t rd (csrShown s c) ∧ Quiet s t ∧ SameMem s t ∧ Retired s t)) ∧
    (∃ t, exec (.csrrsi rd 0#5 c) s = .next t ∧ RegWritten s t rd (csrShown s c) ∧ Quiet s t ∧ SameMem s t ∧ Retired s t) ∧
    (∃ t, exec (.csrrci rd 0#5 c) s = .next t ∧ RegWritten s t rd (csrShown s c) ∧ Quiet s t ∧ SameMem s t ∧ Retired s t) ∧
    (c = 0xC00#12 ∨ c = 0xC80#12 ∨ c = 0xC02#12 ∨ c = 0xC82#12 ∨ c = 0x301#12 →
      (∃ t, exec (.csrrw rd rs1 c) s = .next t ∧ t.mcause = 2#32 ∧ t.mepc = s.pc) ∧
      (∃ t, exec (.csrrwi rd u c) s = .next t ∧ t.mcause = 2#32 ∧ t.mepc = s.pc) ∧
      (s.getReg rs1 ≠ 0#32 → ∃ t, exec (.csrrs rd rs1 c) s = .next t ∧ t.mcause = 2#32 ∧ t.mepc = s.pc) ∧
      (s.getReg rs1 ≠ 0#32 → ∃ t, exec (.csrrc rd rs1 c) s = .next t ∧ t.mcause = 2#32 ∧ t.mepc = s.pc) ∧
      (u ≠ 0#5 → ∃ t, exec (.csrrsi rd u c) s = .next t ∧ t.mcause = 2#32 ∧ t.mepc = s.pc) ∧
      (u ≠ 0#5 → ∃ t, exec (.csrrci rd u c) s = .next t ∧ t.mcause = 2#32 ∧ t.mepc = s.pc))

/-- R306, R410: a CSR written by CSRRW is read by the next CSRRS as the value written, under its mask: all bits of mtvec, mcounteren,
mscratch, mepc, mcause and mtval, 0x1888 of mstatus, 0x888 of mie; mip keeps following the aggregator. -/
def Obligations.CsrWritesReadBack : Prop :=
  ∀ (s t : State) (rs1 rd : Reg) (c : CsrNum), s.priv = .machine → c ∈ csrNumbers → c.extractLsb' 10 2 ≠ 0b11#2 →
    c ≠ 0x301#12 → exec (.csrrw 0#5 rs1 c) s = .next t →
    ∃ u, exec (.csrrs rd 0#5 c) t = .next u ∧
      RegWritten s u rd
        (if c = 0x300#12 then s.getReg rs1 &&& 0x00001888#32
         else if c = 0x304#12 then s.getReg rs1 &&& 0x00000888#32
         else if c = 0x344#12 then s.mip
         else s.getReg rs1)

/-- R314, R315, R346: ECALL raises the environment call of the level it executes in (8, 9, 11) and EBREAK breakpoint (3), each with
mtval = 0 and mepc = pc. -/
def Obligations.EnvironmentCallAndBreakpoint : Prop :=
  ∀ s : State,
    Raises 0x00000073#32 .ecall s
      (if s.priv = .user then 8#32 else if s.priv = .supervisor then 9#32 else 11#32) 0#32 ∧
    Raises 0x00100073#32 .ebreak s 3#32 0#32

/-- R316: MRET in Machine mode takes the level from MPP (0 User, 1 Supervisor, 3 Machine; MPP = 2 is refused where MPP2_PRIV is
not given), MIE from MPIE, sets MPIE, clears MPP and goes to mepc; below Machine mode it is an
illegal instruction. MODEL'S CHOICE (log entry 10): MPP = 2 is refused only where MPP2_PRIV is not given (R316 says it is refused). -/
def Obligations.TrapReturn : Prop :=
  decodeWord 0x30200073#32 = .ok .mret ∧
  (∀ (s : State) (p : Priv), s.priv = .machine →
    s.mstatus.extractLsb' 11 2 = privCode p →
    ∃ t, exec .mret s = .next t ∧ t.priv = p ∧ t.pc = s.mepc ∧
      t.mstatus.getLsbD 3 = s.mstatus.getLsbD 7 ∧ t.mstatus.getLsbD 7 = true ∧ t.mstatus.extractLsb' 11 2 = 0#2 ∧
      (∀ j, j ≠ 3 → j ≠ 7 → j ≠ 11 → j ≠ 12 → t.mstatus.getLsbD j = false) ∧
      t.mie = s.mie ∧ t.mtvec = s.mtvec ∧ t.mcounteren = s.mcounteren ∧ t.mscratch = s.mscratch ∧ t.mepc = s.mepc ∧
      t.mcause = s.mcause ∧ t.mtval = s.mtval ∧ SameRegs s t ∧ SameMem s t ∧ SameDevices s t ∧ t.resv = s.resv ∧
      t.engine = s.engine ∧ t.cfg = s.cfg ∧ t.host = s.host ∧ Retired s t) ∧
  (∀ s : State, s.priv = .machine → s.mstatus.extractLsb' 11 2 = 2#2 → s.cfg.mpp2Priv = none →
    exec .mret s = .refused .mppReserved) ∧
  (∀ s : State, s.priv ≠ .machine → ∃ t, exec .mret s = .next t ∧ Traps s t 2#32 0x30200073#32)

/-- D12: in a machine whose parameter MPP2_PRIV is given, MRET with MPP = 2 acts as for every MPP but takes that level. MODEL'S CHOICE
(log entry 10): the parameter is a field of the configuration, and where it is not given the MRET is refused (R316). -/
def Obligations.MretWithReservedMpp : Prop :=
  ∀ (s : State) (p : Priv), s.priv = .machine → s.mstatus.extractLsb' 11 2 = 2#2 → s.cfg.mpp2Priv = some p →
    ∃ t, exec .mret s = .next t ∧ t.priv = p ∧ t.pc = s.mepc ∧
      t.mstatus.getLsbD 3 = s.mstatus.getLsbD 7 ∧ t.mstatus.getLsbD 7 = true ∧ t.mstatus.extractLsb' 11 2 = 0#2 ∧
      (∀ j, j ≠ 3 → j ≠ 7 → j ≠ 11 → j ≠ 12 → t.mstatus.getLsbD j = false) ∧
      t.mie = s.mie ∧ t.mtvec = s.mtvec ∧ t.mcounteren = s.mcounteren ∧ t.mscratch = s.mscratch ∧ t.mepc = s.mepc ∧
      t.mcause = s.mcause ∧ t.mtval = s.mtval ∧ SameRegs s t ∧ SameMem s t ∧ SameDevices s t ∧ t.resv = s.resv ∧
      t.engine = s.engine ∧ t.cfg = s.cfg ∧ t.host = s.host ∧ Retired s t

/-- R355 (the spec's own inference): where mtvec cannot be fetched, every batch that starts at mtvec, of any budget but 0, faults with cause 1
and mepc = mtvec and goes to mtvec again, with MIE = 0 and no instruction retired; with mtvec = 0 and a zero word at address 0, with cause 2
and mepc = 0. MODEL'S CHOICE, in Entered: a host that lists no move runs a batch with budget 1 (log entry 3), and a batch start
is one step with its first instruction (log entry 4). -/
def Obligations.UnfetchableVectorRepeats : Prop :=
  (∀ s u : State, BetweenBatches s → Entered s u → ¬ InRam s.mtvec 4 → s.pc = s.mtvec →
    ∃ t, step s = .next t ∧ BetweenBatches t ∧ t.host = u.host ∧ t.batchRetired = 0 ∧ t.mstatus.getLsbD 3 = false ∧
      t.mtvec = s.mtvec ∧ t.pc = t.mtvec ∧ t.mcause = 1#32 ∧ t.mepc = s.mtvec ∧ t.mtval = s.mtvec ∧
      t.cycle = s.cycle ∧ t.instret = s.instret) ∧
  (∀ s u : State, BetweenBatches s → Entered s u → s.mtvec = 0#32 → s.pc = 0#32 → wordAt s 0#32 = 0#32 →
    ∃ t, step s = .next t ∧ BetweenBatches t ∧ t.host = u.host ∧ t.batchRetired = 0 ∧ t.mstatus.getLsbD 3 = false ∧
      t.mtvec = 0#32 ∧ t.pc = 0#32 ∧ wordAt t 0#32 = 0#32 ∧ t.mcause = 2#32 ∧ t.mepc = 0#32 ∧ t.mtval = 0#32 ∧
      t.cycle = s.cycle ∧ t.instret = s.instret)

end
end

