-- ==== Sys2Proof/Laws/Memory.lean ====
section
/-! SUPPORT. The laws of RAM: a read after a write gives the byte written and a write leaves every other byte alone, for every
list; and every operation keeps the canonical form and stays inside RAM. -/

namespace Sys2Proof.Machine

/-! ## One byte -/

theorem Mem.read_eraseAt (m : Mem) (a x : Nat) :
    Mem.read (Mem.eraseAt m a) x = if x = a then Mem.unlisted else Mem.read m x := by
  induction m with
  | nil => simp [Mem.eraseAt, Mem.read]
  | cons c m ih =>
    obtain ⟨c, d⟩ := c
    unfold Mem.eraseAt at ih ⊢
    by_cases hc : c = a
    · subst hc
      by_cases hx : x = c <;> simp_all [Mem.read, eq_comm]
    · by_cases hx : c = x
      · subst hx
        simp [Mem.read, hc]
      · simp [Mem.read, hc, hx, ih]

theorem Mem.read_insertCell (m : Mem) (a : Nat) (b : Byte) (x : Nat) (h : ∀ c ∈ m, c.1 ≠ a) :
    Mem.read (Mem.insertCell m a b) x = if x = a then b else Mem.read m x := by
  induction m with
  | nil => simp [Mem.insertCell, Mem.read, eq_comm]
  | cons c m ih =>
    obtain ⟨c, d⟩ := c
    have hc : c ≠ a := h (c, d) (by simp)
    have ih := ih (fun e he => h e (by simp [he]))
    unfold Mem.insertCell
    split
    · simp only [Mem.read, eq_comm]
    · by_cases hx : c = x
      · subst hx
        simp [Mem.read, hc]
      · simp [Mem.read, hx, ih]

theorem Mem.eraseAt_ne (m : Mem) (a : Nat) : ∀ c ∈ Mem.eraseAt m a, c.1 ≠ a := by
  intro c hc
  simpa using (List.mem_filter.mp hc).2

/-- A read after a one-byte write. -/
theorem Mem.read_write (m : Mem) (a : Nat) (b : Byte) (x : Nat) :
    Mem.read (Mem.write m a b) x = if x = a then b else Mem.read m x := by
  unfold Mem.write
  split
  · rename_i h
    rw [Mem.read_eraseAt, h]
  · rw [Mem.read_insertCell _ _ _ _ (Mem.eraseAt_ne m a), Mem.read_eraseAt]
    split <;> simp_all

/-! ## The canonical form -/

theorem Mem.mem_insertCell {m : Mem} {a : Nat} {b : Byte} {c : Host.Cell} :
    c ∈ Mem.insertCell m a b ↔ c = (a, b) ∨ c ∈ m := by
  induction m with
  | nil => simp [Mem.insertCell]
  | cons e m ih =>
    obtain ⟨e, d⟩ := e
    unfold Mem.insertCell
    split
    · simp
    · simp only [List.mem_cons, ih]
      tauto

theorem Mem.wf_eraseAt {m : Mem} (h : Mem.wf m) (a : Nat) : Mem.wf (Mem.eraseAt m a) :=
  ⟨h.1.filter _, fun c hc => h.2 c (List.mem_filter.mp hc).1⟩

theorem Mem.wf_insertCell {m : Mem} (h : Mem.wf m) {a : Nat} (ha : ∀ c ∈ m, c.1 ≠ a) {b : Byte}
    (hb : b ≠ Mem.unlisted) : Mem.wf (Mem.insertCell m a b) := by
  refine ⟨?_, fun c hc => ?_⟩
  · have hs := h.1
    clear h
    induction m with
    | nil => simp [Mem.insertCell]
    | cons e m ih =>
      obtain ⟨e, d⟩ := e
      have hea : e ≠ a := ha (e, d) (by simp)
      rw [List.pairwise_cons] at hs
      unfold Mem.insertCell
      split
      · rename_i hlt
        rw [List.pairwise_cons]
        refine ⟨fun c hc => ?_, List.pairwise_cons.mpr hs⟩
        rcases List.mem_cons.mp hc with rfl | hc
        · exact hlt
        · exact Nat.lt_trans hlt (hs.1 c hc)
      · rw [List.pairwise_cons]
        refine ⟨fun c hc => ?_, ih (fun c hc => ha c (by simp [hc])) hs.2⟩
        rcases Mem.mem_insertCell.mp hc with rfl | hc
        · show e < a
          omega
        · exact hs.1 c hc
  · rcases Mem.mem_insertCell.mp hc with rfl | hc
    · exact hb
    · exact h.2 c hc

/-- A write keeps the canonical form. -/
theorem Mem.wf_write {m : Mem} (h : Mem.wf m) (a : Nat) (b : Byte) : Mem.wf (Mem.write m a b) := by
  unfold Mem.write
  split
  · exact Mem.wf_eraseAt h a
  · exact Mem.wf_insertCell (Mem.wf_eraseAt h a) (Mem.eraseAt_ne m a) ‹_›

/-- A write below RAM_END lists nothing outside RAM. -/
theorem Mem.inRam_write {m : Mem} (h : Mem.inRam m) {a : Nat} (ha : a < Config.ramEnd) (b : Byte) :
    Mem.inRam (Mem.write m a b) := by
  have he : Mem.inRam (Mem.eraseAt m a) := fun c hc => h c (List.mem_filter.mp hc).1
  unfold Mem.write
  split
  · exact he
  · intro c hc
    rcases Mem.mem_insertCell.mp hc with rfl | hc
    · exact ha
    · exact he c hc

/-- Canonical memories that read alike at every address are equal data. -/
theorem Mem.ext_of_wf {m n : Mem} (hm : Mem.wf m) (hn : Mem.wf n) (h : ∀ a, Mem.read m a = Mem.read n a) : m = n := by
  have low : ∀ (l : Mem) (a : Nat), (∀ c ∈ l, a < c.1) → Mem.read l a = Mem.unlisted := by
    intro l a hl
    induction l with
    | nil => rfl
    | cons c l ih =>
      have := hl c (by simp)
      have hne : c.1 ≠ a := by omega
      simp [Mem.read, hne, ih (fun e he => hl e (by simp [he]))]
  induction m generalizing n with
  | nil =>
    cases n with
    | nil => rfl
    | cons c n =>
      have := h c.1
      simp only [Mem.read, if_true] at this
      exact absurd this.symm (hn.2 c (by simp))
  | cons c m ih =>
    cases n with
    | nil =>
      have := h c.1
      simp only [Mem.read, if_true] at this
      exact absurd this (hm.2 c (by simp))
    | cons e n =>
      have hm' := List.pairwise_cons.mp hm.1
      have hn' := List.pairwise_cons.mp hn.1
      have key : c = e := by
        rcases Nat.lt_trichotomy c.1 e.1 with hlt | heq | hgt
        · have := h c.1
          have hne : e.1 ≠ c.1 := by omega
          simp only [Mem.read, if_true, hne, if_false] at this
          rw [low n c.1 (fun x hx => Nat.lt_trans hlt (hn'.1 x hx))] at this
          exact absurd this (hm.2 c (by simp))
        · have := h c.1
          simp only [Mem.read, if_true, heq.symm] at this
          exact Prod.ext heq this
        · have := h e.1
          have hne : c.1 ≠ e.1 := by omega
          simp only [Mem.read, if_true, hne, if_false] at this
          rw [low m e.1 (fun x hx => Nat.lt_trans hgt (hm'.1 x hx))] at this
          exact absurd this.symm (hn.2 e (by simp))
      subst key
      congr 1
      refine ih ⟨hm'.2, fun x hx => hm.2 x (by simp [hx])⟩ ⟨hn'.2, fun x hx => hn.2 x (by simp [hx])⟩ (fun a => ?_)
      by_cases ha : c.1 = a
      · rw [low m a (fun x hx => ha ▸ hm'.1 x hx), low n a (fun x hx => ha ▸ hn'.1 x hx)]
      · have := h a
        simpa [Mem.read, ha] using this

/-! ## Wider writes -/

/-- Every byte after a write of `n` bytes: the bytes of the value inside the range, as before outside (R66). -/
theorem Mem.read_writeLE (m : Mem) (a v n x : Nat) :
    Mem.read (Mem.writeLE m a v n) x =
      if a ≤ x ∧ x < a + n then BitVec.ofNat 8 (v / 256 ^ (x - a)) else Mem.read m x := by
  induction n generalizing m a v with
  | zero =>
    simp [Mem.writeLE]
  | succ n ih =>
    rw [Mem.writeLE, ih, Mem.read_write]
    by_cases h1 : a + 1 ≤ x ∧ x < a + 1 + n
    · have h2 : a ≤ x ∧ x < a + (n + 1) := by omega
      have h3 : x - a = (x - (a + 1)) + 1 := by omega
      rw [if_pos h1, if_pos h2, h3, Nat.pow_succ, Nat.mul_comm, ← Nat.div_div_eq_div_mul]
    · rw [if_neg h1]
      by_cases hx : x = a
      · subst hx
        simp
      · have h2 : ¬ (a ≤ x ∧ x < a + (n + 1)) := by omega
        rw [if_neg hx, if_neg h2]

theorem Mem.wf_writeLE {m : Mem} (h : Mem.wf m) (a v n : Nat) : Mem.wf (Mem.writeLE m a v n) := by
  induction n generalizing m a v with
  | zero => exact h
  | succ n ih => exact ih (Mem.wf_write h _ _) _ _

theorem Mem.inRam_writeLE {m : Mem} (h : Mem.inRam m) {a n : Nat} (ha : a + n ≤ Config.ramEnd) (v : Nat) :
    Mem.inRam (Mem.writeLE m a v n) := by
  induction n generalizing m a v with
  | zero => exact h
  | succ n ih => exact ih (Mem.inRam_write h (by omega) _) (by omega) _

/-- The value of `n` bytes is below 256^n. -/
theorem Mem.readLE_lt (m : Mem) (a n : Nat) : Mem.readLE m a n < 256 ^ n := by
  induction n generalizing a with
  | zero => simp [Mem.readLE]
  | succ n ih =>
    have h1 := (Mem.read m a).isLt
    have h2 := ih (a + 1)
    rw [Mem.readLE, Nat.pow_succ]
    omega

/-- Two memories that agree on the bytes of a range give the same value there. -/
theorem Mem.readLE_congr {m k : Mem} {a n : Nat} (h : ∀ x, a ≤ x → x < a + n → Mem.read m x = Mem.read k x) :
    Mem.readLE m a n = Mem.readLE k a n := by
  induction n generalizing a with
  | zero => rfl
  | succ n ih =>
    rw [Mem.readLE, Mem.readLE, h a (by omega) (by omega), ih (fun x h1 h2 => h x (by omega) (by omega))]

/-- Reading back what was written gives the low bytes of the value (R64 to R66). -/
theorem Mem.readLE_writeLE (m : Mem) (a v n : Nat) : Mem.readLE (Mem.writeLE m a v n) a n = v % 256 ^ n := by
  induction n generalizing m a v with
  | zero => simp [Mem.readLE, Nat.mod_one]
  | succ n ih =>
    rw [Mem.readLE, Mem.read_writeLE, if_pos ⟨Nat.le_refl a, by omega⟩, Mem.writeLE, ih]
    have h : 256 ^ (n + 1) = 256 * 256 ^ n := by rw [Nat.pow_succ, Nat.mul_comm]
    rw [h, Nat.mod_mul]
    simp

/-! ## Copying an image (R403) -/

theorem Mem.read_copy (m : Mem) (a : Nat) (bs : List Byte) (x : Nat) :
    Mem.read (Mem.copy m a bs) x = if h : a ≤ x ∧ x < a + bs.length then bs[x - a]'(by omega) else Mem.read m x := by
  induction bs generalizing m a with
  | nil =>
    simp [Mem.copy]
  | cons b bs ih =>
    rw [Mem.copy, ih, Mem.read_write]
    simp only [List.length_cons]
    by_cases h1 : a + 1 ≤ x ∧ x < a + 1 + bs.length
    · have h2 : a ≤ x ∧ x < a + (bs.length + 1) := by omega
      rw [dif_pos h1, dif_pos h2]
      obtain ⟨d, rfl⟩ : ∃ d, x = a + 1 + d := ⟨x - (a + 1), by omega⟩
      simp only [show a + 1 + d - a = d + 1 by omega, show a + 1 + d - (a + 1) = d by omega, List.getElem_cons_succ]
    · rw [dif_neg h1]
      by_cases hx : x = a
      · subst hx
        simp
      · have h2 : ¬ (a ≤ x ∧ x < a + (bs.length + 1)) := by omega
        rw [if_neg hx, dif_neg h2]

theorem Mem.wf_copy {m : Mem} (h : Mem.wf m) (a : Nat) (bs : List Byte) : Mem.wf (Mem.copy m a bs) := by
  induction bs generalizing m a with
  | nil => exact h
  | cons b bs ih => exact ih (Mem.wf_write h _ _) _

theorem Mem.inRam_copy {m : Mem} (h : Mem.inRam m) {a : Nat} {bs : List Byte} (ha : a + bs.length ≤ Config.ramEnd) :
    Mem.inRam (Mem.copy m a bs) := by
  induction bs generalizing m a with
  | nil => exact h
  | cons b bs ih =>
    rw [List.length_cons] at ha
    exact ih (Mem.inRam_write h (by omega) _) (by omega)

end Sys2Proof.Machine
end

