-- ==== Sys2Proof/Laws/State.lean ====
section
/-! SUPPORT. The small lemmas of the state operations: one per field per operation, so that no proof unfolds a record update,
and what each operation writes. -/

namespace Sys2Proof.Machine

/-! ## Registers (R20) -/

@[simp] theorem State.getReg_zero (s : State) : s.getReg 0#5 = 0#32 := by simp [State.getReg]

/-- `getReg` depends on the register file only. -/
theorem State.getReg_congr {s t : State} (h : t.regs = s.regs) (r : Reg) : t.getReg r = s.getReg r := by
  simp [State.getReg, h]

/-- A register reads what was last written to it; x0 reads 0 (R20). -/
theorem State.getReg_setReg (s : State) (rd : Reg) (v : Word) (r : Reg) :
    (s.setReg rd v).getReg r = if r = 0#5 then 0#32 else if r = rd then v else s.getReg r := by
  unfold State.getReg State.setReg
  by_cases h0 : r = 0#5
  · simp [h0]
  by_cases hd : rd = 0#5
  · simp [h0, hd]
  simp only [h0, hd, if_false]
  have e : (rd.toNat - 1 = r.toNat - 1) ↔ r = rd := by
    have h1 : r.toNat ≠ 0 := fun h => h0 (BitVec.eq_of_toNat_eq (by simpa using h))
    have h2 : rd.toNat ≠ 0 := fun h => hd (BitVec.eq_of_toNat_eq (by simpa using h))
    rw [← BitVec.toNat_inj]
    omega
  simp only [Vector.getElem_set, e]

@[simp] theorem State.setReg_zero (s : State) (v : Word) : s.setReg 0#5 v = s := by simp [State.setReg]

/-! ## What each operation leaves -/

@[simp] theorem State.setReg_pc (s : State) (r : Reg) (v : Word) : (s.setReg r v).pc = s.pc := by
  unfold State.setReg; split <;> rfl
@[simp] theorem State.setReg_priv (s : State) (r : Reg) (v : Word) : (s.setReg r v).priv = s.priv := by
  unfold State.setReg; split <;> rfl
@[simp] theorem State.setReg_engine (s : State) (r : Reg) (v : Word) : (s.setReg r v).engine = s.engine := by
  unfold State.setReg; split <;> rfl
@[simp] theorem State.setReg_resv (s : State) (r : Reg) (v : Word) : (s.setReg r v).resv = s.resv := by
  unfold State.setReg; split <;> rfl
@[simp] theorem State.setReg_cycle (s : State) (r : Reg) (v : Word) : (s.setReg r v).cycle = s.cycle := by
  unfold State.setReg; split <;> rfl
@[simp] theorem State.setReg_instret (s : State) (r : Reg) (v : Word) : (s.setReg r v).instret = s.instret := by
  unfold State.setReg; split <;> rfl
@[simp] theorem State.setReg_mstatus (s : State) (r : Reg) (v : Word) : (s.setReg r v).mstatus = s.mstatus := by
  unfold State.setReg; split <;> rfl
@[simp] theorem State.setReg_mie (s : State) (r : Reg) (v : Word) : (s.setReg r v).mie = s.mie := by
  unfold State.setReg; split <;> rfl
@[simp] theorem State.setReg_mtvec (s : State) (r : Reg) (v : Word) : (s.setReg r v).mtvec = s.mtvec := by
  unfold State.setReg; split <;> rfl
@[simp] theorem State.setReg_mcounteren (s : State) (r : Reg) (v : Word) : (s.setReg r v).mcounteren = s.mcounteren := by
  unfold State.setReg; split <;> rfl
@[simp] theorem State.setReg_mscratch (s : State) (r : Reg) (v : Word) : (s.setReg r v).mscratch = s.mscratch := by
  unfold State.setReg; split <;> rfl
@[simp] theorem State.setReg_mepc (s : State) (r : Reg) (v : Word) : (s.setReg r v).mepc = s.mepc := by
  unfold State.setReg; split <;> rfl
@[simp] theorem State.setReg_mcause (s : State) (r : Reg) (v : Word) : (s.setReg r v).mcause = s.mcause := by
  unfold State.setReg; split <;> rfl
@[simp] theorem State.setReg_mtval (s : State) (r : Reg) (v : Word) : (s.setReg r v).mtval = s.mtval := by
  unfold State.setReg; split <;> rfl
@[simp] theorem State.setReg_agg (s : State) (r : Reg) (v : Word) : (s.setReg r v).agg = s.agg := by
  unfold State.setReg; split <;> rfl
@[simp] theorem State.setReg_uart (s : State) (r : Reg) (v : Word) : (s.setReg r v).uart = s.uart := by
  unfold State.setReg; split <;> rfl
@[simp] theorem State.setReg_mem (s : State) (r : Reg) (v : Word) : (s.setReg r v).mem = s.mem := by
  unfold State.setReg; split <;> rfl
@[simp] theorem State.setReg_cfg (s : State) (r : Reg) (v : Word) : (s.setReg r v).cfg = s.cfg := by
  unfold State.setReg; split <;> rfl
@[simp] theorem State.setReg_batchRetired (s : State) (r : Reg) (v : Word) : (s.setReg r v).batchRetired = s.batchRetired := by
  unfold State.setReg; split <;> rfl
@[simp] theorem State.setReg_batchLeft (s : State) (r : Reg) (v : Word) : (s.setReg r v).batchLeft = s.batchLeft := by
  unfold State.setReg; split <;> rfl
@[simp] theorem State.setReg_host (s : State) (r : Reg) (v : Word) : (s.setReg r v).host = s.host := by
  unfold State.setReg; split <;> rfl
@[simp] theorem State.setReg_draws (s : State) (r : Reg) (v : Word) : (s.setReg r v).draws = s.draws := by
  unfold State.setReg; split <;> rfl

@[simp] theorem State.endBatch_regs (s : State) : (s.endBatch).regs = s.regs := by
  rfl
@[simp] theorem State.endBatch_pc (s : State) : (s.endBatch).pc = s.pc := by
  rfl
@[simp] theorem State.endBatch_priv (s : State) : (s.endBatch).priv = s.priv := by
  rfl
@[simp] theorem State.endBatch_engine (s : State) : (s.endBatch).engine = s.engine := by
  rfl
@[simp] theorem State.endBatch_resv (s : State) : (s.endBatch).resv = s.resv := by
  rfl
@[simp] theorem State.endBatch_mstatus (s : State) : (s.endBatch).mstatus = s.mstatus := by
  rfl
@[simp] theorem State.endBatch_mie (s : State) : (s.endBatch).mie = s.mie := by
  rfl
@[simp] theorem State.endBatch_mtvec (s : State) : (s.endBatch).mtvec = s.mtvec := by
  rfl
@[simp] theorem State.endBatch_mcounteren (s : State) : (s.endBatch).mcounteren = s.mcounteren := by
  rfl
@[simp] theorem State.endBatch_mscratch (s : State) : (s.endBatch).mscratch = s.mscratch := by
  rfl
@[simp] theorem State.endBatch_mepc (s : State) : (s.endBatch).mepc = s.mepc := by
  rfl
@[simp] theorem State.endBatch_mcause (s : State) : (s.endBatch).mcause = s.mcause := by
  rfl
@[simp] theorem State.endBatch_mtval (s : State) : (s.endBatch).mtval = s.mtval := by
  rfl
@[simp] theorem State.endBatch_agg (s : State) : (s.endBatch).agg = s.agg := by
  rfl
@[simp] theorem State.endBatch_uart (s : State) : (s.endBatch).uart = s.uart := by
  rfl
@[simp] theorem State.endBatch_mem (s : State) : (s.endBatch).mem = s.mem := by
  rfl
@[simp] theorem State.endBatch_cfg (s : State) : (s.endBatch).cfg = s.cfg := by
  rfl
@[simp] theorem State.endBatch_host (s : State) : (s.endBatch).host = s.host := by
  rfl
@[simp] theorem State.endBatch_draws (s : State) : (s.endBatch).draws = s.draws := by
  rfl
@[simp] theorem State.endBatch_getReg (s : State) (q : Reg) : (s.endBatch).getReg q = s.getReg q :=
  State.getReg_congr (by simp) q

@[simp] theorem State.retire_regs (s : State) : (s.retire).regs = s.regs := by
  unfold State.retire; split <;> rfl
@[simp] theorem State.retire_pc (s : State) : (s.retire).pc = s.pc := by
  unfold State.retire; split <;> rfl
@[simp] theorem State.retire_priv (s : State) : (s.retire).priv = s.priv := by
  unfold State.retire; split <;> rfl
@[simp] theorem State.retire_engine (s : State) : (s.retire).engine = s.engine := by
  unfold State.retire; split <;> rfl
@[simp] theorem State.retire_resv (s : State) : (s.retire).resv = s.resv := by
  unfold State.retire; split <;> rfl
@[simp] theorem State.retire_mstatus (s : State) : (s.retire).mstatus = s.mstatus := by
  unfold State.retire; split <;> rfl
@[simp] theorem State.retire_mie (s : State) : (s.retire).mie = s.mie := by
  unfold State.retire; split <;> rfl
@[simp] theorem State.retire_mtvec (s : State) : (s.retire).mtvec = s.mtvec := by
  unfold State.retire; split <;> rfl
@[simp] theorem State.retire_mcounteren (s : State) : (s.retire).mcounteren = s.mcounteren := by
  unfold State.retire; split <;> rfl
@[simp] theorem State.retire_mscratch (s : State) : (s.retire).mscratch = s.mscratch := by
  unfold State.retire; split <;> rfl
@[simp] theorem State.retire_mepc (s : State) : (s.retire).mepc = s.mepc := by
  unfold State.retire; split <;> rfl
@[simp] theorem State.retire_mcause (s : State) : (s.retire).mcause = s.mcause := by
  unfold State.retire; split <;> rfl
@[simp] theorem State.retire_mtval (s : State) : (s.retire).mtval = s.mtval := by
  unfold State.retire; split <;> rfl
@[simp] theorem State.retire_agg (s : State) : (s.retire).agg = s.agg := by
  unfold State.retire; split <;> rfl
@[simp] theorem State.retire_uart (s : State) : (s.retire).uart = s.uart := by
  unfold State.retire; split <;> rfl
@[simp] theorem State.retire_mem (s : State) : (s.retire).mem = s.mem := by
  unfold State.retire; split <;> rfl
@[simp] theorem State.retire_cfg (s : State) : (s.retire).cfg = s.cfg := by
  unfold State.retire; split <;> rfl
@[simp] theorem State.retire_host (s : State) : (s.retire).host = s.host := by
  unfold State.retire; split <;> rfl
@[simp] theorem State.retire_draws (s : State) : (s.retire).draws = s.draws := by
  unfold State.retire; split <;> rfl
@[simp] theorem State.retire_getReg (s : State) (q : Reg) : (s.retire).getReg q = s.getReg q :=
  State.getReg_congr (by simp) q

@[simp] theorem State.goTo_regs (s : State) (a : Word) : (s.goTo a).regs = s.regs := by
  simp [State.goTo]
@[simp] theorem State.goTo_priv (s : State) (a : Word) : (s.goTo a).priv = s.priv := by
  simp [State.goTo]
@[simp] theorem State.goTo_engine (s : State) (a : Word) : (s.goTo a).engine = s.engine := by
  simp [State.goTo]
@[simp] theorem State.goTo_resv (s : State) (a : Word) : (s.goTo a).resv = s.resv := by
  simp [State.goTo]
@[simp] theorem State.goTo_mstatus (s : State) (a : Word) : (s.goTo a).mstatus = s.mstatus := by
  simp [State.goTo]
@[simp] theorem State.goTo_mie (s : State) (a : Word) : (s.goTo a).mie = s.mie := by
  simp [State.goTo]
@[simp] theorem State.goTo_mtvec (s : State) (a : Word) : (s.goTo a).mtvec = s.mtvec := by
  simp [State.goTo]
@[simp] theorem State.goTo_mcounteren (s : State) (a : Word) : (s.goTo a).mcounteren = s.mcounteren := by
  simp [State.goTo]
@[simp] theorem State.goTo_mscratch (s : State) (a : Word) : (s.goTo a).mscratch = s.mscratch := by
  simp [State.goTo]
@[simp] theorem State.goTo_mepc (s : State) (a : Word) : (s.goTo a).mepc = s.mepc := by
  simp [State.goTo]
@[simp] theorem State.goTo_mcause (s : State) (a : Word) : (s.goTo a).mcause = s.mcause := by
  simp [State.goTo]
@[simp] theorem State.goTo_mtval (s : State) (a : Word) : (s.goTo a).mtval = s.mtval := by
  simp [State.goTo]
@[simp] theorem State.goTo_agg (s : State) (a : Word) : (s.goTo a).agg = s.agg := by
  simp [State.goTo]
@[simp] theorem State.goTo_uart (s : State) (a : Word) : (s.goTo a).uart = s.uart := by
  simp [State.goTo]
@[simp] theorem State.goTo_mem (s : State) (a : Word) : (s.goTo a).mem = s.mem := by
  simp [State.goTo]
@[simp] theorem State.goTo_cfg (s : State) (a : Word) : (s.goTo a).cfg = s.cfg := by
  simp [State.goTo]
@[simp] theorem State.goTo_host (s : State) (a : Word) : (s.goTo a).host = s.host := by
  simp [State.goTo]
@[simp] theorem State.goTo_draws (s : State) (a : Word) : (s.goTo a).draws = s.draws := by
  simp [State.goTo]
@[simp] theorem State.goTo_getReg (s : State) (a : Word) (q : Reg) : (s.goTo a).getReg q = s.getReg q :=
  State.getReg_congr (by simp) q

@[simp] theorem State.advance_regs (s : State) : (s.advance).regs = s.regs := by
  simp [State.advance]
@[simp] theorem State.advance_priv (s : State) : (s.advance).priv = s.priv := by
  simp [State.advance]
@[simp] theorem State.advance_engine (s : State) : (s.advance).engine = s.engine := by
  simp [State.advance]
@[simp] theorem State.advance_resv (s : State) : (s.advance).resv = s.resv := by
  simp [State.advance]
@[simp] theorem State.advance_mstatus (s : State) : (s.advance).mstatus = s.mstatus := by
  simp [State.advance]
@[simp] theorem State.advance_mie (s : State) : (s.advance).mie = s.mie := by
  simp [State.advance]
@[simp] theorem State.advance_mtvec (s : State) : (s.advance).mtvec = s.mtvec := by
  simp [State.advance]
@[simp] theorem State.advance_mcounteren (s : State) : (s.advance).mcounteren = s.mcounteren := by
  simp [State.advance]
@[simp] theorem State.advance_mscratch (s : State) : (s.advance).mscratch = s.mscratch := by
  simp [State.advance]
@[simp] theorem State.advance_mepc (s : State) : (s.advance).mepc = s.mepc := by
  simp [State.advance]
@[simp] theorem State.advance_mcause (s : State) : (s.advance).mcause = s.mcause := by
  simp [State.advance]
@[simp] theorem State.advance_mtval (s : State) : (s.advance).mtval = s.mtval := by
  simp [State.advance]
@[simp] theorem State.advance_agg (s : State) : (s.advance).agg = s.agg := by
  simp [State.advance]
@[simp] theorem State.advance_uart (s : State) : (s.advance).uart = s.uart := by
  simp [State.advance]
@[simp] theorem State.advance_mem (s : State) : (s.advance).mem = s.mem := by
  simp [State.advance]
@[simp] theorem State.advance_cfg (s : State) : (s.advance).cfg = s.cfg := by
  simp [State.advance]
@[simp] theorem State.advance_host (s : State) : (s.advance).host = s.host := by
  simp [State.advance]
@[simp] theorem State.advance_draws (s : State) : (s.advance).draws = s.draws := by
  simp [State.advance]
@[simp] theorem State.advance_getReg (s : State) (q : Reg) : (s.advance).getReg q = s.getReg q :=
  State.getReg_congr (by simp) q

@[simp] theorem State.writeBack_priv (s : State) (rd : Reg) (v : Word) : (s.writeBack rd v).priv = s.priv := by
  simp [State.writeBack]
@[simp] theorem State.writeBack_engine (s : State) (rd : Reg) (v : Word) : (s.writeBack rd v).engine = s.engine := by
  simp [State.writeBack]
@[simp] theorem State.writeBack_resv (s : State) (rd : Reg) (v : Word) : (s.writeBack rd v).resv = s.resv := by
  simp [State.writeBack]
@[simp] theorem State.writeBack_mstatus (s : State) (rd : Reg) (v : Word) : (s.writeBack rd v).mstatus = s.mstatus := by
  simp [State.writeBack]
@[simp] theorem State.writeBack_mie (s : State) (rd : Reg) (v : Word) : (s.writeBack rd v).mie = s.mie := by
  simp [State.writeBack]
@[simp] theorem State.writeBack_mtvec (s : State) (rd : Reg) (v : Word) : (s.writeBack rd v).mtvec = s.mtvec := by
  simp [State.writeBack]
@[simp] theorem State.writeBack_mcounteren (s : State) (rd : Reg) (v : Word) : (s.writeBack rd v).mcounteren = s.mcounteren := by
  simp [State.writeBack]
@[simp] theorem State.writeBack_mscratch (s : State) (rd : Reg) (v : Word) : (s.writeBack rd v).mscratch = s.mscratch := by
  simp [State.writeBack]
@[simp] theorem State.writeBack_mepc (s : State) (rd : Reg) (v : Word) : (s.writeBack rd v).mepc = s.mepc := by
  simp [State.writeBack]
@[simp] theorem State.writeBack_mcause (s : State) (rd : Reg) (v : Word) : (s.writeBack rd v).mcause = s.mcause := by
  simp [State.writeBack]
@[simp] theorem State.writeBack_mtval (s : State) (rd : Reg) (v : Word) : (s.writeBack rd v).mtval = s.mtval := by
  simp [State.writeBack]
@[simp] theorem State.writeBack_agg (s : State) (rd : Reg) (v : Word) : (s.writeBack rd v).agg = s.agg := by
  simp [State.writeBack]
@[simp] theorem State.writeBack_uart (s : State) (rd : Reg) (v : Word) : (s.writeBack rd v).uart = s.uart := by
  simp [State.writeBack]
@[simp] theorem State.writeBack_mem (s : State) (rd : Reg) (v : Word) : (s.writeBack rd v).mem = s.mem := by
  simp [State.writeBack]
@[simp] theorem State.writeBack_cfg (s : State) (rd : Reg) (v : Word) : (s.writeBack rd v).cfg = s.cfg := by
  simp [State.writeBack]
@[simp] theorem State.writeBack_host (s : State) (rd : Reg) (v : Word) : (s.writeBack rd v).host = s.host := by
  simp [State.writeBack]
@[simp] theorem State.writeBack_draws (s : State) (rd : Reg) (v : Word) : (s.writeBack rd v).draws = s.draws := by
  simp [State.writeBack]

@[simp] theorem State.drawn_regs (s : State) : (s.drawn).regs = s.regs := by
  rfl
@[simp] theorem State.drawn_pc (s : State) : (s.drawn).pc = s.pc := by
  rfl
@[simp] theorem State.drawn_priv (s : State) : (s.drawn).priv = s.priv := by
  rfl
@[simp] theorem State.drawn_engine (s : State) : (s.drawn).engine = s.engine := by
  rfl
@[simp] theorem State.drawn_resv (s : State) : (s.drawn).resv = s.resv := by
  rfl
@[simp] theorem State.drawn_cycle (s : State) : (s.drawn).cycle = s.cycle := by
  rfl
@[simp] theorem State.drawn_instret (s : State) : (s.drawn).instret = s.instret := by
  rfl
@[simp] theorem State.drawn_mstatus (s : State) : (s.drawn).mstatus = s.mstatus := by
  rfl
@[simp] theorem State.drawn_mie (s : State) : (s.drawn).mie = s.mie := by
  rfl
@[simp] theorem State.drawn_mtvec (s : State) : (s.drawn).mtvec = s.mtvec := by
  rfl
@[simp] theorem State.drawn_mcounteren (s : State) : (s.drawn).mcounteren = s.mcounteren := by
  rfl
@[simp] theorem State.drawn_mscratch (s : State) : (s.drawn).mscratch = s.mscratch := by
  rfl
@[simp] theorem State.drawn_mepc (s : State) : (s.drawn).mepc = s.mepc := by
  rfl
@[simp] theorem State.drawn_mcause (s : State) : (s.drawn).mcause = s.mcause := by
  rfl
@[simp] theorem State.drawn_mtval (s : State) : (s.drawn).mtval = s.mtval := by
  rfl
@[simp] theorem State.drawn_agg (s : State) : (s.drawn).agg = s.agg := by
  rfl
@[simp] theorem State.drawn_uart (s : State) : (s.drawn).uart = s.uart := by
  rfl
@[simp] theorem State.drawn_mem (s : State) : (s.drawn).mem = s.mem := by
  rfl
@[simp] theorem State.drawn_cfg (s : State) : (s.drawn).cfg = s.cfg := by
  rfl
@[simp] theorem State.drawn_batchRetired (s : State) : (s.drawn).batchRetired = s.batchRetired := by
  rfl
@[simp] theorem State.drawn_batchLeft (s : State) : (s.drawn).batchLeft = s.batchLeft := by
  rfl
@[simp] theorem State.drawn_host (s : State) : (s.drawn).host = s.host := by
  rfl
@[simp] theorem State.drawn_getReg (s : State) (q : Reg) : (s.drawn).getReg q = s.getReg q :=
  State.getReg_congr (by simp) q

@[simp] theorem State.drawReg_pc (s : State) (rd : Reg) (v : Word) : (s.drawReg rd v).pc = s.pc := by
  unfold State.drawReg; split <;> simp
@[simp] theorem State.drawReg_priv (s : State) (rd : Reg) (v : Word) : (s.drawReg rd v).priv = s.priv := by
  unfold State.drawReg; split <;> simp
@[simp] theorem State.drawReg_engine (s : State) (rd : Reg) (v : Word) : (s.drawReg rd v).engine = s.engine := by
  unfold State.drawReg; split <;> simp
@[simp] theorem State.drawReg_resv (s : State) (rd : Reg) (v : Word) : (s.drawReg rd v).resv = s.resv := by
  unfold State.drawReg; split <;> simp
@[simp] theorem State.drawReg_cycle (s : State) (rd : Reg) (v : Word) : (s.drawReg rd v).cycle = s.cycle := by
  unfold State.drawReg; split <;> simp
@[simp] theorem State.drawReg_instret (s : State) (rd : Reg) (v : Word) : (s.drawReg rd v).instret = s.instret := by
  unfold State.drawReg; split <;> simp
@[simp] theorem State.drawReg_mstatus (s : State) (rd : Reg) (v : Word) : (s.drawReg rd v).mstatus = s.mstatus := by
  unfold State.drawReg; split <;> simp
@[simp] theorem State.drawReg_mie (s : State) (rd : Reg) (v : Word) : (s.drawReg rd v).mie = s.mie := by
  unfold State.drawReg; split <;> simp
@[simp] theorem State.drawReg_mtvec (s : State) (rd : Reg) (v : Word) : (s.drawReg rd v).mtvec = s.mtvec := by
  unfold State.drawReg; split <;> simp
@[simp] theorem State.drawReg_mcounteren (s : State) (rd : Reg) (v : Word) : (s.drawReg rd v).mcounteren = s.mcounteren := by
  unfold State.drawReg; split <;> simp
@[simp] theorem State.drawReg_mscratch (s : State) (rd : Reg) (v : Word) : (s.drawReg rd v).mscratch = s.mscratch := by
  unfold State.drawReg; split <;> simp
@[simp] theorem State.drawReg_mepc (s : State) (rd : Reg) (v : Word) : (s.drawReg rd v).mepc = s.mepc := by
  unfold State.drawReg; split <;> simp
@[simp] theorem State.drawReg_mcause (s : State) (rd : Reg) (v : Word) : (s.drawReg rd v).mcause = s.mcause := by
  unfold State.drawReg; split <;> simp
@[simp] theorem State.drawReg_mtval (s : State) (rd : Reg) (v : Word) : (s.drawReg rd v).mtval = s.mtval := by
  unfold State.drawReg; split <;> simp
@[simp] theorem State.drawReg_agg (s : State) (rd : Reg) (v : Word) : (s.drawReg rd v).agg = s.agg := by
  unfold State.drawReg; split <;> simp
@[simp] theorem State.drawReg_uart (s : State) (rd : Reg) (v : Word) : (s.drawReg rd v).uart = s.uart := by
  unfold State.drawReg; split <;> simp
@[simp] theorem State.drawReg_mem (s : State) (rd : Reg) (v : Word) : (s.drawReg rd v).mem = s.mem := by
  unfold State.drawReg; split <;> simp
@[simp] theorem State.drawReg_cfg (s : State) (rd : Reg) (v : Word) : (s.drawReg rd v).cfg = s.cfg := by
  unfold State.drawReg; split <;> simp
@[simp] theorem State.drawReg_batchRetired (s : State) (rd : Reg) (v : Word) : (s.drawReg rd v).batchRetired = s.batchRetired := by
  unfold State.drawReg; split <;> simp
@[simp] theorem State.drawReg_batchLeft (s : State) (rd : Reg) (v : Word) : (s.drawReg rd v).batchLeft = s.batchLeft := by
  unfold State.drawReg; split <;> simp
@[simp] theorem State.drawReg_host (s : State) (rd : Reg) (v : Word) : (s.drawReg rd v).host = s.host := by
  unfold State.drawReg; split <;> simp

@[simp] theorem State.drawResv_regs (s : State) (r : Option Word) : (s.drawResv r).regs = s.regs := by
  unfold State.drawResv; split <;> rfl
@[simp] theorem State.drawResv_pc (s : State) (r : Option Word) : (s.drawResv r).pc = s.pc := by
  unfold State.drawResv; split <;> rfl
@[simp] theorem State.drawResv_priv (s : State) (r : Option Word) : (s.drawResv r).priv = s.priv := by
  unfold State.drawResv; split <;> rfl
@[simp] theorem State.drawResv_engine (s : State) (r : Option Word) : (s.drawResv r).engine = s.engine := by
  unfold State.drawResv; split <;> rfl
@[simp] theorem State.drawResv_cycle (s : State) (r : Option Word) : (s.drawResv r).cycle = s.cycle := by
  unfold State.drawResv; split <;> rfl
@[simp] theorem State.drawResv_instret (s : State) (r : Option Word) : (s.drawResv r).instret = s.instret := by
  unfold State.drawResv; split <;> rfl
@[simp] theorem State.drawResv_mstatus (s : State) (r : Option Word) : (s.drawResv r).mstatus = s.mstatus := by
  unfold State.drawResv; split <;> rfl
@[simp] theorem State.drawResv_mie (s : State) (r : Option Word) : (s.drawResv r).mie = s.mie := by
  unfold State.drawResv; split <;> rfl
@[simp] theorem State.drawResv_mtvec (s : State) (r : Option Word) : (s.drawResv r).mtvec = s.mtvec := by
  unfold State.drawResv; split <;> rfl
@[simp] theorem State.drawResv_mcounteren (s : State) (r : Option Word) : (s.drawResv r).mcounteren = s.mcounteren := by
  unfold State.drawResv; split <;> rfl
@[simp] theorem State.drawResv_mscratch (s : State) (r : Option Word) : (s.drawResv r).mscratch = s.mscratch := by
  unfold State.drawResv; split <;> rfl
@[simp] theorem State.drawResv_mepc (s : State) (r : Option Word) : (s.drawResv r).mepc = s.mepc := by
  unfold State.drawResv; split <;> rfl
@[simp] theorem State.drawResv_mcause (s : State) (r : Option Word) : (s.drawResv r).mcause = s.mcause := by
  unfold State.drawResv; split <;> rfl
@[simp] theorem State.drawResv_mtval (s : State) (r : Option Word) : (s.drawResv r).mtval = s.mtval := by
  unfold State.drawResv; split <;> rfl
@[simp] theorem State.drawResv_agg (s : State) (r : Option Word) : (s.drawResv r).agg = s.agg := by
  unfold State.drawResv; split <;> rfl
@[simp] theorem State.drawResv_uart (s : State) (r : Option Word) : (s.drawResv r).uart = s.uart := by
  unfold State.drawResv; split <;> rfl
@[simp] theorem State.drawResv_mem (s : State) (r : Option Word) : (s.drawResv r).mem = s.mem := by
  unfold State.drawResv; split <;> rfl
@[simp] theorem State.drawResv_cfg (s : State) (r : Option Word) : (s.drawResv r).cfg = s.cfg := by
  unfold State.drawResv; split <;> rfl
@[simp] theorem State.drawResv_batchRetired (s : State) (r : Option Word) : (s.drawResv r).batchRetired = s.batchRetired := by
  unfold State.drawResv; split <;> rfl
@[simp] theorem State.drawResv_batchLeft (s : State) (r : Option Word) : (s.drawResv r).batchLeft = s.batchLeft := by
  unfold State.drawResv; split <;> rfl
@[simp] theorem State.drawResv_host (s : State) (r : Option Word) : (s.drawResv r).host = s.host := by
  unfold State.drawResv; split <;> rfl
@[simp] theorem State.drawResv_getReg (s : State) (r : Option Word) (q : Reg) : (s.drawResv r).getReg q = s.getReg q :=
  State.getReg_congr (by simp) q

@[simp] theorem State.uartSignal_regs (s : State) : (s.uartSignal).regs = s.regs := by
  rfl
@[simp] theorem State.uartSignal_pc (s : State) : (s.uartSignal).pc = s.pc := by
  rfl
@[simp] theorem State.uartSignal_priv (s : State) : (s.uartSignal).priv = s.priv := by
  rfl
@[simp] theorem State.uartSignal_engine (s : State) : (s.uartSignal).engine = s.engine := by
  rfl
@[simp] theorem State.uartSignal_resv (s : State) : (s.uartSignal).resv = s.resv := by
  rfl
@[simp] theorem State.uartSignal_cycle (s : State) : (s.uartSignal).cycle = s.cycle := by
  rfl
@[simp] theorem State.uartSignal_instret (s : State) : (s.uartSignal).instret = s.instret := by
  rfl
@[simp] theorem State.uartSignal_mstatus (s : State) : (s.uartSignal).mstatus = s.mstatus := by
  rfl
@[simp] theorem State.uartSignal_mie (s : State) : (s.uartSignal).mie = s.mie := by
  rfl
@[simp] theorem State.uartSignal_mtvec (s : State) : (s.uartSignal).mtvec = s.mtvec := by
  rfl
@[simp] theorem State.uartSignal_mcounteren (s : State) : (s.uartSignal).mcounteren = s.mcounteren := by
  rfl
@[simp] theorem State.uartSignal_mscratch (s : State) : (s.uartSignal).mscratch = s.mscratch := by
  rfl
@[simp] theorem State.uartSignal_mepc (s : State) : (s.uartSignal).mepc = s.mepc := by
  rfl
@[simp] theorem State.uartSignal_mcause (s : State) : (s.uartSignal).mcause = s.mcause := by
  rfl
@[simp] theorem State.uartSignal_mtval (s : State) : (s.uartSignal).mtval = s.mtval := by
  rfl
@[simp] theorem State.uartSignal_uart (s : State) : (s.uartSignal).uart = s.uart := by
  rfl
@[simp] theorem State.uartSignal_mem (s : State) : (s.uartSignal).mem = s.mem := by
  rfl
@[simp] theorem State.uartSignal_cfg (s : State) : (s.uartSignal).cfg = s.cfg := by
  rfl
@[simp] theorem State.uartSignal_batchRetired (s : State) : (s.uartSignal).batchRetired = s.batchRetired := by
  rfl
@[simp] theorem State.uartSignal_batchLeft (s : State) : (s.uartSignal).batchLeft = s.batchLeft := by
  rfl
@[simp] theorem State.uartSignal_host (s : State) : (s.uartSignal).host = s.host := by
  rfl
@[simp] theorem State.uartSignal_getReg (s : State) (q : Reg) : (s.uartSignal).getReg q = s.getReg q :=
  State.getReg_congr (by simp) q

@[simp] theorem State.uartWrite_regs (s : State) (r : UartReg) (v : Word) : (s.uartWrite r v).regs = s.regs := by
  unfold State.uartWrite; split <;> rfl
@[simp] theorem State.uartWrite_pc (s : State) (r : UartReg) (v : Word) : (s.uartWrite r v).pc = s.pc := by
  unfold State.uartWrite; split <;> rfl
@[simp] theorem State.uartWrite_priv (s : State) (r : UartReg) (v : Word) : (s.uartWrite r v).priv = s.priv := by
  unfold State.uartWrite; split <;> rfl
@[simp] theorem State.uartWrite_engine (s : State) (r : UartReg) (v : Word) : (s.uartWrite r v).engine = s.engine := by
  unfold State.uartWrite; split <;> rfl
@[simp] theorem State.uartWrite_resv (s : State) (r : UartReg) (v : Word) : (s.uartWrite r v).resv = s.resv := by
  unfold State.uartWrite; split <;> rfl
@[simp] theorem State.uartWrite_cycle (s : State) (r : UartReg) (v : Word) : (s.uartWrite r v).cycle = s.cycle := by
  unfold State.uartWrite; split <;> rfl
@[simp] theorem State.uartWrite_instret (s : State) (r : UartReg) (v : Word) : (s.uartWrite r v).instret = s.instret := by
  unfold State.uartWrite; split <;> rfl
@[simp] theorem State.uartWrite_mstatus (s : State) (r : UartReg) (v : Word) : (s.uartWrite r v).mstatus = s.mstatus := by
  unfold State.uartWrite; split <;> rfl
@[simp] theorem State.uartWrite_mie (s : State) (r : UartReg) (v : Word) : (s.uartWrite r v).mie = s.mie := by
  unfold State.uartWrite; split <;> rfl
@[simp] theorem State.uartWrite_mtvec (s : State) (r : UartReg) (v : Word) : (s.uartWrite r v).mtvec = s.mtvec := by
  unfold State.uartWrite; split <;> rfl
@[simp] theorem State.uartWrite_mcounteren (s : State) (r : UartReg) (v : Word) : (s.uartWrite r v).mcounteren = s.mcounteren := by
  unfold State.uartWrite; split <;> rfl
@[simp] theorem State.uartWrite_mscratch (s : State) (r : UartReg) (v : Word) : (s.uartWrite r v).mscratch = s.mscratch := by
  unfold State.uartWrite; split <;> rfl
@[simp] theorem State.uartWrite_mepc (s : State) (r : UartReg) (v : Word) : (s.uartWrite r v).mepc = s.mepc := by
  unfold State.uartWrite; split <;> rfl
@[simp] theorem State.uartWrite_mcause (s : State) (r : UartReg) (v : Word) : (s.uartWrite r v).mcause = s.mcause := by
  unfold State.uartWrite; split <;> rfl
@[simp] theorem State.uartWrite_mtval (s : State) (r : UartReg) (v : Word) : (s.uartWrite r v).mtval = s.mtval := by
  unfold State.uartWrite; split <;> rfl
@[simp] theorem State.uartWrite_mem (s : State) (r : UartReg) (v : Word) : (s.uartWrite r v).mem = s.mem := by
  unfold State.uartWrite; split <;> rfl
@[simp] theorem State.uartWrite_cfg (s : State) (r : UartReg) (v : Word) : (s.uartWrite r v).cfg = s.cfg := by
  unfold State.uartWrite; split <;> rfl
@[simp] theorem State.uartWrite_batchRetired (s : State) (r : UartReg) (v : Word) : (s.uartWrite r v).batchRetired = s.batchRetired := by
  unfold State.uartWrite; split <;> rfl
@[simp] theorem State.uartWrite_batchLeft (s : State) (r : UartReg) (v : Word) : (s.uartWrite r v).batchLeft = s.batchLeft := by
  unfold State.uartWrite; split <;> rfl
@[simp] theorem State.uartWrite_host (s : State) (r : UartReg) (v : Word) : (s.uartWrite r v).host = s.host := by
  unfold State.uartWrite; split <;> rfl
@[simp] theorem State.uartWrite_uart (s : State) (r : UartReg) (v : Word) :
    (s.uartWrite r v).uart = uartAfterWrite s.uart r v := by
  unfold State.uartWrite; split
  · subst_vars; rfl
  · rfl
@[simp] theorem State.uartWrite_getReg (s : State) (r : UartReg) (v : Word) (q : Reg) : (s.uartWrite r v).getReg q = s.getReg q :=
  State.getReg_congr (by simp) q

@[simp] theorem State.raise_regs (s : State) (c : Cause) (t : Word) : (s.raise c t).regs = s.regs := by
  rfl
@[simp] theorem State.raise_resv (s : State) (c : Cause) (t : Word) : (s.raise c t).resv = s.resv := by
  rfl
@[simp] theorem State.raise_mie (s : State) (c : Cause) (t : Word) : (s.raise c t).mie = s.mie := by
  rfl
@[simp] theorem State.raise_mtvec (s : State) (c : Cause) (t : Word) : (s.raise c t).mtvec = s.mtvec := by
  rfl
@[simp] theorem State.raise_mcounteren (s : State) (c : Cause) (t : Word) : (s.raise c t).mcounteren = s.mcounteren := by
  rfl
@[simp] theorem State.raise_mscratch (s : State) (c : Cause) (t : Word) : (s.raise c t).mscratch = s.mscratch := by
  rfl
@[simp] theorem State.raise_agg (s : State) (c : Cause) (t : Word) : (s.raise c t).agg = s.agg := by
  rfl
@[simp] theorem State.raise_uart (s : State) (c : Cause) (t : Word) : (s.raise c t).uart = s.uart := by
  rfl
@[simp] theorem State.raise_mem (s : State) (c : Cause) (t : Word) : (s.raise c t).mem = s.mem := by
  rfl
@[simp] theorem State.raise_cfg (s : State) (c : Cause) (t : Word) : (s.raise c t).cfg = s.cfg := by
  rfl
@[simp] theorem State.raise_host (s : State) (c : Cause) (t : Word) : (s.raise c t).host = s.host := by
  rfl
@[simp] theorem State.raise_draws (s : State) (c : Cause) (t : Word) : (s.raise c t).draws = s.draws := by
  rfl
@[simp] theorem State.raise_getReg (s : State) (c : Cause) (t : Word) (q : Reg) : (s.raise c t).getReg q = s.getReg q :=
  State.getReg_congr (by simp) q

@[simp] theorem State.trapReturn_regs (s : State) (p : Priv) : (s.trapReturn p).regs = s.regs := by
  simp [State.trapReturn]
@[simp] theorem State.trapReturn_engine (s : State) (p : Priv) : (s.trapReturn p).engine = s.engine := by
  simp [State.trapReturn]
@[simp] theorem State.trapReturn_resv (s : State) (p : Priv) : (s.trapReturn p).resv = s.resv := by
  simp [State.trapReturn]
@[simp] theorem State.trapReturn_mie (s : State) (p : Priv) : (s.trapReturn p).mie = s.mie := by
  simp [State.trapReturn]
@[simp] theorem State.trapReturn_mtvec (s : State) (p : Priv) : (s.trapReturn p).mtvec = s.mtvec := by
  simp [State.trapReturn]
@[simp] theorem State.trapReturn_mcounteren (s : State) (p : Priv) : (s.trapReturn p).mcounteren = s.mcounteren := by
  simp [State.trapReturn]
@[simp] theorem State.trapReturn_mscratch (s : State) (p : Priv) : (s.trapReturn p).mscratch = s.mscratch := by
  simp [State.trapReturn]
@[simp] theorem State.trapReturn_mepc (s : State) (p : Priv) : (s.trapReturn p).mepc = s.mepc := by
  simp [State.trapReturn]
@[simp] theorem State.trapReturn_mcause (s : State) (p : Priv) : (s.trapReturn p).mcause = s.mcause := by
  simp [State.trapReturn]
@[simp] theorem State.trapReturn_mtval (s : State) (p : Priv) : (s.trapReturn p).mtval = s.mtval := by
  simp [State.trapReturn]
@[simp] theorem State.trapReturn_agg (s : State) (p : Priv) : (s.trapReturn p).agg = s.agg := by
  simp [State.trapReturn]
@[simp] theorem State.trapReturn_uart (s : State) (p : Priv) : (s.trapReturn p).uart = s.uart := by
  simp [State.trapReturn]
@[simp] theorem State.trapReturn_mem (s : State) (p : Priv) : (s.trapReturn p).mem = s.mem := by
  simp [State.trapReturn]
@[simp] theorem State.trapReturn_cfg (s : State) (p : Priv) : (s.trapReturn p).cfg = s.cfg := by
  simp [State.trapReturn]
@[simp] theorem State.trapReturn_host (s : State) (p : Priv) : (s.trapReturn p).host = s.host := by
  simp [State.trapReturn]
@[simp] theorem State.trapReturn_draws (s : State) (p : Priv) : (s.trapReturn p).draws = s.draws := by
  simp [State.trapReturn]
@[simp] theorem State.trapReturn_getReg (s : State) (p : Priv) (q : Reg) : (s.trapReturn p).getReg q = s.getReg q :=
  State.getReg_congr (by simp) q

/-! ## What each operation writes -/

@[simp] theorem State.goTo_pc (s : State) (a : Word) : (s.goTo a).pc = a := by simp [State.goTo]

@[simp] theorem State.advance_pc (s : State) : s.advance.pc = s.pc + 4#32 := by simp [State.advance]

@[simp] theorem State.writeBack_pc (s : State) (rd : Reg) (v : Word) : (s.writeBack rd v).pc = s.pc + 4#32 := by
  simp [State.writeBack]

theorem State.writeBack_getReg (s : State) (rd : Reg) (v : Word) (r : Reg) :
    (s.writeBack rd v).getReg r = if r = 0#5 then 0#32 else if r = rd then v else s.getReg r := by
  simp [State.writeBack, State.getReg_setReg]

@[simp] theorem State.trapReturn_pc (s : State) (p : Priv) : (s.trapReturn p).pc = s.mepc := by simp [State.trapReturn]
@[simp] theorem State.trapReturn_priv (s : State) (p : Priv) : (s.trapReturn p).priv = p := by simp [State.trapReturn]
@[simp] theorem State.trapReturn_mstatus (s : State) (p : Priv) :
    (s.trapReturn p).mstatus = mkStatus (privCode .user) true (statusMpie s.mstatus) := by simp [State.trapReturn]

@[simp] theorem State.raise_pc (s : State) (c : Cause) (t : Word) : (s.raise c t).pc = s.mtvec := rfl
@[simp] theorem State.raise_priv (s : State) (c : Cause) (t : Word) : (s.raise c t).priv = .machine := rfl
@[simp] theorem State.raise_engine (s : State) (c : Cause) (t : Word) : (s.raise c t).engine = .running := rfl
@[simp] theorem State.raise_mepc (s : State) (c : Cause) (t : Word) :
    (s.raise c t).mepc = s.pc + mepcOffset s.cfg c := rfl
@[simp] theorem State.raise_mcause (s : State) (c : Cause) (t : Word) : (s.raise c t).mcause = causeCode c := rfl
@[simp] theorem State.raise_mtval (s : State) (c : Cause) (t : Word) : (s.raise c t).mtval = t := rfl
@[simp] theorem State.raise_mstatus (s : State) (c : Cause) (t : Word) :
    (s.raise c t).mstatus = mkStatus (privCode s.priv) (statusMie s.mstatus) false := rfl
@[simp] theorem State.raise_cycle (s : State) (c : Cause) (t : Word) :
    (s.raise c t).cycle = s.cycle + batchGain s.cfg.cycleVisibility s.batchRetired := rfl
@[simp] theorem State.raise_instret (s : State) (c : Cause) (t : Word) :
    (s.raise c t).instret = s.instret + batchGain s.cfg.instretVisibility s.batchRetired := rfl
@[simp] theorem State.raise_batchRetired (s : State) (c : Cause) (t : Word) : (s.raise c t).batchRetired = 0 := rfl
@[simp] theorem State.raise_batchLeft (s : State) (c : Cause) (t : Word) : (s.raise c t).batchLeft = 0 := rfl

@[simp] theorem State.uartSignal_agg (s : State) :
    s.uartSignal.agg = s.agg.signal s.cfg.uartIrq (Config.uartLine s.draws) := rfl
@[simp] theorem State.uartSignal_draws (s : State) : s.uartSignal.draws = s.draws + 1 := rfl
@[simp] theorem State.drawn_draws (s : State) : s.drawn.draws = s.draws + 1 := rfl
@[simp] theorem State.drawReg_draws (s : State) (rd : Reg) (v : Word) : (s.drawReg rd v).draws = s.draws + 1 := by
  unfold State.drawReg; split <;> simp
@[simp] theorem State.drawResv_draws (s : State) (r : Option Word) : (s.drawResv r).draws = s.draws + 1 := by
  unfold State.drawResv; split <;> rfl
theorem State.drawResv_resv (s : State) (r : Option Word) :
    (s.drawResv r).resv = if Config.draw s.draws then r else s.resv := by
  unfold State.drawResv State.draw; split <;> rfl
theorem State.drawReg_getReg (s : State) (rd : Reg) (v : Word) (r : Reg) :
    (s.drawReg rd v).getReg r =
      if r = 0#5 then 0#32 else if r = rd ∧ Config.draw s.draws then v else s.getReg r := by
  unfold State.drawReg State.draw
  by_cases hd : Config.draw s.draws <;> by_cases h0 : r = 0#5 <;> simp [hd, h0, State.getReg_setReg]

/-! ## Retirement (R359) -/

theorem State.retire_cycle (s : State) :
    s.retire.cycle = retiredCounter s.cfg.cycleVisibility s.batchLeft s.batchRetired s.cycle := by
  unfold State.retire retiredCounter
  cases h : s.cfg.cycleVisibility <;> split <;> simp_all [State.endBatch, batchGain, retireGain]

theorem State.retire_instret (s : State) :
    s.retire.instret = retiredCounter s.cfg.instretVisibility s.batchLeft s.batchRetired s.instret := by
  unfold State.retire retiredCounter
  cases h : s.cfg.instretVisibility <;> split <;> simp_all [State.endBatch, batchGain, retireGain]

theorem State.retire_batchRetired (s : State) :
    s.retire.batchRetired = if s.batchLeft ≤ 1 then 0 else s.batchRetired + 1 := by
  unfold State.retire; split <;> simp_all [State.endBatch]

theorem State.retire_batchLeft (s : State) : s.retire.batchLeft = s.batchLeft - 1 := by
  unfold State.retire; split <;> simp_all [State.endBatch]

theorem State.goTo_cycle (s : State) (a : Word) :
    (s.goTo a).cycle = retiredCounter s.cfg.cycleVisibility s.batchLeft s.batchRetired s.cycle := by
  simp [State.goTo, State.retire_cycle]
theorem State.goTo_instret (s : State) (a : Word) :
    (s.goTo a).instret = retiredCounter s.cfg.instretVisibility s.batchLeft s.batchRetired s.instret := by
  simp [State.goTo, State.retire_instret]
theorem State.goTo_batchRetired (s : State) (a : Word) :
    (s.goTo a).batchRetired = if s.batchLeft ≤ 1 then 0 else s.batchRetired + 1 := by
  simp [State.goTo, State.retire_batchRetired]
theorem State.goTo_batchLeft (s : State) (a : Word) :
    (s.goTo a).batchLeft = s.batchLeft - 1 := by
  simp [State.goTo, State.retire_batchLeft]
theorem State.advance_cycle (s : State) :
    (s.advance).cycle = retiredCounter s.cfg.cycleVisibility s.batchLeft s.batchRetired s.cycle := by
  simp [State.advance, State.goTo_cycle]
theorem State.advance_instret (s : State) :
    (s.advance).instret = retiredCounter s.cfg.instretVisibility s.batchLeft s.batchRetired s.instret := by
  simp [State.advance, State.goTo_instret]
theorem State.advance_batchRetired (s : State) :
    (s.advance).batchRetired = if s.batchLeft ≤ 1 then 0 else s.batchRetired + 1 := by
  simp [State.advance, State.goTo_batchRetired]
theorem State.advance_batchLeft (s : State) :
    (s.advance).batchLeft = s.batchLeft - 1 := by
  simp [State.advance, State.goTo_batchLeft]
theorem State.writeBack_cycle (s : State) (rd : Reg) (v : Word) :
    (s.writeBack rd v).cycle = retiredCounter s.cfg.cycleVisibility s.batchLeft s.batchRetired s.cycle := by
  simp [State.writeBack, State.advance_cycle]
theorem State.writeBack_instret (s : State) (rd : Reg) (v : Word) :
    (s.writeBack rd v).instret = retiredCounter s.cfg.instretVisibility s.batchLeft s.batchRetired s.instret := by
  simp [State.writeBack, State.advance_instret]
theorem State.writeBack_batchRetired (s : State) (rd : Reg) (v : Word) :
    (s.writeBack rd v).batchRetired = if s.batchLeft ≤ 1 then 0 else s.batchRetired + 1 := by
  simp [State.writeBack, State.advance_batchRetired]
theorem State.writeBack_batchLeft (s : State) (rd : Reg) (v : Word) :
    (s.writeBack rd v).batchLeft = s.batchLeft - 1 := by
  simp [State.writeBack, State.advance_batchLeft]
theorem State.trapReturn_cycle (s : State) (p : Priv) :
    (s.trapReturn p).cycle = retiredCounter s.cfg.cycleVisibility s.batchLeft s.batchRetired s.cycle := by
  simp [State.trapReturn, State.goTo_cycle]
theorem State.trapReturn_instret (s : State) (p : Priv) :
    (s.trapReturn p).instret = retiredCounter s.cfg.instretVisibility s.batchLeft s.batchRetired s.instret := by
  simp [State.trapReturn, State.goTo_instret]
theorem State.trapReturn_batchRetired (s : State) (p : Priv) :
    (s.trapReturn p).batchRetired = if s.batchLeft ≤ 1 then 0 else s.batchRetired + 1 := by
  simp [State.trapReturn, State.goTo_batchRetired]
theorem State.trapReturn_batchLeft (s : State) (p : Priv) :
    (s.trapReturn p).batchLeft = s.batchLeft - 1 := by
  simp [State.trapReturn, State.goTo_batchLeft]

end Sys2Proof.Machine
end

