-- ==== Sys2Proof/Laws/Ops.lean ====
section
/-! SUPPORT. What each shared operation does, said once, in the terms of Safety: completion, traps, the fields of mstatus, the lowest
set bit, the aggregator, RAM and device accesses, and the CSR protocol. Proofs cite these and unfold no operation. -/

namespace Sys2Proof.Machine

/-! ## The fields of mstatus (R28) -/

theorem statusMpp_mkStatus (p : BitVec 2) (e m : Bool) : statusMpp (mkStatus p e m) = p := by
  unfold statusMpp
  change BitVec.extractLsb' 11 2 (0#19 ++ p ++ 0#3 ++ BitVec.ofBool e ++ 0#3 ++ BitVec.ofBool m ++ 0#3) = p
  simp (disch := omega) only [BitVec.extractLsb'_append_eq_of_le, BitVec.extractLsb'_append_eq_of_add_le, Nat.reduceSub,
    BitVec.extractLsb'_eq_self]

theorem mkStatus_bits : ∀ (p : BitVec 2) (e m : Bool),
    statusMpie (mkStatus p e m) = e ∧ statusMie (mkStatus p e m) = m ∧
    (mkStatus p e m) &&& mstatusMask = mkStatus p e m ∧
    ∀ i : Fin 32, i ≠ 3 → i ≠ 7 → i ≠ 11 → i ≠ 12 → (mkStatus p e m).getLsbD i = false := by
  decide

theorem statusMpie_mkStatus (p : BitVec 2) (e m : Bool) : statusMpie (mkStatus p e m) = e := (mkStatus_bits p e m).1
theorem statusMie_mkStatus (p : BitVec 2) (e m : Bool) : statusMie (mkStatus p e m) = m := (mkStatus_bits p e m).2.1
theorem mkStatus_masked (p : BitVec 2) (e m : Bool) : mkStatus p e m &&& mstatusMask = mkStatus p e m :=
  (mkStatus_bits p e m).2.2.1

theorem mkStatus_reserved (p : BitVec 2) (e m : Bool) (i : Nat) (h3 : i ≠ 3) (h7 : i ≠ 7) (h11 : i ≠ 11) (h12 : i ≠ 12) :
    (mkStatus p e m).getLsbD i = false := by
  by_cases h : i < 32
  · exact (mkStatus_bits p e m).2.2.2 ⟨i, h⟩ (by simpa [Fin.ext_iff] using h3) (by simpa [Fin.ext_iff] using h7)
      (by simpa [Fin.ext_iff] using h11) (by simpa [Fin.ext_iff] using h12)
  · exact BitVec.getLsbD_of_ge _ _ (by omega)

/-- Two status words that differ in MPP only have every other bit in common. -/
theorem mkStatus_mpp (p q : BitVec 2) (e m : Bool) (j : Nat) (h11 : j ≠ 11) (h12 : j ≠ 12) :
    (mkStatus p e m).getLsbD j = (mkStatus q e m).getLsbD j := by
  by_cases h3 : j = 3
  · subst h3
    exact (mkStatus_bits p e m).2.1.trans (mkStatus_bits q e m).2.1.symm
  by_cases h7 : j = 7
  · subst h7
    exact (mkStatus_bits p e m).1.trans (mkStatus_bits q e m).1.symm
  rw [mkStatus_reserved p e m j h3 h7 h11 h12, mkStatus_reserved q e m j h3 h7 h11 h12]

theorem privOfCode_privCode (p : Priv) : privOfCode (privCode p) = some p := by cases p <;> rfl

/-! ## The lowest set bit (R352, R367) -/

theorem lowestSet_eq_some {m : BitVec 32} {i : Nat} :
    lowestSet m = some i ↔ i < 32 ∧ m.getLsbD i = true ∧ ∀ j, j < i → m.getLsbD j = false := by
  unfold lowestSet
  rw [List.find?_range_eq_some]
  simp only [List.mem_range, Bool.not_eq_true']
  constructor
  · rintro ⟨h1, h2, h3⟩
    exact ⟨h2, h1, h3⟩
  · rintro ⟨h1, h2, h3⟩
    exact ⟨h2, h1, h3⟩

theorem lowestSet_eq_none {m : BitVec 32} : lowestSet m = none ↔ m = 0#32 := by
  unfold lowestSet
  rw [List.find?_eq_none]
  constructor
  · intro h
    apply BitVec.eq_of_getLsbD_eq
    intro i hi
    simpa using h i (by simpa using hi)
  · rintro rfl i _
    simp

/-! ## Completion: what a completed instruction leaves -/

theorem retired_goTo (s : State) (a : Word) : Retired s (s.goTo a) :=
  ⟨s.goTo_cycle a, s.goTo_instret a, s.goTo_batchRetired a, s.goTo_batchLeft a⟩

theorem retired_advance (s : State) : Retired s s.advance := retired_goTo s _

theorem retired_writeBack (s : State) (rd : Reg) (v : Word) : Retired s (s.writeBack rd v) :=
  ⟨s.writeBack_cycle rd v, s.writeBack_instret rd v, s.writeBack_batchRetired rd v, s.writeBack_batchLeft rd v⟩

theorem retired_link (s : State) (rd : Reg) (v a : Word) : Retired s ((s.setReg rd v).goTo a) := by
  simp [Retired, State.goTo_cycle, State.goTo_instret, State.goTo_batchRetired, State.goTo_batchLeft]

theorem regWritten_writeBack (s : State) (rd : Reg) (v : Word) : RegWritten s (s.writeBack rd v) rd v :=
  s.writeBack_getReg rd v

theorem quiet_goTo (s : State) (a : Word) : Quiet s (s.goTo a) := by
  simp [Quiet, SameCsrs, SameDevices, SameControl]

theorem quiet_writeBack (s : State) (rd : Reg) (v : Word) : Quiet s (s.writeBack rd v) := by
  simp [Quiet, SameCsrs, SameDevices, SameControl]

theorem quiet_link (s : State) (rd : Reg) (v a : Word) : Quiet s ((s.setReg rd v).goTo a) := by
  simp [Quiet, SameCsrs, SameDevices, SameControl]

/-- An instruction that writes back `v` computes `v`. -/
theorem computes_writeBack {w : Word} {i : Instr} {s : State} {rd : Reg} {v : Word} (hd : decodeWord w = .ok i)
    (he : exec i s = .next (s.writeBack rd v)) : Computes w i s rd v (s.pc + 4#32) :=
  ⟨hd, _, he, regWritten_writeBack s rd v, by simp, retired_writeBack s rd v, quiet_writeBack s rd v, fun _ => by simp⟩

/-- An instruction that links and jumps. -/
theorem computes_link {w : Word} {i : Instr} {s : State} {rd : Reg} {v a : Word} (hd : decodeWord w = .ok i)
    (he : exec i s = .next ((s.setReg rd v).goTo a)) : Computes w i s rd v a :=
  ⟨hd, _, he, fun r => by simp [State.getReg_setReg], by simp, retired_link s rd v a, quiet_link s rd v a, fun _ => by simp⟩

/-- An instruction that writes no register and goes to `a`. -/
theorem proceeds_goTo {w : Word} {i : Instr} {s : State} {a : Word} (hd : decodeWord w = .ok i)
    (he : exec i s = .next (s.goTo a)) : Proceeds w i s a :=
  ⟨hd, _, he, fun _ => by simp, by simp, retired_goTo s a, quiet_goTo s a, fun _ => by simp⟩

/-! ## Traps (R340, R354) -/

/-- Taking a trap, in full. -/
theorem trapTaken_raise (s : State) (c : Cause) (v : Word) :
    TrapTaken s (s.raise c v) (causeCode c) v (s.pc + mepcOffset s.cfg c) := by
  refine ⟨by simp, by simp, by simp, ?_, ?_, ?_, ?_, by simp, by simp, by simp, by simp, by simp, ?_, ?_, by simp, by simp,
    by simp, by simp, by simp, by simp⟩
  · simp [statusMpie_mkStatus]
  · simp [statusMpp_mkStatus]
  · simp [statusMie_mkStatus]
  · intro i h3 h7 h11 h12
    simp [mkStatus_reserved _ _ _ i h3 h7 h11 h12]
  · simp [trappedCounter, batchGain]; cases s.cfg.cycleVisibility <;> simp
  · simp [trappedCounter, batchGain]; cases s.cfg.instretVisibility <;> simp

/-- A trap that is not an interrupt has mepc = pc (R354). -/
theorem trapTaken_raise_exception (s : State) (c : Cause) (v : Word) (h : mepcOffset s.cfg c = 0#32) :
    TrapTaken s (s.raise c v) (causeCode c) v s.pc := by
  simpa [h] using trapTaken_raise s c v

/-- A raise that nothing precedes is precise (R349). -/
theorem traps_raise (s : State) (c : Cause) (v : Word) (h : mepcOffset s.cfg c = 0#32) :
    Traps s (s.raise c v) (causeCode c) v :=
  ⟨trapTaken_raise_exception s c v h, fun _ => by simp, by simp, fun _ => by simp, by simp [SameDevices]⟩

/-- A draw of a register before the raise changes nothing of what the trap saves (R348). -/
theorem trapTaken_of_drawReg {s t : State} {rd : Reg} {x c v p : Word} (h : TrapTaken (s.drawReg rd x) t c v p) :
    TrapTaken s t c v p := by
  simpa only [TrapTaken, State.drawReg_priv, State.drawReg_mstatus, State.drawReg_mtvec, State.drawReg_cfg,
    State.drawReg_batchRetired, State.drawReg_cycle, State.drawReg_instret, State.drawReg_mie, State.drawReg_mcounteren,
    State.drawReg_mscratch, State.drawReg_host] using h

/-- Nor does a draw of the reservation. -/
theorem trapTaken_of_drawResv {s t : State} {r : Option Word} {c v p : Word} (h : TrapTaken (s.drawResv r) t c v p) :
    TrapTaken s t c v p := by
  simpa only [TrapTaken, State.drawResv_priv, State.drawResv_mstatus, State.drawResv_mtvec, State.drawResv_cfg,
    State.drawResv_batchRetired, State.drawResv_cycle, State.drawResv_instret, State.drawResv_mie,
    State.drawResv_mcounteren, State.drawResv_mscratch, State.drawResv_host] using h

/-- A drawn register holds its value before or the new one (R348). -/
theorem drawReg_regs (s : State) (rd : Reg) (v : Word) :
    SameRegs s (s.drawReg rd v) ∨ RegWritten s (s.drawReg rd v) rd v := by
  unfold State.drawReg
  split
  · exact .inr fun r => by rw [State.getReg_setReg, State.drawn_getReg]
  · exact .inl fun r => by simp

/-- A drawn reservation is as it was or the new one (R348). -/
theorem drawResv_cases (s : State) (r : Option Word) : (s.drawResv r).resv = s.resv ∨ (s.drawResv r).resv = r := by
  rw [State.drawResv_resv]
  split
  · exact .inr rfl
  · exact .inl rfl

/-! ## The aggregator (R364 to R368) -/

theorem one_shiftLeft_getLsbD (i j : Nat) (hi : i < 32) : ((1#32 <<< i).getLsbD j) = decide (j = i) := by
  rw [BitVec.getLsbD_shiftLeft]
  by_cases h : j = i
  · subst h; simp [hi]
  · by_cases h2 : j < i
    · simp [h, h2]
    · have : j - i ≠ 0 := by omega
      simp [h, h2, BitVec.getLsbD_one, this]

theorem Aggregator.signal_pending (g : Aggregator) (i : Nat) (hi : i < 32) (level : Bool) (j : Nat) :
    (g.signal i level).pending.getLsbD j = if j = i then level else g.pending.getLsbD j := by
  unfold Aggregator.signal
  by_cases hj : j < 32
  · cases level
    · simp only [Bool.false_eq_true, if_false, BitVec.getLsbD_and, BitVec.getLsbD_not, one_shiftLeft_getLsbD i j hi, hj]
      by_cases h : j = i <;> simp [h]
    · simp only [if_true, BitVec.getLsbD_or, one_shiftLeft_getLsbD i j hi]
      by_cases h : j = i <;> simp [h]
  · have h : j ≠ i := by omega
    simp [h, BitVec.getLsbD_of_ge _ j (Nat.le_of_not_lt hj)]

@[simp] theorem Aggregator.signal_served (g : Aggregator) (i : Nat) (level : Bool) :
    (g.signal i level).served = g.served := by
  unfold Aggregator.signal; split <;> rfl

@[simp] theorem Aggregator.claim_pending (g : Aggregator) : g.claim.2.pending = g.pending := by
  unfold Aggregator.claim; split <;> rfl

@[simp] theorem Aggregator.complete_pending (g : Aggregator) (v : Word) : (g.complete v).pending = g.pending := by
  unfold Aggregator.complete; split <;> rfl

/-- mip (R33, R366): MEIP is the aggregator's output, every other bit is 0. -/
theorem State.mip_getLsbD (s : State) (i : Nat) : s.mip.getLsbD i = (decide (i = 11) && decide (s.agg.pending ≠ 0#32)) := by
  unfold State.mip Aggregator.output meip
  by_cases h : s.agg.pending = 0#32
  · simp [h]
  · simp only [h, bne_iff_ne, ne_eq, not_false_eq_true, if_true, decide_true, Bool.and_true]
    by_cases hi : i < 32
    · have : ∀ k : Fin 32, (0x00000800#32).getLsbD k = decide (k.val = 11) := by decide
      exact this ⟨i, hi⟩
    · rw [BitVec.getLsbD_of_ge _ _ (by omega)]
      simp; omega

/-- Sampling (R350 to R352): the only interrupt is number 11, taken exactly when it is ready. -/
theorem State.interrupt_eq (s : State) : s.interrupt = if InterruptReady s then some 11 else none := by
  unfold State.interrupt InterruptReady statusMie
  by_cases hm : s.mstatus.getLsbD 3 = true
  · rw [if_pos hm]
    by_cases h : s.mie.getLsbD 11 = true ∧ s.agg.pending ≠ 0#32
    · rw [if_pos ⟨hm, h⟩, lowestSet_eq_some]
      refine ⟨by omega, by simp only [BitVec.getLsbD_and, State.mip_getLsbD]; simpa using h, fun j hj => ?_⟩
      have : j ≠ 11 := by omega
      simp only [BitVec.getLsbD_and, State.mip_getLsbD]
      simp [this]
    · rw [if_neg (fun k => h k.2), lowestSet_eq_none]
      apply BitVec.eq_of_getLsbD_eq
      intro j hj
      simp only [BitVec.getLsbD_and, State.mip_getLsbD]
      by_cases e : j = 11
      · subst e
        simpa using fun h1 => Classical.not_not.mp fun h2 => h ⟨h1, h2⟩
      · simp [e]
  · rw [if_neg hm, if_neg (fun k => hm k.1)]

/-! ## The bytes of RAM (R64 to R66) -/

theorem Mem.ofNat_readLE_one (m : Mem) (a : Nat) : BitVec.ofNat 32 (Mem.readLE m a 1) = 0#24 ++ Mem.read m a := by
  apply BitVec.eq_of_toNat_eq
  have := (Mem.read m a).isLt
  simp only [Mem.readLE, BitVec.toNat_ofNat, BitVec.toNat_append, Nat.zero_shiftLeft, Nat.zero_mod, Nat.zero_or]
  omega

theorem Mem.ofNat_readLE_two (m : Mem) (a : Nat) :
    BitVec.ofNat 32 (Mem.readLE m a 2) = 0#16 ++ Mem.read m (a + 1) ++ Mem.read m a := by
  apply BitVec.eq_of_toNat_eq
  have h0 := (Mem.read m a).isLt
  have h1 := (Mem.read m (a + 1)).isLt
  rw [BitVec.toNat_append, ← Nat.shiftLeft_add_eq_or_of_lt h0, BitVec.toNat_append, ← Nat.shiftLeft_add_eq_or_of_lt h1]
  simp only [Mem.readLE, BitVec.toNat_ofNat, Nat.shiftLeft_eq]
  omega

theorem Mem.ofNat_readLE_four (m : Mem) (a : Nat) :
    BitVec.ofNat 32 (Mem.readLE m a 4) =
      Mem.read m (a + 3) ++ Mem.read m (a + 2) ++ Mem.read m (a + 1) ++ Mem.read m a := by
  apply BitVec.eq_of_toNat_eq
  have h0 := (Mem.read m a).isLt
  have h1 := (Mem.read m (a + 1)).isLt
  have h2 := (Mem.read m (a + 2)).isLt
  have h3 := (Mem.read m (a + 3)).isLt
  rw [BitVec.toNat_append, ← Nat.shiftLeft_add_eq_or_of_lt h0, BitVec.toNat_append, ← Nat.shiftLeft_add_eq_or_of_lt h1,
    BitVec.toNat_append, ← Nat.shiftLeft_add_eq_or_of_lt h2]
  simp only [Mem.readLE, BitVec.toNat_ofNat, Nat.shiftLeft_eq, Nat.add_assoc, Nat.reduceAdd]
  omega

/-- What a store leaves in RAM, byte by byte. -/
theorem stored_writeLE (s t : State) (a n : Nat) (v : Word) (h : t.mem = Mem.writeLE s.mem a v.toNat n) :
    Stored s t a n v := by
  constructor
  · intro i hi
    rw [h, Mem.read_writeLE, if_pos (by omega)]
    apply BitVec.eq_of_toNat_eq
    rw [BitVec.toNat_ofNat, BitVec.extractLsb'_toNat, Nat.add_sub_cancel_left, Nat.shiftRight_eq_div_pow, pow_mul]
    norm_num
  · intro x hx
    rw [h, Mem.read_writeLE, if_neg (by omega)]

/-! ## Classes of an access (R63) -/

theorem regNoOf_toNat (a : Word) : (regNoOf a).toNat = a.toNat % 2 ^ 24 := by
  simp [regNoOf, BitVec.extractLsb'_toNat]

theorem regNoOf_eq_iff (a : Word) (r : BitVec 24) : regNoOf a = r ↔ a.toNat % 2 ^ 24 = r.toNat := by
  rw [← BitVec.toNat_inj, regNoOf_toNat]

theorem classify_inRam {a : Word} {w : Width} (h : InRam a (bytesOf w)) : classify a w = .ram := if_pos h

theorem classify_device {a : Word} {w : Width} (h : 0xC0000000 ≤ a.toNat) (hr : a.toNat % 2 ^ 24 + bytesOf w ≤ 2 ^ 24) :
    classify a w = .device (slotOf a) (regNoOf a) := by
  have hw : 1 ≤ bytesOf w := by cases w <;> decide
  unfold classify
  rw [if_neg (by unfold Config.ramEnd; omega), if_pos ⟨h, by rw [regNoOf_toNat]; exact hr⟩]

theorem classify_split {a : Word} {w : Width} (h : ¬ InRam a (bytesOf w))
    (hs : a.toNat < 0xC0000000 ∨ 2 ^ 24 < a.toNat % 2 ^ 24 + bytesOf w) : classify a w = .split := by
  unfold classify
  rw [if_neg (show ¬ _ ≤ Config.ramEnd from h), if_neg (by rw [regNoOf_toNat]; unfold Config.ramEnd; omega)]

/-! ## Reads and writes (R67 to R70) -/

theorem State.memRead_inRam (s : State) {a : Word} {w : Width} (h : InRam a (bytesOf w)) :
    s.memRead a w = some (BitVec.ofNat 32 (Mem.readLE s.mem a.toNat (bytesOf w)), s) := by
  simp [State.memRead, classify_inRam h]

theorem State.memWrite_inRam (s : State) {a : Word} {w : Width} (v : Word) (h : InRam a (bytesOf w)) :
    s.memWrite a w v = some { s with mem := Mem.writeLE s.mem a.toNat v.toNat (bytesOf w) } := by
  simp [State.memWrite, classify_inRam h]

theorem AtClaimRegister.classify {s : State} {a : Word} (h : AtClaimRegister s a) :
    classify a .word = .device (slotOf a) (regNoOf a) := by
  have := (regNoOf_eq_iff a 4#24).mp h.2.2
  exact classify_device h.1 (by rw [this]; decide)

theorem State.memRead_claim {s : State} {a : Word} (h : AtClaimRegister s a) :
    s.memRead a .word = some (s.agg.claim.1, { s with agg := s.agg.claim.2 }) := by
  have hr : regNoOf a = aggClaimReg := h.2.2
  simp [State.memRead, h.classify, State.deviceRead, h.2.1, hr]

theorem State.memWrite_complete {s : State} {a : Word} (v : Word) (h : AtClaimRegister s a) :
    s.memWrite a .word v = some { s with agg := s.agg.complete v } := by
  have hr : regNoOf a = aggClaimReg := h.2.2
  simp [State.memWrite, h.classify, State.deviceWrite, h.2.1, hr]

theorem uartRegOf_fits {r : BitVec 24} {u : UartReg} (h : uartRegOf r = some u) : r.toNat ≤ 0x18 := by
  unfold uartRegOf at h
  split at h
  · subst_vars; decide
  repeat' first
    | (split at h; · subst_vars; decide)
    | cases h

theorem AtUart.classify {s : State} {d : Dir} {a : Word} {u : UartReg} {w : Width} (h : AtUart s d a u w) :
    classify a w = .device (slotOf a) (regNoOf a) := by
  have h1 := uartRegOf_fits h.2.2.2.1
  rw [regNoOf_toNat] at h1
  have : bytesOf w ≤ 4 := by cases w <;> decide
  exact classify_device h.1 (by omega)

theorem State.memRead_uart {s : State} {a : Word} {u : UartReg} {w : Width} (h : AtUart s .read a u w) :
    s.memRead a w = some (lowBytes w (uartReadValue s.uart u (Config.uartOracle s.draws)),
      State.uartSignal { s with uart := uartAfterRead s.uart u }) := by
  have hs : ¬ s.cfg.uartSlot = s.cfg.aggSlot := fun e => h.2.1 (h.2.2.1.trans e)
  simp [State.memRead, h.classify, State.deviceRead, h.2.2.1, hs, h.2.2.2.1, h.2.2.2.2]

theorem State.uartWrite_divisor (s : State) (v : Word) : s.uartWrite .baudDivisor v = s := rfl

theorem State.uartWrite_signals (s : State) {r : UartReg} (v : Word) (h : r ≠ .baudDivisor) :
    s.uartWrite r v = State.uartSignal { s with uart := uartAfterWrite s.uart r v } := if_neg h

/-- A write to the UART leaves everything but the devices. -/
theorem State.uartWrite_frame (s : State) (r : UartReg) (v : Word) :
    ∃ g ut d, s.uartWrite r v = { s with agg := g, uart := ut, draws := d } := by
  by_cases h : r = .baudDivisor
  · exact ⟨s.agg, s.uart, s.draws, h ▸ s.uartWrite_divisor v⟩
  · exact ⟨_, _, _, s.uartWrite_signals v h⟩

theorem State.memWrite_uart {s : State} {a : Word} {u : UartReg} {w : Width} (v : Word) (h : AtUart s .write a u w) :
    s.memWrite a w v = some (s.uartWrite u (lowBytes w v)) := by
  have hs : ¬ s.cfg.uartSlot = s.cfg.aggSlot := fun e => h.2.1 (h.2.2.1.trans e)
  simp [State.memWrite, h.classify, State.deviceWrite, h.2.2.1, hs, h.2.2.2.1, h.2.2.2.2]

/-- Every access is in RAM, at the claim register, at a UART register, or refused. -/
theorem access_classes (s : State) (d : Dir) (a : Word) (w : Width) :
    InRam a (bytesOf w) ∨ (AtClaimRegister s a ∧ w = .word) ∨ (∃ u, AtUart s d a u w) ∨ Refused s d a w := by
  by_cases h : InRam a (bytesOf w)
  · exact .inl h
  refine .inr ?_
  by_cases hs : a.toNat < 0xC0000000 ∨ 2 ^ 24 < a.toNat % 2 ^ 24 + bytesOf w
  · rcases hs with hs | hs
    · exact .inr (.inr ⟨h, .inl hs⟩)
    · exact .inr (.inr ⟨h, .inr (.inl hs)⟩)
  have hd : 0xC0000000 ≤ a.toNat := by omega
  by_cases ha : slotOf a = s.cfg.aggSlot
  · by_cases hr : a.toNat % 2 ^ 24 = 4 ∧ w = .word
    · exact .inl ⟨⟨hd, ha, (regNoOf_eq_iff a 4#24).mpr hr.1⟩, hr.2⟩
    · exact .inr (.inr ⟨h, .inr (.inr (.inr (.inl ⟨ha, hr⟩)))⟩)
  by_cases hu : slotOf a = s.cfg.uartSlot
  · by_cases hp : ∃ u, uartRegOf (regNoOf a) = some u ∧ (⟨d, u, w⟩ : UartPort) ∈ s.cfg.uartWidths
    · obtain ⟨u, h1, h2⟩ := hp
      exact .inr (.inl ⟨u, hd, ha, hu, h1, h2⟩)
    · exact .inr (.inr ⟨h, .inr (.inr (.inr (.inr ⟨ha, hu, fun u h1 h2 => hp ⟨u, h1, h2⟩⟩)))⟩)
  · exact .inr (.inr ⟨h, .inr (.inr (.inl ⟨ha, hu⟩))⟩)

theorem State.memRead_refused {s : State} {a : Word} {w : Width} (h : Refused s .read a w) : s.memRead a w = none := by
  obtain ⟨hn, h⟩ := h
  by_cases hs : a.toNat < 0xC0000000 ∨ 2 ^ 24 < a.toNat % 2 ^ 24 + bytesOf w
  · simp [State.memRead, classify_split hn hs]
  have hc := classify_device (a := a) (w := w) (by omega) (by omega)
  simp only [State.memRead, hc, State.deviceRead]
  rcases h with h | h | ⟨h1, h2⟩ | ⟨h1, h2⟩ | ⟨h1, h2, h3⟩
  · exact absurd (.inl h) hs
  · exact absurd (.inr h) hs
  · rw [if_neg h1, if_neg h2]
  · rw [if_pos h1, if_neg (fun k => h2 ⟨(regNoOf_eq_iff a 4#24).mp k.1, k.2⟩)]
  · rw [if_neg h1, if_pos h2]
    split
    · rfl
    · rw [if_neg (h3 _ ‹_›)]

theorem State.memWrite_refused {s : State} {a : Word} {w : Width} (v : Word) (h : Refused s .write a w) :
    s.memWrite a w v = none := by
  obtain ⟨hn, h⟩ := h
  by_cases hs : a.toNat < 0xC0000000 ∨ 2 ^ 24 < a.toNat % 2 ^ 24 + bytesOf w
  · simp [State.memWrite, classify_split hn hs]
  have hc := classify_device (a := a) (w := w) (by omega) (by omega)
  simp only [State.memWrite, hc, State.deviceWrite]
  rcases h with h | h | ⟨h1, h2⟩ | ⟨h1, h2⟩ | ⟨h1, h2, h3⟩
  · exact absurd (.inl h) hs
  · exact absurd (.inr h) hs
  · rw [if_neg h1, if_neg h2]
  · rw [if_pos h1, if_neg (fun k => h2 ⟨(regNoOf_eq_iff a 4#24).mp k.1, k.2⟩)]
  · rw [if_neg h1, if_pos h2]
    split
    · rfl
    · rw [if_neg (h3 _ ‹_›)]

/-- All a successful read can be and do. -/
theorem State.memRead_cases {s u : State} {a v : Word} {w : Width} (h : s.memRead a w = some (v, u)) :
    (InRam a (bytesOf w) ∧ v = BitVec.ofNat 32 (Mem.readLE s.mem a.toNat (bytesOf w)) ∧ u = s) ∨
    (AtClaimRegister s a ∧ w = .word ∧ v = s.agg.claim.1 ∧ u = { s with agg := s.agg.claim.2 }) ∨
    (∃ r, AtUart s .read a r w ∧ v = lowBytes w (uartReadValue s.uart r (Config.uartOracle s.draws)) ∧
      u = State.uartSignal { s with uart := uartAfterRead s.uart r }) := by
  rcases access_classes s .read a w with hr | ⟨hc, rfl⟩ | ⟨r, hu⟩ | hf
  · rw [State.memRead_inRam s hr] at h
    obtain ⟨rfl, rfl⟩ := Prod.mk.inj (Option.some.inj h)
    exact .inl ⟨hr, rfl, rfl⟩
  · rw [State.memRead_claim hc] at h
    obtain ⟨rfl, rfl⟩ := Prod.mk.inj (Option.some.inj h)
    exact .inr (.inl ⟨hc, rfl, rfl, rfl⟩)
  · rw [State.memRead_uart hu] at h
    obtain ⟨rfl, rfl⟩ := Prod.mk.inj (Option.some.inj h)
    exact .inr (.inr ⟨r, hu, rfl, rfl⟩)
  · rw [State.memRead_refused hf] at h
    cases h

/-- All a successful write can be and do. -/
theorem State.memWrite_cases {s u : State} {a v : Word} {w : Width} (h : s.memWrite a w v = some u) :
    (InRam a (bytesOf w) ∧ u = { s with mem := Mem.writeLE s.mem a.toNat v.toNat (bytesOf w) }) ∨
    (AtClaimRegister s a ∧ w = .word ∧ u = { s with agg := s.agg.complete v }) ∨
    (∃ r, AtUart s .write a r w ∧ u = s.uartWrite r (lowBytes w v)) := by
  rcases access_classes s .write a w with hr | ⟨hc, rfl⟩ | ⟨r, hu⟩ | hf
  · rw [State.memWrite_inRam s v hr] at h
    exact .inl ⟨hr, (Option.some.inj h).symm⟩
  · rw [State.memWrite_complete v hc] at h
    exact .inr (.inl ⟨hc, rfl, (Option.some.inj h).symm⟩)
  · rw [State.memWrite_uart v hu] at h
    exact .inr (.inr ⟨r, hu, (Option.some.inj h).symm⟩)
  · rw [State.memWrite_refused v hf] at h
    cases h

/-- A read leaves everything but the devices. -/
theorem State.memRead_frame {s u : State} {a v : Word} {w : Width} (h : s.memRead a w = some (v, u)) :
    ∃ g ut d, u = { s with agg := g, uart := ut, draws := d } := by
  rcases State.memRead_cases h with ⟨-, -, rfl⟩ | ⟨-, -, -, rfl⟩ | ⟨r, -, -, rfl⟩
  · exact ⟨_, _, _, rfl⟩
  · exact ⟨_, _, _, rfl⟩
  · exact ⟨_, _, _, rfl⟩

/-- A write leaves everything but RAM and the devices. -/
theorem State.memWrite_frame {s u : State} {a v : Word} {w : Width} (h : s.memWrite a w v = some u) :
    ∃ m g ut d, u = { s with mem := m, agg := g, uart := ut, draws := d } := by
  rcases State.memWrite_cases h with ⟨-, rfl⟩ | ⟨-, -, rfl⟩ | ⟨r, -, rfl⟩
  · exact ⟨_, _, _, _, rfl⟩
  · exact ⟨_, _, _, _, rfl⟩
  · obtain ⟨g, ut, d, hf⟩ := s.uartWrite_frame r (lowBytes w v)
    exact ⟨_, g, ut, d, hf⟩

/-- The fetch of R71. -/
theorem State.fetch_inRam {s : State} (h : InRam s.pc 4) : s.fetch s.pc = some (wordAtPc s) := by
  unfold State.fetch
  rw [if_pos (show _ ≤ Config.ramEnd from h), Mem.ofNat_readLE_four]
  rfl

theorem State.fetch_outside {s : State} (h : ¬ InRam s.pc 4) : s.fetch s.pc = none := if_neg h

end Sys2Proof.Machine
end

