-- ==== Sys2Proof/Laws/Csr.lean ====
section
/-! SUPPORT. What the CSR protocol answers (48_system R300 to R306), in the terms of Safety, for every number. -/

namespace Sys2Proof.Machine

/-- mstatus as R305 writes it is the stored word under its mask. -/
theorem statusShown_eq (m : Word) :
    0#19 ++ m.extractLsb' 11 2 ++ 0#3 ++ m.extractLsb' 7 1 ++ 0#3 ++ m.extractLsb' 3 1 ++ 0#3 = m &&& mstatusMask := by
  apply BitVec.eq_of_getLsbD_eq
  intro i hi
  have e : (m &&& mstatusMask).getLsbD i = (m.getLsbD i && mstatusMask.getLsbD i) := BitVec.getLsbD_and
  rw [e]
  simp only [BitVec.getLsbD_append, BitVec.getLsbD_extractLsb', BitVec.getLsbD_zero]
  interval_cases i <;> simp [mstatusMask]

theorem csrOf_eq_none {c : CsrNum} : csrOf c = none ↔ c ∉ csrNumbers := by
  unfold csrOf csrNumbers
  simp only [List.mem_cons, List.not_mem_nil, or_false, not_or]
  constructor
  · intro h
    refine ⟨?_, ?_, ?_, ?_, ?_, ?_, ?_, ?_, ?_, ?_, ?_, ?_, ?_, ?_⟩ <;> (rintro rfl; revert h; decide)
  · rintro ⟨h0, h1, h2, h3, h4, h5, h6, h7, h8, h9, h10, h11, h12, h13⟩
    simp only [h0, h1, h2, h3, h4, h5, h6, h7, h8, h9, h10, h11, h12, h13, if_false]

/-- A read shows what R305 says. -/
theorem State.csrRead_eq (s : State) {c : CsrNum} {r : Csr} (h : csrOf c = some r) : s.csrRead r = csrShown s c := by
  have hc : c ∈ csrNumbers := by
    by_contra hn
    rw [csrOf_eq_none.mpr hn] at h
    cases h
  simp only [csrNumbers, List.mem_cons, List.not_mem_nil, or_false] at hc
  rcases hc with rfl | rfl | rfl | rfl | rfl | rfl | rfl | rfl | rfl | rfl | rfl | rfl | rfl | rfl <;>
    (cases h; try rfl)
  · exact (statusShown_eq s.mstatus).symm
  · change s.mip = if s.agg.pending = 0#32 then 0#32 else 0x00000800#32
    unfold State.mip Aggregator.output meip
    by_cases hp : s.agg.pending = 0#32 <;> simp [hp]

/-- A write leaves what R306 says, and nothing but the eight writable CSRs can differ. -/
theorem State.csrWrite_written (s : State) {c : CsrNum} {r : Csr} (h : csrOf c = some r) (v : Word) :
    CsrWritten s (s.csrWrite r v) c v ∧
    ∃ m e tv mc ms mp ca va, s.csrWrite r v =
      { s with mstatus := m, mie := e, mtvec := tv, mcounteren := mc, mscratch := ms, mepc := mp, mcause := ca, mtval := va } := by
  have hc : c ∈ csrNumbers := by
    by_contra hn
    rw [csrOf_eq_none.mpr hn] at h
    cases h
  simp only [csrNumbers, List.mem_cons, List.not_mem_nil, or_false] at hc
  rcases hc with rfl | rfl | rfl | rfl | rfl | rfl | rfl | rfl | rfl | rfl | rfl | rfl | rfl | rfl <;> cases h <;>
    exact ⟨⟨rfl, rfl, rfl, rfl, rfl, rfl, rfl, rfl⟩, _, _, _, _, _, _, _, _, rfl⟩

/-- The counter gate in the words of R303. -/
theorem csrCounterOk_iff {c : CsrNum} {r : Csr} (h : csrOf c = some r) (p : Priv) (m : Word) :
    csrCounterOk p m r = true ↔
      (p ≠ .machine → c = 0xC00#12 ∨ c = 0xC80#12 → m.getLsbD 0 = true) ∧
      (p ≠ .machine → c = 0xC02#12 ∨ c = 0xC82#12 → m.getLsbD 2 = true) := by
  have hc : c ∈ csrNumbers := by
    by_contra hn
    rw [csrOf_eq_none.mpr hn] at h
    cases h
  simp only [csrNumbers, List.mem_cons, List.not_mem_nil, or_false] at hc
  rcases hc with rfl | rfl | rfl | rfl | rfl | rfl | rfl | rfl | rfl | rfl | rfl | rfl | rfl | rfl <;> cases h <;>
    cases p <;> simp [csrCounterOk]

/-- The number of misa is 0x301. -/
theorem csrOf_misa {c : CsrNum} {r : Csr} (h : csrOf c = some r) : r = .misa ↔ c = 0x301#12 := by
  have hc : c ∈ csrNumbers := by
    by_contra hn
    rw [csrOf_eq_none.mpr hn] at h
    cases h
  simp only [csrNumbers, List.mem_cons, List.not_mem_nil, or_false] at hc
  rcases hc with rfl | rfl | rfl | rfl | rfl | rfl | rfl | rfl | rfl | rfl | rfl | rfl | rfl | rfl <;> cases h <;> decide

/-- An allowed access answers what the CSR shows; it writes exactly when a write is attempted. -/
theorem State.csrAccess_allowed {s : State} {c : CsrNum} {write : Bool} (f : Word → Word)
    (h : CsrAllowed s c (write = true)) :
    ∃ u, s.csrAccess c write f = .done (csrShown s c) u ∧
      (write = true → CsrWritten s u c (f (csrShown s c))) ∧ (write = false → u = s) ∧
      ∃ m e tv mc ms mp ca va, u =
        { s with mstatus := m, mie := e, mtvec := tv, mcounteren := mc, mscratch := ms, mepc := mp, mcause := ca, mtval := va } := by
  obtain ⟨hn, hp, h0, h2, hw⟩ := h
  obtain ⟨r, hr⟩ := Option.ne_none_iff_exists'.mp (fun k => csrOf_eq_none.mp k hn)
  have hpo : csrPrivOk s.priv c = true := by simpa [csrPrivOk] using hp
  have hco := (csrCounterOk_iff hr s.priv s.mcounteren).mpr ⟨h0, h2⟩
  unfold State.csrAccess
  rw [hr]
  simp only [hpo, hco, Bool.not_true, Bool.false_eq_true, if_false, State.csrRead_eq s hr]
  cases write with
  | false => exact ⟨s, rfl, by simp, by simp, _, _, _, _, _, _, _, _, rfl⟩
  | true =>
    have hro : csrReadOnly c = false := by simpa [csrReadOnly] using (hw rfl).1
    have hm : r ≠ .misa := fun k => (hw rfl).2 ((csrOf_misa hr).mp k)
    obtain ⟨h1, h2⟩ := State.csrWrite_written s hr (f (csrShown s c))
    simp only [hro, Bool.and_false, Bool.false_eq_true, if_false, if_true, hm]
    exact ⟨_, rfl, fun _ => h1, by simp, h2⟩

/-- A denied access is an illegal instruction; only a write of misa in Machine mode comes after a read. -/
theorem State.csrAccess_denied {s : State} {c : CsrNum} {write : Bool} (f : Word → Word)
    (h : ¬ CsrAllowed s c (write = true)) :
    s.csrAccess c write f = .illegal ∨
    (c = 0x301#12 ∧ write = true ∧ s.priv = .machine ∧ s.csrAccess c write f = .illegalMisa s.cfg.misa) := by
  unfold State.csrAccess
  cases hr : csrOf c with
  | none => exact .inl rfl
  | some r =>
    simp only []
    by_cases hpo : csrPrivOk s.priv c = true
    swap; · left; simp [hpo]
    by_cases hco : csrCounterOk s.priv s.mcounteren r = true
    swap; · left; simp [hpo, hco]
    have hg := (csrCounterOk_iff hr _ _).mp hco
    have hn : c ∈ csrNumbers := by
      by_contra k
      rw [csrOf_eq_none.mpr k] at hr
      cases hr
    cases write with
    | false => exact absurd ⟨hn, by simpa [csrPrivOk] using hpo, hg.1, hg.2, by simp⟩ h
    | true =>
      by_cases hro : csrReadOnly c = true
      · left; simp [hpo, hco, hro]
      by_cases hm : r = .misa
      · right
        have hc := (csrOf_misa hr).mp hm
        have hpm : s.priv = .machine := by
          subst hc
          revert hpo
          cases s.priv <;> simp [csrPrivOk, privCode]
        refine ⟨hc, rfl, hpm, ?_⟩
        subst hm
        simp [hpo, hco, hro, State.csrRead]
      · refine absurd ⟨hn, by simpa [csrPrivOk] using hpo, hg.1, hg.2, fun _ => ⟨?_, ?_⟩⟩ h
        · simpa [csrReadOnly] using hro
        · exact fun k => hm ((csrOf_misa hr).mpr k)

end Sys2Proof.Machine
end

