-- ==== Sys2Proof/Laws/Decode.lean ====
section
/-! SUPPORT. Each field of each encoding format reads back as what was put there (30_encoding R101 to R107). -/

namespace Sys2Proof

/-! ## encR -/

theorem fOpcode_encR (f7 : BitVec 7) (rs2 rs1 : Reg) (f3 : BitVec 3) (rd : Reg) (op : BitVec 7) : fOpcode (encR f7 rs2 rs1 f3 rd op) = op := by
  change BitVec.extractLsb' 0 7 (f7 ++ rs2 ++ rs1 ++ f3 ++ rd ++ op) = op
  simp (disch := omega) only [BitVec.extractLsb'_append_eq_of_add_le, BitVec.extractLsb'_eq_self]

theorem fRd_encR (f7 : BitVec 7) (rs2 rs1 : Reg) (f3 : BitVec 3) (rd : Reg) (op : BitVec 7) : fRd (encR f7 rs2 rs1 f3 rd op) = rd := by
  change BitVec.extractLsb' 7 5 (f7 ++ rs2 ++ rs1 ++ f3 ++ rd ++ op) = rd
  simp (disch := omega) only [BitVec.extractLsb'_append_eq_of_le, BitVec.extractLsb'_append_eq_of_add_le, Nat.reduceSub,
    BitVec.extractLsb'_eq_self]

theorem fFunct3_encR (f7 : BitVec 7) (rs2 rs1 : Reg) (f3 : BitVec 3) (rd : Reg) (op : BitVec 7) : fFunct3 (encR f7 rs2 rs1 f3 rd op) = f3 := by
  change BitVec.extractLsb' 12 3 (f7 ++ rs2 ++ rs1 ++ f3 ++ rd ++ op) = f3
  simp (disch := omega) only [BitVec.extractLsb'_append_eq_of_le, BitVec.extractLsb'_append_eq_of_add_le, Nat.reduceSub,
    BitVec.extractLsb'_eq_self]

theorem fRs1_encR (f7 : BitVec 7) (rs2 rs1 : Reg) (f3 : BitVec 3) (rd : Reg) (op : BitVec 7) : fRs1 (encR f7 rs2 rs1 f3 rd op) = rs1 := by
  change BitVec.extractLsb' 15 5 (f7 ++ rs2 ++ rs1 ++ f3 ++ rd ++ op) = rs1
  simp (disch := omega) only [BitVec.extractLsb'_append_eq_of_le, BitVec.extractLsb'_append_eq_of_add_le, Nat.reduceSub,
    BitVec.extractLsb'_eq_self]

theorem fRs2_encR (f7 : BitVec 7) (rs2 rs1 : Reg) (f3 : BitVec 3) (rd : Reg) (op : BitVec 7) : fRs2 (encR f7 rs2 rs1 f3 rd op) = rs2 := by
  change BitVec.extractLsb' 20 5 (f7 ++ rs2 ++ rs1 ++ f3 ++ rd ++ op) = rs2
  simp (disch := omega) only [BitVec.extractLsb'_append_eq_of_le, BitVec.extractLsb'_append_eq_of_add_le, Nat.reduceSub,
    BitVec.extractLsb'_eq_self]

theorem fFunct7_encR (f7 : BitVec 7) (rs2 rs1 : Reg) (f3 : BitVec 3) (rd : Reg) (op : BitVec 7) : fFunct7 (encR f7 rs2 rs1 f3 rd op) = f7 := by
  change BitVec.extractLsb' 25 7 (f7 ++ rs2 ++ rs1 ++ f3 ++ rd ++ op) = f7
  simp (disch := omega) only [BitVec.extractLsb'_append_eq_of_le, Nat.reduceSub, BitVec.extractLsb'_eq_self]

/-! ## encI -/

theorem fOpcode_encI (imm : BitVec 12) (rs1 : Reg) (f3 : BitVec 3) (rd : Reg) (op : BitVec 7) : fOpcode (encI imm rs1 f3 rd op) = op := by
  change BitVec.extractLsb' 0 7 (imm ++ rs1 ++ f3 ++ rd ++ op) = op
  simp (disch := omega) only [BitVec.extractLsb'_append_eq_of_add_le, BitVec.extractLsb'_eq_self]

theorem fRd_encI (imm : BitVec 12) (rs1 : Reg) (f3 : BitVec 3) (rd : Reg) (op : BitVec 7) : fRd (encI imm rs1 f3 rd op) = rd := by
  change BitVec.extractLsb' 7 5 (imm ++ rs1 ++ f3 ++ rd ++ op) = rd
  simp (disch := omega) only [BitVec.extractLsb'_append_eq_of_le, BitVec.extractLsb'_append_eq_of_add_le, Nat.reduceSub,
    BitVec.extractLsb'_eq_self]

theorem fFunct3_encI (imm : BitVec 12) (rs1 : Reg) (f3 : BitVec 3) (rd : Reg) (op : BitVec 7) : fFunct3 (encI imm rs1 f3 rd op) = f3 := by
  change BitVec.extractLsb' 12 3 (imm ++ rs1 ++ f3 ++ rd ++ op) = f3
  simp (disch := omega) only [BitVec.extractLsb'_append_eq_of_le, BitVec.extractLsb'_append_eq_of_add_le, Nat.reduceSub,
    BitVec.extractLsb'_eq_self]

theorem fRs1_encI (imm : BitVec 12) (rs1 : Reg) (f3 : BitVec 3) (rd : Reg) (op : BitVec 7) : fRs1 (encI imm rs1 f3 rd op) = rs1 := by
  change BitVec.extractLsb' 15 5 (imm ++ rs1 ++ f3 ++ rd ++ op) = rs1
  simp (disch := omega) only [BitVec.extractLsb'_append_eq_of_le, BitVec.extractLsb'_append_eq_of_add_le, Nat.reduceSub,
    BitVec.extractLsb'_eq_self]

theorem fImm12_encI (imm : BitVec 12) (rs1 : Reg) (f3 : BitVec 3) (rd : Reg) (op : BitVec 7) : fImm12 (encI imm rs1 f3 rd op) = imm := by
  change BitVec.extractLsb' 20 12 (imm ++ rs1 ++ f3 ++ rd ++ op) = imm
  simp (disch := omega) only [BitVec.extractLsb'_append_eq_of_le, Nat.reduceSub, BitVec.extractLsb'_eq_self]

/-! ## encU -/

theorem fOpcode_encU (imm20 : BitVec 20) (rd : Reg) (op : BitVec 7) : fOpcode (encU imm20 rd op) = op := by
  change BitVec.extractLsb' 0 7 (imm20 ++ rd ++ op) = op
  simp (disch := omega) only [BitVec.extractLsb'_append_eq_of_add_le, BitVec.extractLsb'_eq_self]

theorem fRd_encU (imm20 : BitVec 20) (rd : Reg) (op : BitVec 7) : fRd (encU imm20 rd op) = rd := by
  change BitVec.extractLsb' 7 5 (imm20 ++ rd ++ op) = rd
  simp (disch := omega) only [BitVec.extractLsb'_append_eq_of_le, BitVec.extractLsb'_append_eq_of_add_le, Nat.reduceSub,
    BitVec.extractLsb'_eq_self]

theorem fImmU_encU (imm20 : BitVec 20) (rd : Reg) (op : BitVec 7) : fImmU (encU imm20 rd op) = imm20 := by
  change BitVec.extractLsb' 12 20 (imm20 ++ rd ++ op) = imm20
  simp (disch := omega) only [BitVec.extractLsb'_append_eq_of_le, Nat.reduceSub, BitVec.extractLsb'_eq_self]

/-! ## encAmo -/

theorem fOpcode_encAmo (f5 : BitVec 5) (aq rl : BitVec 1) (rs2 rs1 rd : Reg) : fOpcode (encAmo f5 aq rl rs2 rs1 rd) = 0b0101111#7 := by
  change BitVec.extractLsb' 0 7 (f5 ++ aq ++ rl ++ rs2 ++ rs1 ++ 0b010#3 ++ rd ++ 0b0101111#7) = 0b0101111#7
  simp (disch := omega) only [BitVec.extractLsb'_append_eq_of_add_le, BitVec.extractLsb'_eq_self]

theorem fRd_encAmo (f5 : BitVec 5) (aq rl : BitVec 1) (rs2 rs1 rd : Reg) : fRd (encAmo f5 aq rl rs2 rs1 rd) = rd := by
  change BitVec.extractLsb' 7 5 (f5 ++ aq ++ rl ++ rs2 ++ rs1 ++ 0b010#3 ++ rd ++ 0b0101111#7) = rd
  simp (disch := omega) only [BitVec.extractLsb'_append_eq_of_le, BitVec.extractLsb'_append_eq_of_add_le, Nat.reduceSub,
    BitVec.extractLsb'_eq_self]

theorem fFunct3_encAmo (f5 : BitVec 5) (aq rl : BitVec 1) (rs2 rs1 rd : Reg) : fFunct3 (encAmo f5 aq rl rs2 rs1 rd) = 0b010#3 := by
  change BitVec.extractLsb' 12 3 (f5 ++ aq ++ rl ++ rs2 ++ rs1 ++ 0b010#3 ++ rd ++ 0b0101111#7) = 0b010#3
  simp (disch := omega) only [BitVec.extractLsb'_append_eq_of_le, BitVec.extractLsb'_append_eq_of_add_le, Nat.reduceSub,
    BitVec.extractLsb'_eq_self]

theorem fRs1_encAmo (f5 : BitVec 5) (aq rl : BitVec 1) (rs2 rs1 rd : Reg) : fRs1 (encAmo f5 aq rl rs2 rs1 rd) = rs1 := by
  change BitVec.extractLsb' 15 5 (f5 ++ aq ++ rl ++ rs2 ++ rs1 ++ 0b010#3 ++ rd ++ 0b0101111#7) = rs1
  simp (disch := omega) only [BitVec.extractLsb'_append_eq_of_le, BitVec.extractLsb'_append_eq_of_add_le, Nat.reduceSub,
    BitVec.extractLsb'_eq_self]

theorem fRs2_encAmo (f5 : BitVec 5) (aq rl : BitVec 1) (rs2 rs1 rd : Reg) : fRs2 (encAmo f5 aq rl rs2 rs1 rd) = rs2 := by
  change BitVec.extractLsb' 20 5 (f5 ++ aq ++ rl ++ rs2 ++ rs1 ++ 0b010#3 ++ rd ++ 0b0101111#7) = rs2
  simp (disch := omega) only [BitVec.extractLsb'_append_eq_of_le, BitVec.extractLsb'_append_eq_of_add_le, Nat.reduceSub,
    BitVec.extractLsb'_eq_self]

theorem fRl_encAmo (f5 : BitVec 5) (aq rl : BitVec 1) (rs2 rs1 rd : Reg) : fRl (encAmo f5 aq rl rs2 rs1 rd) = rl := by
  change BitVec.extractLsb' 25 1 (f5 ++ aq ++ rl ++ rs2 ++ rs1 ++ 0b010#3 ++ rd ++ 0b0101111#7) = rl
  simp (disch := omega) only [BitVec.extractLsb'_append_eq_of_le, BitVec.extractLsb'_append_eq_of_add_le, Nat.reduceSub,
    BitVec.extractLsb'_eq_self]

theorem fAq_encAmo (f5 : BitVec 5) (aq rl : BitVec 1) (rs2 rs1 rd : Reg) : fAq (encAmo f5 aq rl rs2 rs1 rd) = aq := by
  change BitVec.extractLsb' 26 1 (f5 ++ aq ++ rl ++ rs2 ++ rs1 ++ 0b010#3 ++ rd ++ 0b0101111#7) = aq
  simp (disch := omega) only [BitVec.extractLsb'_append_eq_of_le, BitVec.extractLsb'_append_eq_of_add_le, Nat.reduceSub,
    BitVec.extractLsb'_eq_self]

theorem fFunct5_encAmo (f5 : BitVec 5) (aq rl : BitVec 1) (rs2 rs1 rd : Reg) : fFunct5 (encAmo f5 aq rl rs2 rs1 rd) = f5 := by
  change BitVec.extractLsb' 27 5 (f5 ++ aq ++ rl ++ rs2 ++ rs1 ++ 0b010#3 ++ rd ++ 0b0101111#7) = f5
  simp (disch := omega) only [BitVec.extractLsb'_append_eq_of_le, Nat.reduceSub, BitVec.extractLsb'_eq_self]

/-! ## encS -/

theorem fOpcode_encS (imm : BitVec 12) (rs2 rs1 : Reg) (f3 : BitVec 3) (op : BitVec 7) : fOpcode (encS imm rs2 rs1 f3 op) = op := by
  change BitVec.extractLsb' 0 7 (imm.extractLsb' 5 7 ++ rs2 ++ rs1 ++ f3 ++ imm.extractLsb' 0 5 ++ op) = op
  simp (disch := omega) only [BitVec.extractLsb'_append_eq_of_add_le, BitVec.extractLsb'_eq_self]

theorem fFunct3_encS (imm : BitVec 12) (rs2 rs1 : Reg) (f3 : BitVec 3) (op : BitVec 7) : fFunct3 (encS imm rs2 rs1 f3 op) = f3 := by
  change BitVec.extractLsb' 12 3 (imm.extractLsb' 5 7 ++ rs2 ++ rs1 ++ f3 ++ imm.extractLsb' 0 5 ++ op) = f3
  simp (disch := omega) only [BitVec.extractLsb'_append_eq_of_le, BitVec.extractLsb'_append_eq_of_add_le, Nat.reduceSub,
    BitVec.extractLsb'_eq_self]

theorem fRs1_encS (imm : BitVec 12) (rs2 rs1 : Reg) (f3 : BitVec 3) (op : BitVec 7) : fRs1 (encS imm rs2 rs1 f3 op) = rs1 := by
  change BitVec.extractLsb' 15 5 (imm.extractLsb' 5 7 ++ rs2 ++ rs1 ++ f3 ++ imm.extractLsb' 0 5 ++ op) = rs1
  simp (disch := omega) only [BitVec.extractLsb'_append_eq_of_le, BitVec.extractLsb'_append_eq_of_add_le, Nat.reduceSub,
    BitVec.extractLsb'_eq_self]

theorem fRs2_encS (imm : BitVec 12) (rs2 rs1 : Reg) (f3 : BitVec 3) (op : BitVec 7) : fRs2 (encS imm rs2 rs1 f3 op) = rs2 := by
  change BitVec.extractLsb' 20 5 (imm.extractLsb' 5 7 ++ rs2 ++ rs1 ++ f3 ++ imm.extractLsb' 0 5 ++ op) = rs2
  simp (disch := omega) only [BitVec.extractLsb'_append_eq_of_le, BitVec.extractLsb'_append_eq_of_add_le, Nat.reduceSub,
    BitVec.extractLsb'_eq_self]

/-! ## encB -/

theorem fOpcode_encB (off : BitVec 13) (rs2 rs1 : Reg) (f3 : BitVec 3) (op : BitVec 7) : fOpcode (encB off rs2 rs1 f3 op) = op := by
  change BitVec.extractLsb' 0 7 (off.extractLsb' 12 1 ++ off.extractLsb' 5 6 ++ rs2 ++ rs1 ++ f3 ++ off.extractLsb' 1 4 ++ off.extractLsb' 11 1 ++ op) = op
  simp (disch := omega) only [BitVec.extractLsb'_append_eq_of_add_le, BitVec.extractLsb'_eq_self]

theorem fFunct3_encB (off : BitVec 13) (rs2 rs1 : Reg) (f3 : BitVec 3) (op : BitVec 7) : fFunct3 (encB off rs2 rs1 f3 op) = f3 := by
  change BitVec.extractLsb' 12 3 (off.extractLsb' 12 1 ++ off.extractLsb' 5 6 ++ rs2 ++ rs1 ++ f3 ++ off.extractLsb' 1 4 ++ off.extractLsb' 11 1 ++ op) = f3
  simp (disch := omega) only [BitVec.extractLsb'_append_eq_of_le, BitVec.extractLsb'_append_eq_of_add_le, Nat.reduceSub,
    BitVec.extractLsb'_eq_self]

theorem fRs1_encB (off : BitVec 13) (rs2 rs1 : Reg) (f3 : BitVec 3) (op : BitVec 7) : fRs1 (encB off rs2 rs1 f3 op) = rs1 := by
  change BitVec.extractLsb' 15 5 (off.extractLsb' 12 1 ++ off.extractLsb' 5 6 ++ rs2 ++ rs1 ++ f3 ++ off.extractLsb' 1 4 ++ off.extractLsb' 11 1 ++ op) = rs1
  simp (disch := omega) only [BitVec.extractLsb'_append_eq_of_le, BitVec.extractLsb'_append_eq_of_add_le, Nat.reduceSub,
    BitVec.extractLsb'_eq_self]

theorem fRs2_encB (off : BitVec 13) (rs2 rs1 : Reg) (f3 : BitVec 3) (op : BitVec 7) : fRs2 (encB off rs2 rs1 f3 op) = rs2 := by
  change BitVec.extractLsb' 20 5 (off.extractLsb' 12 1 ++ off.extractLsb' 5 6 ++ rs2 ++ rs1 ++ f3 ++ off.extractLsb' 1 4 ++ off.extractLsb' 11 1 ++ op) = rs2
  simp (disch := omega) only [BitVec.extractLsb'_append_eq_of_le, BitVec.extractLsb'_append_eq_of_add_le, Nat.reduceSub,
    BitVec.extractLsb'_eq_self]

/-! ## encJ -/

theorem fOpcode_encJ (off : BitVec 21) (rd : Reg) (op : BitVec 7) : fOpcode (encJ off rd op) = op := by
  change BitVec.extractLsb' 0 7 (off.extractLsb' 20 1 ++ off.extractLsb' 1 10 ++ off.extractLsb' 11 1 ++ off.extractLsb' 12 8 ++ rd ++ op) = op
  simp (disch := omega) only [BitVec.extractLsb'_append_eq_of_add_le, BitVec.extractLsb'_eq_self]

theorem fRd_encJ (off : BitVec 21) (rd : Reg) (op : BitVec 7) : fRd (encJ off rd op) = rd := by
  change BitVec.extractLsb' 7 5 (off.extractLsb' 20 1 ++ off.extractLsb' 1 10 ++ off.extractLsb' 11 1 ++ off.extractLsb' 12 8 ++ rd ++ op) = rd
  simp (disch := omega) only [BitVec.extractLsb'_append_eq_of_le, BitVec.extractLsb'_append_eq_of_add_le, Nat.reduceSub,
    BitVec.extractLsb'_eq_self]
/-! ## The immediates that a format cuts up (R104, R105, R107) -/

theorem fImmS_encS (imm : BitVec 12) (rs2 rs1 : Reg) (f3 : BitVec 3) (op : BitVec 7) :
    fImmS (encS imm rs2 rs1 f3 op) = imm := by
  have h1 : BitVec.extractLsb' 25 7 (encS imm rs2 rs1 f3 op) = imm.extractLsb' 5 7 := by
    change BitVec.extractLsb' 25 7 (imm.extractLsb' 5 7 ++ rs2 ++ rs1 ++ f3 ++ imm.extractLsb' 0 5 ++ op) = _
    simp (disch := omega) only [BitVec.extractLsb'_append_eq_of_le, Nat.reduceSub, BitVec.extractLsb'_eq_self]
  have h2 : BitVec.extractLsb' 7 5 (encS imm rs2 rs1 f3 op) = imm.extractLsb' 0 5 := by
    change BitVec.extractLsb' 7 5 (imm.extractLsb' 5 7 ++ rs2 ++ rs1 ++ f3 ++ imm.extractLsb' 0 5 ++ op) = _
    simp (disch := omega) only [BitVec.extractLsb'_append_eq_of_le, BitVec.extractLsb'_append_eq_of_add_le, Nat.reduceSub,
      BitVec.extractLsb'_eq_self]
  rw [fImmS, h1, h2]
  change imm.extractLsb' 5 7 ++ imm.extractLsb' 0 5 = imm
  apply BitVec.eq_of_getLsbD_eq
  intro i hi
  interval_cases i <;> simp only [BitVec.getLsbD_append, BitVec.getLsbD_extractLsb'] <;> simp

theorem fImmB_encB (off : BitVec 13) (rs2 rs1 : Reg) (f3 : BitVec 3) (op : BitVec 7) (h : evenBranch off = true) :
    fImmB (encB off rs2 rs1 f3 op) = off := by
  have h1 : BitVec.extractLsb' 31 1 (encB off rs2 rs1 f3 op) = off.extractLsb' 12 1 := by
    change BitVec.extractLsb' 31 1 (off.extractLsb' 12 1 ++ off.extractLsb' 5 6 ++ rs2 ++ rs1 ++ f3 ++
      off.extractLsb' 1 4 ++ off.extractLsb' 11 1 ++ op) = _
    simp (disch := omega) only [BitVec.extractLsb'_append_eq_of_le, Nat.reduceSub, BitVec.extractLsb'_eq_self]
  have h2 : BitVec.extractLsb' 7 1 (encB off rs2 rs1 f3 op) = off.extractLsb' 11 1 := by
    change BitVec.extractLsb' 7 1 (off.extractLsb' 12 1 ++ off.extractLsb' 5 6 ++ rs2 ++ rs1 ++ f3 ++
      off.extractLsb' 1 4 ++ off.extractLsb' 11 1 ++ op) = _
    simp (disch := omega) only [BitVec.extractLsb'_append_eq_of_le, BitVec.extractLsb'_append_eq_of_add_le, Nat.reduceSub,
      BitVec.extractLsb'_eq_self]
  have h3 : BitVec.extractLsb' 25 6 (encB off rs2 rs1 f3 op) = off.extractLsb' 5 6 := by
    change BitVec.extractLsb' 25 6 (off.extractLsb' 12 1 ++ off.extractLsb' 5 6 ++ rs2 ++ rs1 ++ f3 ++
      off.extractLsb' 1 4 ++ off.extractLsb' 11 1 ++ op) = _
    simp (disch := omega) only [BitVec.extractLsb'_append_eq_of_le, BitVec.extractLsb'_append_eq_of_add_le, Nat.reduceSub,
      BitVec.extractLsb'_eq_self]
  have h4 : BitVec.extractLsb' 8 4 (encB off rs2 rs1 f3 op) = off.extractLsb' 1 4 := by
    change BitVec.extractLsb' 8 4 (off.extractLsb' 12 1 ++ off.extractLsb' 5 6 ++ rs2 ++ rs1 ++ f3 ++
      off.extractLsb' 1 4 ++ off.extractLsb' 11 1 ++ op) = _
    simp (disch := omega) only [BitVec.extractLsb'_append_eq_of_le, BitVec.extractLsb'_append_eq_of_add_le, Nat.reduceSub,
      BitVec.extractLsb'_eq_self]
  have h0 : off.getLsbD 0 = false := by simpa [evenBranch] using h
  rw [fImmB, h1, h2, h3, h4]
  change off.extractLsb' 12 1 ++ off.extractLsb' 11 1 ++ off.extractLsb' 5 6 ++ off.extractLsb' 1 4 ++ 0#1 = off
  apply BitVec.eq_of_getLsbD_eq
  intro i hi
  interval_cases i <;> simp only [BitVec.getLsbD_append, BitVec.getLsbD_extractLsb'] <;> simp
  simpa using h0

theorem fImmJ_encJ (off : BitVec 21) (rd : Reg) (op : BitVec 7) (h : evenJump off = true) :
    fImmJ (encJ off rd op) = off := by
  have h1 : BitVec.extractLsb' 31 1 (encJ off rd op) = off.extractLsb' 20 1 := by
    change BitVec.extractLsb' 31 1 (off.extractLsb' 20 1 ++ off.extractLsb' 1 10 ++ off.extractLsb' 11 1 ++
      off.extractLsb' 12 8 ++ rd ++ op) = _
    simp (disch := omega) only [BitVec.extractLsb'_append_eq_of_le, Nat.reduceSub, BitVec.extractLsb'_eq_self]
  have h2 : BitVec.extractLsb' 12 8 (encJ off rd op) = off.extractLsb' 12 8 := by
    change BitVec.extractLsb' 12 8 (off.extractLsb' 20 1 ++ off.extractLsb' 1 10 ++ off.extractLsb' 11 1 ++
      off.extractLsb' 12 8 ++ rd ++ op) = _
    simp (disch := omega) only [BitVec.extractLsb'_append_eq_of_le, BitVec.extractLsb'_append_eq_of_add_le, Nat.reduceSub,
      BitVec.extractLsb'_eq_self]
  have h3 : BitVec.extractLsb' 20 1 (encJ off rd op) = off.extractLsb' 11 1 := by
    change BitVec.extractLsb' 20 1 (off.extractLsb' 20 1 ++ off.extractLsb' 1 10 ++ off.extractLsb' 11 1 ++
      off.extractLsb' 12 8 ++ rd ++ op) = _
    simp (disch := omega) only [BitVec.extractLsb'_append_eq_of_le, BitVec.extractLsb'_append_eq_of_add_le, Nat.reduceSub,
      BitVec.extractLsb'_eq_self]
  have h4 : BitVec.extractLsb' 21 10 (encJ off rd op) = off.extractLsb' 1 10 := by
    change BitVec.extractLsb' 21 10 (off.extractLsb' 20 1 ++ off.extractLsb' 1 10 ++ off.extractLsb' 11 1 ++
      off.extractLsb' 12 8 ++ rd ++ op) = _
    simp (disch := omega) only [BitVec.extractLsb'_append_eq_of_le, BitVec.extractLsb'_append_eq_of_add_le, Nat.reduceSub,
      BitVec.extractLsb'_eq_self]
  have h0 : off.getLsbD 0 = false := by simpa [evenJump] using h
  rw [fImmJ, h1, h2, h3, h4]
  change off.extractLsb' 20 1 ++ off.extractLsb' 12 8 ++ off.extractLsb' 11 1 ++ off.extractLsb' 1 10 ++ 0#1 = off
  apply BitVec.eq_of_getLsbD_eq
  intro i hi
  interval_cases i <;> simp only [BitVec.getLsbD_append, BitVec.getLsbD_extractLsb'] <;> simp
  simpa using h0

/-! ## The fields of a FENCE word (R102, R116) -/

theorem fFm_encI (fm pred succ : BitVec 4) (rs1 : Reg) (f3 : BitVec 3) (rd : Reg) (op : BitVec 7) :
    fFm (encI (fm ++ pred ++ succ) rs1 f3 rd op) = fm := by
  change BitVec.extractLsb' 28 4 (fm ++ pred ++ succ ++ rs1 ++ f3 ++ rd ++ op) = fm
  simp (disch := omega) only [BitVec.extractLsb'_append_eq_of_le, Nat.reduceSub, BitVec.extractLsb'_eq_self]

theorem fPred_encI (fm pred succ : BitVec 4) (rs1 : Reg) (f3 : BitVec 3) (rd : Reg) (op : BitVec 7) :
    fPred (encI (fm ++ pred ++ succ) rs1 f3 rd op) = pred := by
  change BitVec.extractLsb' 24 4 (fm ++ pred ++ succ ++ rs1 ++ f3 ++ rd ++ op) = pred
  simp (disch := omega) only [BitVec.extractLsb'_append_eq_of_le, BitVec.extractLsb'_append_eq_of_add_le, Nat.reduceSub,
    BitVec.extractLsb'_eq_self]

theorem fSucc_encI (fm pred succ : BitVec 4) (rs1 : Reg) (f3 : BitVec 3) (rd : Reg) (op : BitVec 7) :
    fSucc (encI (fm ++ pred ++ succ) rs1 f3 rd op) = succ := by
  change BitVec.extractLsb' 20 4 (fm ++ pred ++ succ ++ rs1 ++ f3 ++ rd ++ op) = succ
  simp (disch := omega) only [BitVec.extractLsb'_append_eq_of_le, BitVec.extractLsb'_append_eq_of_add_le, Nat.reduceSub,
    BitVec.extractLsb'_eq_self]

/-! ## A word is put together again from its fields (R101 to R107) -/

theorem encR_fields (w : Word) : encR (fFunct7 w) (fRs2 w) (fRs1 w) (fFunct3 w) (fRd w) (fOpcode w) = w := by
  apply BitVec.eq_of_getLsbD_eq
  intro i hi
  unfold encR fFunct7 fRs2 fRs1 fFunct3 fRd fOpcode
  simp only [BitVec.getLsbD_append, BitVec.getLsbD_extractLsb']
  interval_cases i <;> rfl

theorem encI_fields (w : Word) : encI (fImm12 w) (fRs1 w) (fFunct3 w) (fRd w) (fOpcode w) = w := by
  apply BitVec.eq_of_getLsbD_eq
  intro i hi
  unfold encI fImm12 fRs1 fFunct3 fRd fOpcode
  simp only [BitVec.getLsbD_append, BitVec.getLsbD_extractLsb']
  interval_cases i <;> rfl

theorem encFence_fields (w : Word) :
    encI (fFm w ++ fPred w ++ fSucc w) (fRs1 w) (fFunct3 w) (fRd w) (fOpcode w) = w := by
  apply BitVec.eq_of_getLsbD_eq
  intro i hi
  unfold encI fFm fPred fSucc fRs1 fFunct3 fRd fOpcode
  simp only [BitVec.getLsbD_append, BitVec.getLsbD_extractLsb']
  interval_cases i <;> rfl

theorem encU_fields (w : Word) : encU (fImmU w) (fRd w) (fOpcode w) = w := by
  apply BitVec.eq_of_getLsbD_eq
  intro i hi
  unfold encU fImmU fRd fOpcode
  simp only [BitVec.getLsbD_append, BitVec.getLsbD_extractLsb']
  interval_cases i <;> rfl

theorem encS_fields (w : Word) : encS (fImmS w) (fRs2 w) (fRs1 w) (fFunct3 w) (fOpcode w) = w := by
  apply BitVec.eq_of_getLsbD_eq
  intro i hi
  unfold encS fImmS fRs2 fRs1 fFunct3 fOpcode
  simp only [BitVec.getLsbD_append, BitVec.getLsbD_extractLsb']
  interval_cases i <;> rfl

theorem encB_fields (w : Word) : encB (fImmB w) (fRs2 w) (fRs1 w) (fFunct3 w) (fOpcode w) = w := by
  apply BitVec.eq_of_getLsbD_eq
  intro i hi
  unfold encB fImmB fRs2 fRs1 fFunct3 fOpcode
  simp only [BitVec.getLsbD_append, BitVec.getLsbD_extractLsb']
  interval_cases i <;> rfl

theorem encJ_fields (w : Word) : encJ (fImmJ w) (fRd w) (fOpcode w) = w := by
  apply BitVec.eq_of_getLsbD_eq
  intro i hi
  unfold encJ fImmJ fRd fOpcode
  simp only [BitVec.getLsbD_append, BitVec.getLsbD_extractLsb']
  interval_cases i <;> rfl

theorem encAmo_fields {w : Word} (h : fFunct3 w = 0b010#3) (ho : fOpcode w = 0b0101111#7) :
    encAmo (fFunct5 w) (fAq w) (fRl w) (fRs2 w) (fRs1 w) (fRd w) = w := by
  unfold encAmo
  rw [← h, ← ho]
  apply BitVec.eq_of_getLsbD_eq
  intro i hi
  unfold fFunct5 fAq fRl fRs2 fRs1 fFunct3 fRd fOpcode
  simp only [BitVec.getLsbD_append, BitVec.getLsbD_extractLsb']
  interval_cases i <;> rfl

/-- immB and immJ are even (R105, R107). -/
theorem even_fImmB (w : Word) : evenBranch (fImmB w) = true := by
  unfold evenBranch fImmB
  rw [BitVec.getLsbD_append]
  rfl

theorem even_fImmJ (w : Word) : evenJump (fImmJ w) = true := by
  unfold evenJump fImmJ
  rw [BitVec.getLsbD_append]
  rfl

/-! ## What a row's mask and pattern say of the fields of a word -/

theorem opcode_of_row {w m p : Word} (h : w &&& m = p) (hm : fOpcode m = BitVec.allOnes 7) : fOpcode w = fOpcode p := by
  have k : fOpcode (w &&& m) = fOpcode w &&& fOpcode m := BitVec.extractLsb'_and
  rw [← h, k, hm, BitVec.and_allOnes]

theorem funct3_of_row {w m p : Word} (h : w &&& m = p) (hm : fFunct3 m = BitVec.allOnes 3) : fFunct3 w = fFunct3 p := by
  have k : fFunct3 (w &&& m) = fFunct3 w &&& fFunct3 m := BitVec.extractLsb'_and
  rw [← h, k, hm, BitVec.and_allOnes]

theorem funct7_of_row {w m p : Word} (h : w &&& m = p) (hm : fFunct7 m = BitVec.allOnes 7) : fFunct7 w = fFunct7 p := by
  have k : fFunct7 (w &&& m) = fFunct7 w &&& fFunct7 m := BitVec.extractLsb'_and
  rw [← h, k, hm, BitVec.and_allOnes]

theorem funct5_of_row {w m p : Word} (h : w &&& m = p) (hm : fFunct5 m = BitVec.allOnes 5) : fFunct5 w = fFunct5 p := by
  have k : fFunct5 (w &&& m) = fFunct5 w &&& fFunct5 m := BitVec.extractLsb'_and
  rw [← h, k, hm, BitVec.and_allOnes]

theorem rs2_of_row {w m p : Word} (h : w &&& m = p) (hm : fRs2 m = BitVec.allOnes 5) : fRs2 w = fRs2 p := by
  have k : fRs2 (w &&& m) = fRs2 w &&& fRs2 m := BitVec.extractLsb'_and
  rw [← h, k, hm, BitVec.and_allOnes]

end Sys2Proof
end

