-- ==== Sys2Proof/Laws/Exec.lean ====
section
/-! SUPPORT. All an executed instruction can do, said once: `exec_effect`. What every instruction keeps is then a case analysis over the
constructors of `Effect`, and no proof unfolds a meaning. -/

namespace Sys2Proof.Machine

/-- The next states an instruction can give. -/
inductive Effect (s : State) (i : Instr) : State → Prop where
  | computes (rd : Reg) (v : Word) : Effect s i (s.writeBack rd v)
  | links (rd : Reg) (v a : Word) : Effect s i ((s.setReg rd v).goTo a)
  | goes (a : Word) : Effect s i (s.goTo a)
  | traps (c : Cause) (v : Word) (h : mepcOffset s.cfg c = 0#32) : Effect s i (s.raise c v)
  | loads (rd : Reg) (f : Word → Word) (a : Word) (w : Width) (v : Word) (u : State)
      (hr : s.memRead a w = some (v, u)) : Effect s i (u.writeBack rd (f v))
  | stores (a : Word) (w : Width) (v : Word) (u : State) (ht : storeTarget s i = some (a, bytesOf w))
      (hw : s.memWrite a w v = some u) : Effect s i u.advance
  | modifies (rd : Reg) (a v x : Word) (u u' : State) (ht : storeTarget s i = some (a, 4))
      (hr : s.memRead a .word = some (v, u)) (hw : u.memWrite a .word x = some u') : Effect s i (u'.writeBack rd v)
  | modifyTraps (rd : Reg) (a v : Word) (u : State) (hr : s.memRead a .word = some (v, u)) :
      Effect s i ((u.drawReg rd v).raise .storeAccessFault a)
  | reserves (rd rs1 : Reg) (aq rl : BitVec 1) (v : Word) (u : State) (hi : i = .lrW rd rs1 aq rl)
      (hr : s.memRead (s.getReg rs1) .word = some (v, u)) :
      Effect s i (State.writeBack { u with resv := some (s.getReg rs1) } rd v)
  | reserveTraps (rd rs1 : Reg) (aq rl : BitVec 1) (hi : i = .lrW rd rs1 aq rl) :
      Effect s i ((s.drawResv (some (s.getReg rs1))).raise .loadAccessFault (s.getReg rs1))
  | storesIf (rd rs1 rs2 : Reg) (aq rl : BitVec 1) (u : State) (hi : i = .scW rd rs1 rs2 aq rl)
      (hw : s.memWrite (s.getReg rs1) .word (s.getReg rs2) = some u) :
      Effect s i (State.writeBack { u with resv := resvAfterSc u.cfg u.resv } rd 0#32)
  | storesNot (rd rs1 rs2 : Reg) (aq rl : BitVec 1) (hi : i = .scW rd rs1 rs2 aq rl) :
      Effect s i (State.writeBack { s with resv := resvAfterSc s.cfg s.resv } rd 1#32)
  | storeIfTraps (rd rs1 rs2 : Reg) (aq rl : BitVec 1) (hi : i = .scW rd rs1 rs2 aq rl) :
      Effect s i (((s.drawReg rd 0#32).drawResv (resvAfterSc s.cfg s.resv)).raise .storeAccessFault (s.getReg rs1))
  | csr (rd : Reg) (c : CsrNum) (write : Bool) (f : Word → Word) (u : State) (hi : csrOperand i = some c)
      (ha : CsrAllowed s c (write = true)) (hw : write = true → CsrWritten s u c (f (csrShown s c)))
      (hn : write = false → u = s)
      (hu : ∃ m e tv mc ms mp ca va, u =
        { s with mstatus := m, mie := e, mtvec := tv, mcounteren := mc, mscratch := ms, mepc := mp, mcause := ca, mtval := va }) :
      Effect s i (u.writeBack rd (csrShown s c))
  | csrTraps (rd : Reg) (v w : Word) : Effect s i ((s.drawReg rd v).raise .illegalInstr w)
  | returns (p : Priv) (hi : i = .mret) (hm : s.priv = .machine) (hp : mretPriv s = some p) : Effect s i (s.trapReturn p)

theorem effect_loadWith {i : Instr} {s t : State} {w : Width} {ext : Word → Word} {rd rs1 : Reg} {imm : BitVec 12}
    (h : loadWith w ext rd rs1 imm s = .next t) : Effect s i t := by
  unfold loadWith at h
  simp only at h
  split at h <;> cases h
  · exact .loads _ _ _ _ _ _ ‹_›
  · exact .traps _ _ rfl

theorem effect_storeWith {i : Instr} {s t : State} {w : Width} {rs1 rs2 : Reg} {imm : BitVec 12}
    (h : storeWith w rs1 rs2 imm s = .next t)
    (ht : storeTarget s i = some (s.getReg rs1 + imm12 imm, bytesOf w)) : Effect s i t := by
  unfold storeWith at h
  simp only at h
  split at h <;> cases h
  · exact .stores _ _ _ _ ht ‹_›
  · exact .traps _ _ rfl

theorem effect_branchIf {i : Instr} {s t : State} {b : Bool} {off : BitVec 13} (h : branchIf b off s = .next t) :
    Effect s i t := by
  unfold branchIf at h
  split at h <;> cases h
  · exact .goes _
  · exact .goes _

theorem effect_amoWith {i : Instr} {s t : State} {op : Word → Word → Word} {rd rs1 rs2 : Reg}
    (h : amoWith op rd rs1 rs2 s = .next t) (ht : storeTarget s i = some (s.getReg rs1, 4)) : Effect s i t := by
  unfold amoWith at h
  simp only at h
  split at h
  · cases h
    exact .traps _ _ rfl
  · split at h <;> cases h
    · exact .modifies _ _ _ _ _ _ ht ‹_› ‹_›
    · exact .modifyTraps _ _ _ _ ‹_›

theorem effect_csrWith {i : Instr} {s t : State} {inst : Word} {rd : Reg} {c : CsrNum} {write : Bool} {f : Word → Word}
    (h : csrWith inst rd c write f s = .next t) (hi : csrOperand i = some c) : Effect s i t := by
  unfold csrWith at h
  by_cases ha : CsrAllowed s c (write = true)
  · obtain ⟨u, hu, hw, hn, hf⟩ := State.csrAccess_allowed f ha
    rw [hu] at h
    cases h
    exact .csr rd c write f u hi ha hw hn hf
  · rcases State.csrAccess_denied f ha with hd | ⟨-, -, -, hd⟩ <;> rw [hd] at h <;> cases h
    · exact .traps _ _ rfl
    · exact .csrTraps _ _ _

/-- The inversion lemma of `exec`. -/
theorem exec_effect {i : Instr} {s t : State} (h : exec i s = .next t) : Effect s i t := by
  cases i
  case lrW rd rs1 aq rl =>
    change execLrW rd rs1 aq rl s = _ at h
    unfold execLrW at h
    simp only at h
    split at h <;> cases h
    · exact .reserves _ _ _ _ _ _ rfl ‹_›
    · exact .reserveTraps _ _ _ _ rfl
  case scW rd rs1 rs2 aq rl =>
    change execScW rd rs1 rs2 aq rl s = _ at h
    unfold execScW at h
    simp only at h
    split at h
    · split at h <;> cases h
      · exact .storesIf _ _ _ _ _ _ rfl ‹_›
      · exact .storeIfTraps _ _ _ _ _ rfl
    · cases h
      exact .storesNot _ _ _ _ _ rfl
  case mret =>
    change execMret s = _ at h
    unfold execMret at h
    split at h
    · split at h <;> cases h
      exact .returns _ rfl ‹_› ‹_›
    · cases h
      exact .traps _ _ rfl
  case ecall => cases h; exact .traps _ _ (by cases s.priv <;> rfl)
  case ebreak => cases h; exact .traps _ _ rfl
  case jal => cases h; exact .links _ _ _
  case jalr => cases h; exact .links _ _ _
  case fence => cases h; exact .goes _
  case fenceI => cases h; exact .goes _
  case lb | lh | lw | lbu | lhu => exact effect_loadWith h
  case sb | sh | sw => exact effect_storeWith h rfl
  case beq | bne | blt | bge | bltu | bgeu => exact effect_branchIf h
  case amoswapW rd rs1 rs2 aq rl =>
    replace h : execAmoswapW rd rs1 rs2 aq rl s = .next t := h
    unfold execAmoswapW at h
    exact effect_amoWith h rfl
  case amoaddW rd rs1 rs2 aq rl =>
    replace h : execAmoaddW rd rs1 rs2 aq rl s = .next t := h
    unfold execAmoaddW at h
    exact effect_amoWith h rfl
  case amoxorW rd rs1 rs2 aq rl =>
    replace h : execAmoxorW rd rs1 rs2 aq rl s = .next t := h
    unfold execAmoxorW at h
    exact effect_amoWith h rfl
  case amoandW rd rs1 rs2 aq rl =>
    replace h : execAmoandW rd rs1 rs2 aq rl s = .next t := h
    unfold execAmoandW at h
    exact effect_amoWith h rfl
  case amoorW rd rs1 rs2 aq rl =>
    replace h : execAmoorW rd rs1 rs2 aq rl s = .next t := h
    unfold execAmoorW at h
    exact effect_amoWith h rfl
  case amominW rd rs1 rs2 aq rl =>
    replace h : execAmominW rd rs1 rs2 aq rl s = .next t := h
    unfold execAmominW at h
    exact effect_amoWith h rfl
  case amomaxW rd rs1 rs2 aq rl =>
    replace h : execAmomaxW rd rs1 rs2 aq rl s = .next t := h
    unfold execAmomaxW at h
    exact effect_amoWith h rfl
  case amominuW rd rs1 rs2 aq rl =>
    replace h : execAmominuW rd rs1 rs2 aq rl s = .next t := h
    unfold execAmominuW at h
    exact effect_amoWith h rfl
  case amomaxuW rd rs1 rs2 aq rl =>
    replace h : execAmomaxuW rd rs1 rs2 aq rl s = .next t := h
    unfold execAmomaxuW at h
    exact effect_amoWith h rfl
  case csrrw | csrrs | csrrc | csrrwi | csrrsi | csrrci => exact effect_csrWith h rfl
  all_goals (cases h; exact .computes _ _)

/-- An executed instruction retires, in the engine state it began in, or takes a trap that is no interrupt (R359). -/
theorem Effect.retires_or_traps {i : Instr} {s t : State} (h : Effect s i t) :
    (Retired s t ∧ t.engine = s.engine ∧ t.cfg = s.cfg) ∨ ∃ c v, TrapTaken s t c v s.pc := by
  cases h with
  | computes rd v => exact .inl ⟨retired_writeBack s rd v, by simp, by simp⟩
  | links rd v a => exact .inl ⟨retired_link s rd v a, by simp, by simp⟩
  | goes a => exact .inl ⟨retired_goTo s a, by simp, by simp⟩
  | traps c v hc => exact .inr ⟨_, _, trapTaken_raise_exception s c v hc⟩
  | loads rd f a w v u hr =>
    obtain ⟨g, ut, d, rfl⟩ := State.memRead_frame hr
    exact .inl ⟨retired_writeBack _ rd (f v), by simp, by simp⟩
  | stores a w v u ht hw =>
    obtain ⟨m, g, ut, d, rfl⟩ := State.memWrite_frame hw
    exact .inl ⟨retired_advance _, by simp, by simp⟩
  | modifies rd a v x u u' ht hr hw =>
    obtain ⟨g, ut, d, rfl⟩ := State.memRead_frame hr
    obtain ⟨m, g', ut', d', rfl⟩ := State.memWrite_frame hw
    exact .inl ⟨retired_writeBack _ rd v, by simp, by simp⟩
  | modifyTraps rd a v u hr =>
    have ht := trapTaken_of_drawReg (trapTaken_raise_exception (u.drawReg rd v) .storeAccessFault a rfl)
    rw [State.drawReg_pc] at ht
    obtain ⟨g, ut, d, rfl⟩ := State.memRead_frame hr
    exact .inr ⟨_, _, ht⟩
  | reserves rd rs1 aq rl v u hi hr =>
    obtain ⟨g, ut, d, rfl⟩ := State.memRead_frame hr
    exact .inl ⟨retired_writeBack _ rd v, by simp, by simp⟩
  | reserveTraps rd rs1 aq rl hi =>
    exact .inr ⟨_, _, trapTaken_of_drawResv (by simpa using trapTaken_raise_exception (s.drawResv _) .loadAccessFault _ rfl)⟩
  | storesIf rd rs1 rs2 aq rl u hi hw =>
    obtain ⟨m, g, ut, d, rfl⟩ := State.memWrite_frame hw
    exact .inl ⟨retired_writeBack _ rd _, by simp, by simp⟩
  | storesNot rd rs1 rs2 aq rl hi => exact .inl ⟨retired_writeBack _ rd _, by simp, by simp⟩
  | storeIfTraps rd rs1 rs2 aq rl hi =>
    have ht := trapTaken_of_drawReg (trapTaken_of_drawResv (trapTaken_raise_exception
      ((s.drawReg rd 0#32).drawResv (resvAfterSc s.cfg s.resv)) .storeAccessFault (s.getReg rs1) rfl))
    simp only [State.drawResv_pc, State.drawReg_pc] at ht
    exact .inr ⟨_, _, ht⟩
  | csr rd c write f u hi ha hw hn hu =>
    obtain ⟨m, e, tv, mc, ms, mp, ca, va, rfl⟩ := hu
    exact .inl ⟨retired_writeBack _ rd _, by simp, by simp⟩
  | csrTraps rd v w =>
    exact .inr ⟨_, _, trapTaken_of_drawReg (by simpa using trapTaken_raise_exception (s.drawReg rd v) .illegalInstr w rfl)⟩
  | returns p hi hm hp => exact .inl ⟨retired_goTo _ _, by simp, by simp⟩

end Sys2Proof.Machine
end

