-- ==== Sys2Proof/Laws/PerInstr.lean ====
section
/-! SUPPORT. Statements about every instruction, one lemma per constructor. `Encoding`: the word of an instruction is a word of
its row of spec/opcode_table.json. -/

namespace Sys2Proof.Laws

theorem and_ones7 (x : BitVec 7) : x &&& 0x7F#7 = x := BitVec.and_allOnes
theorem and_ones5 (x : BitVec 5) : x &&& 0x1F#5 = x := BitVec.and_allOnes
theorem and_ones3 (x : BitVec 3) : x &&& 7#3 = x := BitVec.and_allOnes

/-- A row's mask leaves the fixed fields of an R-type word. -/
theorem encR_mask (f7 : BitVec 7) (rs2 rs1 : Reg) (f3 : BitVec 3) (rd : Reg) (op : BitVec 7) :
    encR f7 rs2 rs1 f3 rd op &&& 0xFE00707F#32 = encR f7 0#5 0#5 f3 0#5 op := by
  rw [show (0xFE00707F#32 : Word) = 0x7F#7 ++ 0#5 ++ 0#5 ++ 7#3 ++ 0#5 ++ 0x7F#7 by decide]
  change (f7 ++ rs2 ++ rs1 ++ f3 ++ rd ++ op) &&& (0x7F#7 ++ 0#5 ++ 0#5 ++ 7#3 ++ 0#5 ++ 0x7F#7) = _
  simp only [BitVec.and_append, BitVec.and_zero, and_ones7, and_ones3]
  rfl

theorem encI_mask (imm : BitVec 12) (rs1 : Reg) (f3 : BitVec 3) (rd : Reg) (op : BitVec 7) :
    encI imm rs1 f3 rd op &&& 0x0000707F#32 = encI 0#12 0#5 f3 0#5 op := by
  rw [show (0x0000707F#32 : Word) = 0#12 ++ 0#5 ++ 7#3 ++ 0#5 ++ 0x7F#7 by decide]
  change (imm ++ rs1 ++ f3 ++ rd ++ op) &&& (0#12 ++ 0#5 ++ 7#3 ++ 0#5 ++ 0x7F#7) = _
  simp only [BitVec.and_append, BitVec.and_zero, and_ones7, and_ones3]
  rfl

theorem encS_mask (imm : BitVec 12) (rs2 rs1 : Reg) (f3 : BitVec 3) (op : BitVec 7) :
    encS imm rs2 rs1 f3 op &&& 0x0000707F#32 = encS 0#12 0#5 0#5 f3 op := by
  rw [show (0x0000707F#32 : Word) = 0#7 ++ 0#5 ++ 0#5 ++ 7#3 ++ 0#5 ++ 0x7F#7 by decide]
  change (imm.extractLsb' 5 7 ++ rs2 ++ rs1 ++ f3 ++ imm.extractLsb' 0 5 ++ op) &&&
    (0#7 ++ 0#5 ++ 0#5 ++ 7#3 ++ 0#5 ++ 0x7F#7) = _
  simp only [BitVec.and_append, BitVec.and_zero, and_ones7, and_ones3]
  rfl

theorem encB_mask (off : BitVec 13) (rs2 rs1 : Reg) (f3 : BitVec 3) (op : BitVec 7) :
    encB off rs2 rs1 f3 op &&& 0x0000707F#32 = encB 0#13 0#5 0#5 f3 op := by
  rw [show (0x0000707F#32 : Word) = 0#1 ++ 0#6 ++ 0#5 ++ 0#5 ++ 7#3 ++ 0#4 ++ 0#1 ++ 0x7F#7 by decide]
  change (off.extractLsb' 12 1 ++ off.extractLsb' 5 6 ++ rs2 ++ rs1 ++ f3 ++ off.extractLsb' 1 4 ++ off.extractLsb' 11 1 ++
    op) &&& (0#1 ++ 0#6 ++ 0#5 ++ 0#5 ++ 7#3 ++ 0#4 ++ 0#1 ++ 0x7F#7) = _
  simp only [BitVec.and_append, BitVec.and_zero, and_ones7, and_ones3]
  rfl

theorem encU_mask (imm20 : BitVec 20) (rd : Reg) (op : BitVec 7) :
    encU imm20 rd op &&& 0x0000007F#32 = encU 0#20 0#5 op := by
  rw [show (0x0000007F#32 : Word) = 0#20 ++ 0#5 ++ 0x7F#7 by decide]
  change (imm20 ++ rd ++ op) &&& (0#20 ++ 0#5 ++ 0x7F#7) = _
  simp only [BitVec.and_append, BitVec.and_zero, and_ones7]
  rfl

theorem encJ_mask (off : BitVec 21) (rd : Reg) (op : BitVec 7) :
    encJ off rd op &&& 0x0000007F#32 = encJ 0#21 0#5 op := by
  rw [show (0x0000007F#32 : Word) = 0#1 ++ 0#10 ++ 0#1 ++ 0#8 ++ 0#5 ++ 0x7F#7 by decide]
  change (off.extractLsb' 20 1 ++ off.extractLsb' 1 10 ++ off.extractLsb' 11 1 ++ off.extractLsb' 12 8 ++ rd ++ op) &&&
    (0#1 ++ 0#10 ++ 0#1 ++ 0#8 ++ 0#5 ++ 0x7F#7) = _
  simp only [BitVec.and_append, BitVec.and_zero, and_ones7]
  rfl

theorem encAmo_mask (f5 : BitVec 5) (aq rl : BitVec 1) (rs2 rs1 rd : Reg) :
    encAmo f5 aq rl rs2 rs1 rd &&& 0xF800707F#32 = encAmo f5 0#1 0#1 0#5 0#5 0#5 := by
  rw [show (0xF800707F#32 : Word) = 0x1F#5 ++ 0#1 ++ 0#1 ++ 0#5 ++ 0#5 ++ 7#3 ++ 0#5 ++ 0x7F#7 by decide]
  change (f5 ++ aq ++ rl ++ rs2 ++ rs1 ++ 0b010#3 ++ rd ++ 0b0101111#7) &&&
    (0x1F#5 ++ 0#1 ++ 0#1 ++ 0#5 ++ 0#5 ++ 7#3 ++ 0#5 ++ 0x7F#7) = _
  simp only [BitVec.and_append, BitVec.and_zero, and_ones7, and_ones5, and_ones3]
  rfl

theorem encLr_mask (aq rl : BitVec 1) (rs1 rd : Reg) :
    encAmo 0b00010#5 aq rl 0#5 rs1 rd &&& 0xF9F0707F#32 = 0x1000202F#32 := by
  rw [show (0xF9F0707F#32 : Word) = 0x1F#5 ++ 0#1 ++ 0#1 ++ 0x1F#5 ++ 0#5 ++ 7#3 ++ 0#5 ++ 0x7F#7 by decide]
  change (0b00010#5 ++ aq ++ rl ++ 0#5 ++ rs1 ++ 0b010#3 ++ rd ++ 0b0101111#7) &&&
    (0x1F#5 ++ 0#1 ++ 0#1 ++ 0x1F#5 ++ 0#5 ++ 7#3 ++ 0#5 ++ 0x7F#7) = _
  simp only [BitVec.and_append, BitVec.and_zero, and_ones7, and_ones5, and_ones3]
  rfl

namespace Encoding

/-- The word of the instruction, under the mask of its row, is the row's match. -/
def Statement (i : Instr) : Prop := encode i &&& (tableRow i).mask = (tableRow i).pattern

theorem lui (rd : Reg) (imm20 : BitVec 20) : Statement (.lui rd imm20) := (encU_mask _ _ _).trans rfl
theorem auipc (rd : Reg) (imm20 : BitVec 20) : Statement (.auipc rd imm20) := (encU_mask _ _ _).trans rfl
theorem jal (rd : Reg) (off : BitVec 21) : Statement (.jal rd off) := (encJ_mask _ _ _).trans rfl
theorem jalr (rd rs1 : Reg) (imm : BitVec 12) : Statement (.jalr rd rs1 imm) := (encI_mask _ _ _ _ _).trans rfl
theorem beq (rs1 rs2 : Reg) (off : BitVec 13) : Statement (.beq rs1 rs2 off) := (encB_mask _ _ _ _ _).trans rfl
theorem bne (rs1 rs2 : Reg) (off : BitVec 13) : Statement (.bne rs1 rs2 off) := (encB_mask _ _ _ _ _).trans rfl
theorem blt (rs1 rs2 : Reg) (off : BitVec 13) : Statement (.blt rs1 rs2 off) := (encB_mask _ _ _ _ _).trans rfl
theorem bge (rs1 rs2 : Reg) (off : BitVec 13) : Statement (.bge rs1 rs2 off) := (encB_mask _ _ _ _ _).trans rfl
theorem bltu (rs1 rs2 : Reg) (off : BitVec 13) : Statement (.bltu rs1 rs2 off) := (encB_mask _ _ _ _ _).trans rfl
theorem bgeu (rs1 rs2 : Reg) (off : BitVec 13) : Statement (.bgeu rs1 rs2 off) := (encB_mask _ _ _ _ _).trans rfl
theorem lb (rd rs1 : Reg) (imm : BitVec 12) : Statement (.lb rd rs1 imm) := (encI_mask _ _ _ _ _).trans rfl
theorem lh (rd rs1 : Reg) (imm : BitVec 12) : Statement (.lh rd rs1 imm) := (encI_mask _ _ _ _ _).trans rfl
theorem lw (rd rs1 : Reg) (imm : BitVec 12) : Statement (.lw rd rs1 imm) := (encI_mask _ _ _ _ _).trans rfl
theorem lbu (rd rs1 : Reg) (imm : BitVec 12) : Statement (.lbu rd rs1 imm) := (encI_mask _ _ _ _ _).trans rfl
theorem lhu (rd rs1 : Reg) (imm : BitVec 12) : Statement (.lhu rd rs1 imm) := (encI_mask _ _ _ _ _).trans rfl
theorem sb (rs1 rs2 : Reg) (imm : BitVec 12) : Statement (.sb rs1 rs2 imm) := (encS_mask _ _ _ _ _).trans rfl
theorem sh (rs1 rs2 : Reg) (imm : BitVec 12) : Statement (.sh rs1 rs2 imm) := (encS_mask _ _ _ _ _).trans rfl
theorem sw (rs1 rs2 : Reg) (imm : BitVec 12) : Statement (.sw rs1 rs2 imm) := (encS_mask _ _ _ _ _).trans rfl
theorem addi (rd rs1 : Reg) (imm : BitVec 12) : Statement (.addi rd rs1 imm) := (encI_mask _ _ _ _ _).trans rfl
theorem slti (rd rs1 : Reg) (imm : BitVec 12) : Statement (.slti rd rs1 imm) := (encI_mask _ _ _ _ _).trans rfl
theorem sltiu (rd rs1 : Reg) (imm : BitVec 12) : Statement (.sltiu rd rs1 imm) := (encI_mask _ _ _ _ _).trans rfl
theorem xori (rd rs1 : Reg) (imm : BitVec 12) : Statement (.xori rd rs1 imm) := (encI_mask _ _ _ _ _).trans rfl
theorem ori (rd rs1 : Reg) (imm : BitVec 12) : Statement (.ori rd rs1 imm) := (encI_mask _ _ _ _ _).trans rfl
theorem andi (rd rs1 : Reg) (imm : BitVec 12) : Statement (.andi rd rs1 imm) := (encI_mask _ _ _ _ _).trans rfl
theorem slli (rd rs1 : Reg) (shamt : BitVec 5) : Statement (.slli rd rs1 shamt) := (encR_mask _ _ _ _ _ _).trans rfl
theorem srli (rd rs1 : Reg) (shamt : BitVec 5) : Statement (.srli rd rs1 shamt) := (encR_mask _ _ _ _ _ _).trans rfl
theorem srai (rd rs1 : Reg) (shamt : BitVec 5) : Statement (.srai rd rs1 shamt) := (encR_mask _ _ _ _ _ _).trans rfl
theorem add (rd rs1 rs2 : Reg) : Statement (.add rd rs1 rs2) := (encR_mask _ _ _ _ _ _).trans rfl
theorem sub (rd rs1 rs2 : Reg) : Statement (.sub rd rs1 rs2) := (encR_mask _ _ _ _ _ _).trans rfl
theorem sll (rd rs1 rs2 : Reg) : Statement (.sll rd rs1 rs2) := (encR_mask _ _ _ _ _ _).trans rfl
theorem slt (rd rs1 rs2 : Reg) : Statement (.slt rd rs1 rs2) := (encR_mask _ _ _ _ _ _).trans rfl
theorem sltu (rd rs1 rs2 : Reg) : Statement (.sltu rd rs1 rs2) := (encR_mask _ _ _ _ _ _).trans rfl
theorem xor (rd rs1 rs2 : Reg) : Statement (.xor rd rs1 rs2) := (encR_mask _ _ _ _ _ _).trans rfl
theorem srl (rd rs1 rs2 : Reg) : Statement (.srl rd rs1 rs2) := (encR_mask _ _ _ _ _ _).trans rfl
theorem sra (rd rs1 rs2 : Reg) : Statement (.sra rd rs1 rs2) := (encR_mask _ _ _ _ _ _).trans rfl
theorem or (rd rs1 rs2 : Reg) : Statement (.or rd rs1 rs2) := (encR_mask _ _ _ _ _ _).trans rfl
theorem and (rd rs1 rs2 : Reg) : Statement (.and rd rs1 rs2) := (encR_mask _ _ _ _ _ _).trans rfl
theorem fence (rd rs1 : Reg) (fm pred succ : BitVec 4) : Statement (.fence rd rs1 fm pred succ) := (encI_mask _ _ _ _ _).trans rfl
theorem fenceI (rd rs1 : Reg) (imm : BitVec 12) : Statement (.fenceI rd rs1 imm) := (encI_mask _ _ _ _ _).trans rfl
theorem ecall : Statement (.ecall) := rfl
theorem ebreak : Statement (.ebreak) := rfl
theorem mul (rd rs1 rs2 : Reg) : Statement (.mul rd rs1 rs2) := (encR_mask _ _ _ _ _ _).trans rfl
theorem mulh (rd rs1 rs2 : Reg) : Statement (.mulh rd rs1 rs2) := (encR_mask _ _ _ _ _ _).trans rfl
theorem mulhsu (rd rs1 rs2 : Reg) : Statement (.mulhsu rd rs1 rs2) := (encR_mask _ _ _ _ _ _).trans rfl
theorem mulhu (rd rs1 rs2 : Reg) : Statement (.mulhu rd rs1 rs2) := (encR_mask _ _ _ _ _ _).trans rfl
theorem div (rd rs1 rs2 : Reg) : Statement (.div rd rs1 rs2) := (encR_mask _ _ _ _ _ _).trans rfl
theorem divu (rd rs1 rs2 : Reg) : Statement (.divu rd rs1 rs2) := (encR_mask _ _ _ _ _ _).trans rfl
theorem rem (rd rs1 rs2 : Reg) : Statement (.rem rd rs1 rs2) := (encR_mask _ _ _ _ _ _).trans rfl
theorem remu (rd rs1 rs2 : Reg) : Statement (.remu rd rs1 rs2) := (encR_mask _ _ _ _ _ _).trans rfl
theorem lrW (rd rs1 : Reg) (aq rl : BitVec 1) : Statement (.lrW rd rs1 aq rl) := encLr_mask _ _ _ _
theorem scW (rd rs1 rs2 : Reg) (aq rl : BitVec 1) : Statement (.scW rd rs1 rs2 aq rl) := (encAmo_mask _ _ _ _ _ _).trans rfl
theorem amoswapW (rd rs1 rs2 : Reg) (aq rl : BitVec 1) : Statement (.amoswapW rd rs1 rs2 aq rl) := (encAmo_mask _ _ _ _ _ _).trans rfl
theorem amoaddW (rd rs1 rs2 : Reg) (aq rl : BitVec 1) : Statement (.amoaddW rd rs1 rs2 aq rl) := (encAmo_mask _ _ _ _ _ _).trans rfl
theorem amoxorW (rd rs1 rs2 : Reg) (aq rl : BitVec 1) : Statement (.amoxorW rd rs1 rs2 aq rl) := (encAmo_mask _ _ _ _ _ _).trans rfl
theorem amoandW (rd rs1 rs2 : Reg) (aq rl : BitVec 1) : Statement (.amoandW rd rs1 rs2 aq rl) := (encAmo_mask _ _ _ _ _ _).trans rfl
theorem amoorW (rd rs1 rs2 : Reg) (aq rl : BitVec 1) : Statement (.amoorW rd rs1 rs2 aq rl) := (encAmo_mask _ _ _ _ _ _).trans rfl
theorem amominW (rd rs1 rs2 : Reg) (aq rl : BitVec 1) : Statement (.amominW rd rs1 rs2 aq rl) := (encAmo_mask _ _ _ _ _ _).trans rfl
theorem amomaxW (rd rs1 rs2 : Reg) (aq rl : BitVec 1) : Statement (.amomaxW rd rs1 rs2 aq rl) := (encAmo_mask _ _ _ _ _ _).trans rfl
theorem amominuW (rd rs1 rs2 : Reg) (aq rl : BitVec 1) : Statement (.amominuW rd rs1 rs2 aq rl) := (encAmo_mask _ _ _ _ _ _).trans rfl
theorem amomaxuW (rd rs1 rs2 : Reg) (aq rl : BitVec 1) : Statement (.amomaxuW rd rs1 rs2 aq rl) := (encAmo_mask _ _ _ _ _ _).trans rfl
theorem csrrw (rd rs1 : Reg) (csr : CsrNum) : Statement (.csrrw rd rs1 csr) := (encI_mask _ _ _ _ _).trans rfl
theorem csrrs (rd rs1 : Reg) (csr : CsrNum) : Statement (.csrrs rd rs1 csr) := (encI_mask _ _ _ _ _).trans rfl
theorem csrrc (rd rs1 : Reg) (csr : CsrNum) : Statement (.csrrc rd rs1 csr) := (encI_mask _ _ _ _ _).trans rfl
theorem csrrwi (rd : Reg) (uimm : BitVec 5) (csr : CsrNum) : Statement (.csrrwi rd uimm csr) := (encI_mask _ _ _ _ _).trans rfl
theorem csrrsi (rd : Reg) (uimm : BitVec 5) (csr : CsrNum) : Statement (.csrrsi rd uimm csr) := (encI_mask _ _ _ _ _).trans rfl
theorem csrrci (rd : Reg) (uimm : BitVec 5) (csr : CsrNum) : Statement (.csrrci rd uimm csr) := (encI_mask _ _ _ _ _).trans rfl
theorem mret : Statement (.mret) := rfl

end Encoding

end Sys2Proof.Laws
end

