-- ==== Sys2Proof/Laws/Step.lean ====
section
/-! SUPPORT. All a step can do, said once: `step_effect`. What every step keeps is a case analysis over the constructors of
`StepEffect`, and below `executes` over those of `Effect`. -/

namespace Sys2Proof.Machine

/-- The host invokes the engine with the budget `n` and lists `r` after it (R408; log entry 3). -/
def Invoked (s : State) (n : Nat) (r : List HostMove) : Prop := s.host = .run n :: r ∨ (s.host = [] ∧ r = [] ∧ n = 1)

theorem Invoked.entered {s : State} {n : Nat} {r : List HostMove} (h : Invoked s n r) (hb : BetweenBatches s) (hn : n ≠ 0)
    (hi : ¬ InterruptReady s) : Entered s { s with host := r, batchRetired := 0, batchLeft := n } := by
  rcases h with h | ⟨h, rfl, rfl⟩
  · exact .starts n r hb h hn hi
  · have he := Entered.alone hb h hi
    rwa [show ({ s with batchRetired := 0, batchLeft := 1 } : State) =
      { s with host := [], batchRetired := 0, batchLeft := 1 } by rw [← h]] at he

/-- The next states of a step. -/
inductive StepEffect (s : State) : State → Prop where
  | finishes (c : Trap) (he : s.engine = .trapEntry c) : StepEffect s s.completeTrap
  | resets (r : List HostMove) (hb : BetweenBatches s) (hh : s.host = .reset :: r) :
      StepEffect s (State.hostReset { s with host := r })
  | loads (r : List HostMove) (image : List Byte) (hb : BetweenBatches s) (hh : s.host = .load image :: r)
      (hl : Config.imageBase + image.length ≤ Config.ramEnd) :
      StepEffect s { s with host := r, mem := Mem.copy s.mem Config.imageBase image }
  | injects (r : List HostMove) (bytes : List Byte) (hb : BetweenBatches s) (hh : s.host = .inject bytes :: r) :
      StepEffect s (State.hostInject { s with host := r } bytes)
  | drains (r : List HostMove) (n : Nat) (hb : BetweenBatches s) (hh : s.host = .drain n :: r) :
      StepEffect s (State.hostDrain { s with host := r } n)
  | interrupts (r : List HostMove) (n : Nat) (hb : BetweenBatches s) (hh : Invoked s n r) (hi : InterruptReady s) :
      StepEffect s (State.raise { s with host := r } (.interrupt 11) 0#32)
  | idles (r : List HostMove) (hb : BetweenBatches s) (hh : s.host = .run 0 :: r) (hi : ¬ InterruptReady s) :
      StepEffect s { s with host := r }
  | fetchFaults (u : State) (hu : Entered s u) : StepEffect s (u.raise .instrAccessFault u.pc)
  | illegal (u : State) (hu : Entered s u) (w : Word) : StepEffect s (u.raise .illegalInstr w)
  | executes (u t : State) (i : Instr) (hu : Entered s u) (hp : InRam s.pc 4) (hd : decodeWord (wordAtPc s) = .ok i)
      (hx : exec i u = .next t) : StepEffect s t

theorem Entered.pc_mem {s u : State} (h : Entered s u) : u.pc = s.pc ∧ u.mem = s.mem := by
  cases h <;> exact ⟨rfl, rfl⟩

theorem Entered.wordAtPc {s u : State} (h : Entered s u) : wordAtPc u = wordAtPc s := by
  simp only [Machine.wordAtPc, wordAt, byteAt, h.pc_mem.1, h.pc_mem.2]

/-- The state the next step executes in is one, where there is one. -/
theorem Entered.unique {s u v : State} (h : Entered s u) (k : Entered s v) : v = u := by
  cases h with
  | inside a =>
    cases k with
    | inside => rfl
    | starts _ _ b => exact absurd b.2 a.2
    | alone b => exact absurd b.2 a.2
  | starts n r a b =>
    cases k with
    | inside c => exact absurd a.2 c.2
    | starts _ _ _ d => cases b.symm.trans d; rfl
    | alone _ d => cases b.symm.trans d
  | alone a b =>
    cases k with
    | inside c => exact absurd a.2 c.2
    | starts _ _ _ d => cases b.symm.trans d
    | alone => rfl

theorem effect_runInstr {s u t : State} (hu : Entered s u) (h : u.runInstr = .next t) : StepEffect s t := by
  have hpc := hu.pc_mem.1
  unfold State.runInstr at h
  by_cases hp : InRam u.pc 4
  · rw [State.fetch_inRam hp] at h
    simp only [hu.wordAtPc] at h
    split at h
    · cases h
      exact .illegal u hu _
    · exact .executes u t _ hu (hpc ▸ hp) ‹_› h
  · rw [State.fetch_outside hp] at h
    cases h
    exact .fetchFaults u hu

theorem effect_runBatch {s t : State} {r : List HostMove} {n : Nat} (hb : BetweenBatches s)
    (hh : Invoked s n r)
    (h : State.runBatch { s with host := r } n = .next t) : StepEffect s t := by
  unfold State.runBatch at h
  rw [State.interrupt_eq] at h
  by_cases hi : InterruptReady s
  · rw [if_pos hi] at h
    cases h
    exact .interrupts r n hb hh hi
  · rw [if_neg hi] at h
    simp only at h
    split at h
    · cases h
      subst n
      exact .idles r hb (hh.resolve_right (fun k => by cases k.2.2)) hi
    · exact effect_runInstr (hh.entered hb ‹_› hi) h

/-- The inversion lemma of `step`. -/
theorem step_effect {s t : State} (h : step s = .next t) : StepEffect s t := by
  change s.engineStep = _ at h
  unfold State.engineStep at h
  split at h
  · cases h
    exact .finishes _ ‹_›
  · rename_i he
    split at h
    · rename_i hl
      have hb : BetweenBatches s := ⟨he, hl⟩
      unfold State.hostTurn at h
      split at h
      · exact effect_runBatch (r := s.host) hb (.inr ⟨‹_›, ‹_›, rfl⟩) h
      · rename_i m r hh
        cases m with
        | reset => cases h; exact .resets r hb hh
        | load image =>
          change State.hostLoad _ image = _ at h
          unfold State.hostLoad at h
          split at h
          · cases h
            exact .loads r image hb hh ‹_›
          · cases h
        | run n => exact effect_runBatch hb (.inl hh) h
        | inject bytes => cases h; exact .injects r bytes hb hh
        | drain n => cases h; exact .drains r n hb hh
    · exact effect_runInstr (.inside ⟨he, ‹_›⟩) h

/-- Where a step executes an instruction, it is one turn of the engine's loop (R358). -/
theorem step_entered {s u : State} (h : Entered s u) : step s = u.runInstr := by
  change s.engineStep = _
  cases h with
  | inside hb => simp only [State.engineStep, hb.1, hb.2, if_false]
  | starts n r hb hh hn hi =>
    simp only [State.engineStep, hb.1, hb.2, if_true, State.hostTurn, hh, State.hostMove, State.runBatch]
    rw [State.interrupt_eq, if_neg hi]
    simp only [hn, if_false]
  | alone hb hh hi =>
    simp only [State.engineStep, hb.1, hb.2, if_true, State.hostTurn, hh, State.runBatch]
    rw [State.interrupt_eq, if_neg hi]
    simp only [Nat.one_ne_zero, if_false]

/-- A failed fetch (R341). -/
theorem step_fetchFaults {s u : State} (h : Entered s u) (hp : ¬ InRam s.pc 4) :
    step s = .next (u.raise .instrAccessFault s.pc) := by
  rw [step_entered h, State.runInstr, State.fetch_outside (h.pc_mem.1 ▸ hp), h.pc_mem.1]

/-- A word that does not decode (R342). -/
theorem step_illegal {s u : State} {e : DecodeError} (h : Entered s u) (hp : InRam s.pc 4)
    (hd : decodeWord (wordAtPc s) = .error e) : step s = .next (u.raise .illegalInstr (wordAtPc s)) := by
  rw [step_entered h, State.runInstr, State.fetch_inRam (h.pc_mem.1 ▸ hp), h.wordAtPc]
  simp only [hd]

/-- A word that decodes is executed. -/
theorem step_executes {s u : State} {i : Instr} (h : Entered s u) (hp : InRam s.pc 4)
    (hd : decodeWord (wordAtPc s) = .ok i) : step s = exec i u := by
  rw [step_entered h, State.runInstr, State.fetch_inRam (h.pc_mem.1 ▸ hp), h.wordAtPc]
  simp only [hd]

/-- Inside a batch a step executes what pc's word decodes to. -/
theorem step_inBatch {s : State} {i : Instr} (hb : InBatch s) (hp : InRam s.pc 4) (hd : decodeWord (wordAtPc s) = .ok i) :
    step s = exec i s := by
  exact step_executes (.inside hb) hp hd

/-- The host's placed word is what the next step executes. -/
theorem step_withFetchWord (s : State) (nbits w : Nat) {i : Instr}
    (hd : decodeWord (BitVec.ofNat 32 (w % 2 ^ nbits)) = .ok i) :
    step (s.withFetchWord nbits w) = exec i (s.withFetchWord nbits w) := by
  have hf : (s.fetchablePc).toNat + 4 ≤ Config.ramEnd := by
    unfold State.fetchablePc
    split
    · assumption
    · decide
  refine step_inBatch ⟨rfl, ?_⟩ hf ?_
  · change (if s.batchLeft = 0 then 1 else s.batchLeft) ≠ 0
    split <;> omega
  · have hw : wordAtPc (s.withFetchWord nbits w) = BitVec.ofNat 32 (w % 2 ^ nbits) := by
      refine (Mem.ofNat_readLE_four _ _).symm.trans ?_
      change BitVec.ofNat 32 (Mem.readLE (Mem.writeLE s.mem s.fetchablePc.toNat _ 4) s.fetchablePc.toNat 4) = _
      rw [Mem.readLE_writeLE]
      apply BitVec.eq_of_toNat_eq
      simp
    rw [hw]
    exact hd

end Sys2Proof.Machine
end

