-- ==== Sys2Proof/Tests/Slice0.lean ====
section
/-! SUPPORT. The model's own tests. Part 1: well-formedness. Part 2: decoding, one word of the spec for every constructor. Part 3: single
steps. Expected values are the spec's: the identifiers (UJ-1, ...) are the vectors of 95_test_vectors, the others its rules' examples.
Part 4: for every obligation with hypotheses, a state and operands that meet them. -/

namespace Sys2Proof.Tests

open Sys2Proof.Machine

/-! ## Part 1: well-formedness (R105, R107) -/

theorem test_wf_refuses_odd_branches :
    (Instr.beq 1#5 2#5 7#13).wellFormed = false ∧ (Instr.bne 1#5 2#5 1#13).wellFormed = false ∧
    (Instr.blt 1#5 2#5 0x1FFF#13).wellFormed = false ∧ (Instr.bge 1#5 2#5 3#13).wellFormed = false ∧
    (Instr.bltu 1#5 2#5 5#13).wellFormed = false ∧ (Instr.bgeu 1#5 2#5 9#13).wellFormed = false := by decide

theorem test_wf_refuses_odd_jump : (Instr.jal 1#5 0x1FFFFF#21).wellFormed = false := by decide

theorem test_wf_accepts :
    (Instr.beq 1#5 2#5 0x1FFE#13).wellFormed = true ∧ (Instr.jal 0#5 0x1FFFFE#21).wellFormed = true ∧
    (Instr.jalr 1#5 5#5 3#12).wellFormed = true := by decide

/-! ## Part 2: decoding -/

/-- UJ-1, UJ-4, UJ-7, UJ-10, UJ-13. -/
theorem test_decode_upper_jump :
    decodeWord 0x123452B7#32 = .ok (.lui 5#5 0x12345#20) ∧
    decodeWord 0x00001317#32 = .ok (.auipc 6#5 1#20) ∧
    decodeWord 0xFFDFF06F#32 = .ok (.jal 0#5 0x1FFFFC#21) ∧
    decodeWord 0x8000006F#32 = .ok (.jal 0#5 0x100000#21) ∧
    decodeWord 0xFFF28067#32 = .ok (.jalr 0#5 5#5 0xFFF#12) := by decide

/-- BR-12 to BR-14, BR-3, BR-5, BR-7, BR-9, BR-11. -/
theorem test_decode_branch :
    decodeWord 0x80000063#32 = .ok (.beq 0#5 0#5 0x1000#13) ∧
    decodeWord 0x7E000FE3#32 = .ok (.beq 0#5 0#5 4094#13) ∧
    decodeWord 0xFE009FE3#32 = .ok (.bne 1#5 0#5 0x1FFE#13) ∧
    decodeWord 0x00209863#32 = .ok (.bne 1#5 2#5 16#13) ∧
    decodeWord 0x0020C463#32 = .ok (.blt 1#5 2#5 8#13) ∧
    decodeWord 0x0020D463#32 = .ok (.bge 1#5 2#5 8#13) ∧
    decodeWord 0x0020E463#32 = .ok (.bltu 1#5 2#5 8#13) ∧
    decodeWord 0x0000F463#32 = .ok (.bgeu 1#5 0#5 8#13) := by decide

/-- the examples of R181 to R188. -/
theorem test_decode_load_store :
    decodeWord 0x00228303#32 = .ok (.lb 6#5 5#5 2#12) ∧
    decodeWord 0x00229303#32 = .ok (.lh 6#5 5#5 2#12) ∧
    decodeWord 0x0002A303#32 = .ok (.lw 6#5 5#5 0#12) ∧
    decodeWord 0x0012C303#32 = .ok (.lbu 6#5 5#5 1#12) ∧
    decodeWord 0x0022D303#32 = .ok (.lhu 6#5 5#5 2#12) ∧
    decodeWord 0x006281A3#32 = .ok (.sb 5#5 6#5 3#12) ∧
    decodeWord 0x00629123#32 = .ok (.sh 5#5 6#5 2#12) ∧
    decodeWord 0xFE62AE23#32 = .ok (.sw 5#5 6#5 0xFFC#12) := by decide

/-- IA-2, IA-3, IA-5, IA-8 to IA-12, IA-14. -/
theorem test_decode_imm_arith :
    decodeWord 0x80030293#32 = .ok (.addi 5#5 6#5 0x800#12) ∧
    decodeWord 0xFFF32293#32 = .ok (.slti 5#5 6#5 0xFFF#12) ∧
    decodeWord 0xFFF33293#32 = .ok (.sltiu 5#5 6#5 0xFFF#12) ∧
    decodeWord 0xFFF34293#32 = .ok (.xori 5#5 6#5 0xFFF#12) ∧
    decodeWord 0xF0036293#32 = .ok (.ori 5#5 6#5 0xF00#12) ∧
    decodeWord 0xF0037293#32 = .ok (.andi 5#5 6#5 0xF00#12) ∧
    decodeWord 0x01F31293#32 = .ok (.slli 5#5 6#5 31#5) ∧
    decodeWord 0x01F35293#32 = .ok (.srli 5#5 6#5 31#5) ∧
    decodeWord 0x40435293#32 = .ok (.srai 5#5 6#5 4#5) := by decide

/-- RR-1 to RR-8, RR-10, RR-11; XOR: RR-9. -/
theorem test_decode_op_arith :
    decodeWord 0x007302B3#32 = .ok (.add 5#5 6#5 7#5) ∧
    decodeWord 0x407302B3#32 = .ok (.sub 5#5 6#5 7#5) ∧
    decodeWord 0x007312B3#32 = .ok (.sll 5#5 6#5 7#5) ∧
    decodeWord 0x007322B3#32 = .ok (.slt 5#5 6#5 7#5) ∧
    decodeWord 0x007032B3#32 = .ok (.sltu 5#5 0#5 7#5) ∧
    decodeWord 0x006342B3#32 = .ok (.xor 5#5 6#5 6#5) ∧
    decodeWord 0x007352B3#32 = .ok (.srl 5#5 6#5 7#5) ∧
    decodeWord 0x407352B3#32 = .ok (.sra 5#5 6#5 7#5) ∧
    decodeWord 0x000362B3#32 = .ok (.or 5#5 6#5 0#5) ∧
    decodeWord 0x007372B3#32 = .ok (.and 5#5 6#5 7#5) := by decide

/-- MD-1 to MD-18. -/
theorem test_decode_muldiv :
    decodeWord 0x027302B3#32 = .ok (.mul 5#5 6#5 7#5) ∧
    decodeWord 0x027312B3#32 = .ok (.mulh 5#5 6#5 7#5) ∧
    decodeWord 0x027322B3#32 = .ok (.mulhsu 5#5 6#5 7#5) ∧
    decodeWord 0x027332B3#32 = .ok (.mulhu 5#5 6#5 7#5) ∧
    decodeWord 0x027342B3#32 = .ok (.div 5#5 6#5 7#5) ∧
    decodeWord 0x027352B3#32 = .ok (.divu 5#5 6#5 7#5) ∧
    decodeWord 0x027362B3#32 = .ok (.rem 5#5 6#5 7#5) ∧
    decodeWord 0x027372B3#32 = .ok (.remu 5#5 6#5 7#5) := by decide

/-- AM-1, AM-4, AM-9 to AM-17, AM-23. -/
theorem test_decode_amo :
    decodeWord 0x100322AF#32 = .ok (.lrW 5#5 6#5 0#1 0#1) ∧
    decodeWord 0x188323AF#32 = .ok (.scW 7#5 6#5 8#5 0#1 0#1) ∧
    decodeWord 0x087322AF#32 = .ok (.amoswapW 5#5 6#5 7#5 0#1 0#1) ∧
    decodeWord 0x067322AF#32 = .ok (.amoaddW 5#5 6#5 7#5 1#1 1#1) ∧
    decodeWord 0x207322AF#32 = .ok (.amoxorW 5#5 6#5 7#5 0#1 0#1) ∧
    decodeWord 0x607322AF#32 = .ok (.amoandW 5#5 6#5 7#5 0#1 0#1) ∧
    decodeWord 0x407322AF#32 = .ok (.amoorW 5#5 6#5 7#5 0#1 0#1) ∧
    decodeWord 0x807322AF#32 = .ok (.amominW 5#5 6#5 7#5 0#1 0#1) ∧
    decodeWord 0xA07322AF#32 = .ok (.amomaxW 5#5 6#5 7#5 0#1 0#1) ∧
    decodeWord 0xC07322AF#32 = .ok (.amominuW 5#5 6#5 7#5 0#1 0#1) ∧
    decodeWord 0xE07322AF#32 = .ok (.amomaxuW 5#5 6#5 7#5 0#1 0#1) := by decide

/-- MM-1, MM-2. -/
theorem test_decode_misc_mem :
    decodeWord 0x0FF0000F#32 = .ok (.fence 0#5 0#5 0#4 0xF#4 0xF#4) ∧
    decodeWord 0x0000100F#32 = .ok (.fenceI 0#5 0#5 0#12) := by decide

/-- the examples of R308 to R316. -/
theorem test_decode_system :
    decodeWord 0x340312F3#32 = .ok (.csrrw 5#5 6#5 0x340#12) ∧
    decodeWord 0x300322F3#32 = .ok (.csrrs 5#5 6#5 0x300#12) ∧
    decodeWord 0x300332F3#32 = .ok (.csrrc 5#5 6#5 0x300#12) ∧
    decodeWord 0x3408D2F3#32 = .ok (.csrrwi 5#5 17#5 0x340#12) ∧
    decodeWord 0x300462F3#32 = .ok (.csrrsi 5#5 8#5 0x300#12) ∧
    decodeWord 0x300472F3#32 = .ok (.csrrci 5#5 8#5 0x300#12) ∧
    decodeWord 0x00000073#32 = .ok (.ecall) ∧
    decodeWord 0x00100073#32 = .ok (.ebreak) ∧
    decodeWord 0x30200073#32 = .ok (.mret) := by decide

/-- The words the vectors call illegal (UJ-15, BR-15, LS-22, LS-23, IA-15, IA-16, RR-13, RR-14, AM-24 to AM-26, MM-3, CS-37, SY-10 to
SY-12, TR-3 to TR-5): no instruction is read from any of them. -/
theorem test_illegal_words :
    ([0x00029067#32, 0x0020A463#32, 0x0002B303#32, 0x0062B023#32, 0x02131293#32, 0x42135293#32,
      0x407312B3#32, 0x047302B3#32, 0x007302AF#32, 0x107322AF#32, 0x287322AF#32, 0x0000200F#32,
      0x300042F3#32, 0x10500073#32, 0x10200073#32, 0x12000073#32, 0x0000000B#32, 0x00000000#32,
      0xFFFFFFFF#32].all
      fun w => match decodeWord w with
        | .ok _ => false
        | .error _ => true) = true := by decide

/-- The host's numbering: a word of fewer bits is the word with zeros above (R100, R64). -/
theorem test_decode_table_word :
    decodeTableWord 32 0x123452B7 = some (.lui 5#5 0x12345#20) ∧ decodeTableWord 8 0x12345673 = some .ecall ∧
    decodeTableWord 32 0 = none ∧ decodeBytes [0xEF#8, 0x00#8, 0x80#8, 0x00#8, 0x13#8] = .ok (.jal 1#5 8#21, [0x13#8]) ∧
    decodeBytes [0xEF#8, 0x00#8, 0x80#8] = .error .tooShort := by decide

/-! ## Part 3: single steps -/

/-- After reset, with the parameters of the vectors, mtvec 0x2000 and the registers listed. -/
def start (regs : List (Reg × Word)) : State :=
  regs.foldl (fun s p => s.setReg p.1 p.2) { State.reset with cfg := Config.suggested, mtvec := 0x2000#32 }

/-- A state with a word stored little-endian at an address. -/
def withWord (s : State) (a : Nat) (w : Word) : State := { s with mem := Mem.writeLE s.mem a w.toNat 4 }

/-- The word at the next fetch is `w`, in a batch of the state's budget, or of 1. -/
def placed (w : Word) (s : State) : State := s.withFetchWord 32 w.toNat

/-- The state after one step, where it goes on. -/
def ran (s : State) : Option State :=
  match step s with
  | .next t => some t
  | .fault _ => none
  | .refused _ => none

/-- What the vectors list of a register instruction: one register and the pc. -/
def shows (r : Reg) (w : Word) (s : State) : Option (Word × Word) := (ran (placed w s)).map fun t => (t.getReg r, t.pc)

/-- What the vectors list of a trap: mcause, mtval, mepc, mstatus and the pc. -/
def traps (w : Word) (s : State) : Option (Word × Word × Word × Word × Word) :=
  (ran (placed w s)).map fun t => (t.mcause, t.mtval, t.mepc, t.mstatus, t.pc)

/-- What the vectors list of an AMO: rd, the word in memory and the reservation. -/
def amo (r : Reg) (w : Word) (s : State) : Option (Word × Word × Option Word) :=
  (ran (placed w s)).map fun t => (t.getReg r, wordAt t 0x3000#32, t.resv)

/-- UJ-2. -/
theorem test_lui : shows 5#5 0xFFFFF2B7#32 (start []) = some (0xFFFFF000#32, 0x1004#32) := by decide

/-- UJ-5. -/
theorem test_auipc_wraps : shows 6#5 0xFFFFF317#32 (start []) = some (0#32, 0x1004#32) := by decide

/-- UJ-9: no misaligned-target exception. -/
theorem test_jal_odd_halfword : shows 0#5 0x0020006F#32 (start []) = some (0#32, 0x1002#32) := by decide

/-- UJ-8. -/
theorem test_jal_links : shows 1#5 0x000000EF#32 (start []) = some (0x1004#32, 0x1000#32) := by decide

/-- UJ-12: the target uses the old x5. -/
theorem test_jalr_reads_first : shows 5#5 0x000282E7#32 (start [(5#5, 0x3000#32)]) = some (0x1004#32, 0x3000#32) := by decide

/-- UJ-11. -/
theorem test_jalr_clears_bit_0 : shows 1#5 0x002280E7#32 (start [(5#5, 0x2001#32)]) = some (0x1004#32, 0x2002#32) := by decide

/-- BR-12. -/
theorem test_beq_backward : shows 0#5 0x80000063#32 { (start []) with pc := 0x2000#32 } = some (0#32, 0x1000#32) := by decide

/-- BR-4. -/
theorem test_bne_not_taken : shows 0#5 0x00001863#32 (start []) = some (0#32, 0x1004#32) := by decide

/-- BR-5. -/
theorem test_blt_signed : shows 0#5 0x0020C463#32 (start [(1#5, 0x80000000#32), (2#5, 0x7FFFFFFF#32)]) = some (0#32, 0x1008#32) := by decide

/-- BR-8. -/
theorem test_bge_signed : shows 0#5 0x0020D463#32 (start [(1#5, 0xFFFFFFFF#32), (2#5, 1#32)]) = some (0#32, 0x1004#32) := by decide

/-- BR-7. -/
theorem test_bge_equal : shows 0#5 0x0020D463#32 (start [(1#5, 3#32), (2#5, 3#32)]) = some (0#32, 0x1008#32) := by decide

/-- BR-9. -/
theorem test_bltu_unsigned : shows 0#5 0x0020E463#32 (start [(1#5, 0xFFFFFFFF#32), (2#5, 1#32)]) = some (0#32, 0x1004#32) := by decide

/-- BR-11. -/
theorem test_bgeu_x0 : shows 0#5 0x0000F463#32 (start [(1#5, 0#32)]) = some (0#32, 0x1008#32) := by decide

/-- the example of R181. -/
theorem test_lb_sign_extends : shows 6#5 0x00228303#32 (withWord (start [(5#5, 0x2000#32)]) 0x2000 0x00FF0000#32) = some (0xFFFFFFFF#32, 0x1004#32) := by decide

/-- the example of R182. -/
theorem test_lh_sign_extends : shows 6#5 0x00229303#32 (withWord (start [(5#5, 0x2000#32)]) 0x2000 0x80000000#32) = some (0xFFFF8000#32, 0x1004#32) := by decide

/-- LS-2. -/
theorem test_lh_at_the_end_of_ram : shows 6#5 0x00029303#32 (withWord (start [(5#5, 0xBFFFFFFE#32)]) 0xBFFFFFFC 0x92340000#32) = some (0xFFFF9234#32, 0x1004#32) := by decide

/-- LS-1. -/
theorem test_lw_misaligned : shows 6#5 0x0012A303#32 (withWord (start [(5#5, 0x2000#32)]) 0x2001 0x44332211#32) = some (0x44332211#32, 0x1004#32) := by decide

/-- the example of R184. -/
theorem test_lbu_zero_extends : shows 6#5 0x0012C303#32 (withWord (start [(5#5, 0x2000#32)]) 0x2000 0x0000FF00#32) = some (0xFF#32, 0x1004#32) := by decide

/-- the example of R185. -/
theorem test_lhu_zero_extends : shows 6#5 0x0022D303#32 (withWord (start [(5#5, 0x2000#32)]) 0x2000 0x80000000#32) = some (0x8000#32, 0x1004#32) := by decide

/-- LS-3. -/
theorem test_lw_straddles_ram_end : traps 0x0002A303#32 (start [(5#5, 0xBFFFFFFE#32)]) =
    some (5#32, 0xBFFFFFFE#32, 0x1000#32, 0x1800#32, 0x2000#32) := by decide

/-- LS-6. -/
theorem test_sw_to_an_empty_slot : traps 0x0062A023#32 (start [(5#5, 0xC0000000#32), (6#5, 1#32)]) =
    some (7#32, 0xC0000000#32, 0x1000#32, 0x1800#32, 0x2000#32) := by decide

/-- LS-7. -/
theorem test_sh_crosses_slots : traps 0xFE629FA3#32 (start [(5#5, 0xC3000000#32), (6#5, 1#32)]) =
    some (7#32, 0xC2FFFFFF#32, 0x1000#32, 0x1800#32, 0x2000#32) := by decide

/-- the example of R186. -/
theorem test_sb : (ran (placed 0x006281A3#32 (start [(5#5, 0x2000#32), (6#5, 0x12345678#32)]))).map (fun t => wordAt t 0x2000#32) = some 0x78000000#32 := by decide

/-- the example of R187. -/
theorem test_sh : (ran (placed 0x00629123#32 (start [(5#5, 0x2000#32), (6#5, 0x12345678#32)]))).map (fun t => wordAt t 0x2000#32) = some 0x56780000#32 := by decide

/-- the example of R188. -/
theorem test_sw : (ran (placed 0xFE62AE23#32 (start [(5#5, 0x2004#32), (6#5, 0xFFFFFFFE#32)]))).map (fun t => wordAt t 0x2000#32) =
    some 0xFFFFFFFE#32 := by decide

/-- LS-21: 0x00628023 at 0x1000 becomes 0x00628013. -/
theorem test_sb_overwrites_itself : (ran (placed 0x00628023#32 (start [(5#5, 0x1000#32), (6#5, 0x13#32)]))).map (fun t => wordAt t 0x1000#32) =
    some 0x00628013#32 := by decide

/-- IA-1. -/
theorem test_addi_wraps : shows 5#5 0x00130293#32 (start [(6#5, 0x7FFFFFFF#32)]) = some (0x80000000#32, 0x1004#32) := by decide

/-- IA-2. -/
theorem test_addi_sign_extends : shows 5#5 0x80030293#32 (start [(6#5, 0#32)]) = some (0xFFFFF800#32, 0x1004#32) := by decide

/-- IA-3. -/
theorem test_slti_signed : shows 5#5 0xFFF32293#32 (start [(6#5, 0x80000000#32)]) = some (1#32, 0x1004#32) := by decide

/-- IA-5. -/
theorem test_sltiu_sign_extends_first : shows 5#5 0xFFF33293#32 (start [(6#5, 0xFFFFFFFE#32)]) = some (1#32, 0x1004#32) := by decide

/-- IA-8. -/
theorem test_xori : shows 5#5 0xFFF34293#32 (start [(6#5, 0xF0F0F0F#32)]) = some (0xF0F0F0F0#32, 0x1004#32) := by decide

/-- IA-9. -/
theorem test_ori : shows 5#5 0xF0036293#32 (start [(6#5, 0x12#32)]) = some (0xFFFFFF12#32, 0x1004#32) := by decide

/-- IA-10. -/
theorem test_andi : shows 5#5 0xF0037293#32 (start [(6#5, 0x12345678#32)]) = some (0x12345600#32, 0x1004#32) := by decide

/-- IA-11. -/
theorem test_slli : shows 5#5 0x01F31293#32 (start [(6#5, 3#32)]) = some (0x80000000#32, 0x1004#32) := by decide

/-- IA-12. -/
theorem test_srli : shows 5#5 0x01F35293#32 (start [(6#5, 0x80000000#32)]) = some (1#32, 0x1004#32) := by decide

/-- IA-13. -/
theorem test_srai_negative : shows 5#5 0x41F35293#32 (start [(6#5, 0x80000000#32)]) = some (0xFFFFFFFF#32, 0x1004#32) := by decide

/-- IA-14. -/
theorem test_srai_positive : shows 5#5 0x40435293#32 (start [(6#5, 0x7FFFFFF0#32)]) = some (0x7FFFFFF#32, 0x1004#32) := by decide

/-- RR-1. -/
theorem test_add_wraps : shows 5#5 0x007302B3#32 (start [(6#5, 0xFFFFFFFF#32), (7#5, 1#32)]) = some (0#32, 0x1004#32) := by decide

/-- RR-2. -/
theorem test_sub : shows 5#5 0x407302B3#32 (start [(6#5, 0x80000000#32), (7#5, 1#32)]) = some (0x7FFFFFFF#32, 0x1004#32) := by decide

/-- RR-3. -/
theorem test_sll_masks_the_amount : shows 5#5 0x007312B3#32 (start [(6#5, 1#32), (7#5, 0x21#32)]) = some (2#32, 0x1004#32) := by decide

/-- RR-4. -/
theorem test_srl_masks_the_amount : shows 5#5 0x007352B3#32 (start [(6#5, 0x80000000#32), (7#5, 0xFFFFFFFF#32)]) = some (1#32, 0x1004#32) := by decide

/-- RR-5. -/
theorem test_sra_by_32 : shows 5#5 0x407352B3#32 (start [(6#5, 0x80000000#32), (7#5, 0x20#32)]) = some (0x80000000#32, 0x1004#32) := by decide

/-- RR-6. -/
theorem test_sra_negative : shows 5#5 0x407352B3#32 (start [(6#5, 0x80000000#32), (7#5, 4#32)]) = some (0xF8000000#32, 0x1004#32) := by decide

/-- RR-7. -/
theorem test_slt_signed : shows 5#5 0x007322B3#32 (start [(6#5, 0xFFFFFFFF#32), (7#5, 0#32)]) = some (1#32, 0x1004#32) := by decide

/-- RR-8. -/
theorem test_sltu : shows 5#5 0x007032B3#32 (start [(6#5, 0#32), (7#5, 9#32)]) = some (1#32, 0x1004#32) := by decide

/-- RR-9. -/
theorem test_xor_same : shows 5#5 0x006342B3#32 (start [(6#5, 0x1234#32), (7#5, 0#32)]) = some (0#32, 0x1004#32) := by decide

/-- RR-10. -/
theorem test_or : shows 5#5 0x000362B3#32 (start [(6#5, 0x1234#32), (7#5, 0#32)]) = some (0x1234#32, 0x1004#32) := by decide

/-- RR-11. -/
theorem test_and : shows 5#5 0x007372B3#32 (start [(6#5, 0xF0F0#32), (7#5, 0xFF00#32)]) = some (0xF000#32, 0x1004#32) := by decide

/-- MD-1. -/
theorem test_divu_by_zero : shows 5#5 0x027352B3#32 (start [(6#5, 5#32), (7#5, 0#32)]) = some (0xFFFFFFFF#32, 0x1004#32) := by decide

/-- MD-10. -/
theorem test_divu : shows 5#5 0x027352B3#32 (start [(6#5, 0x80000000#32), (7#5, 0xFFFFFFFF#32)]) = some (0#32, 0x1004#32) := by decide

/-- MD-3. -/
theorem test_div_overflow : shows 5#5 0x027342B3#32 (start [(6#5, 0x80000000#32), (7#5, 0xFFFFFFFF#32)]) = some (0x80000000#32, 0x1004#32) := by decide

/-- MD-7. -/
theorem test_div_truncates : shows 5#5 0x027342B3#32 (start [(6#5, 0xFFFFFFF9#32), (7#5, 2#32)]) = some (0xFFFFFFFD#32, 0x1004#32) := by decide

/-- MD-4. -/
theorem test_rem_overflow : shows 5#5 0x027362B3#32 (start [(6#5, 0x80000000#32), (7#5, 0xFFFFFFFF#32)]) = some (0#32, 0x1004#32) := by decide

/-- MD-8. -/
theorem test_rem_sign : shows 5#5 0x027362B3#32 (start [(6#5, 0xFFFFFFF9#32), (7#5, 2#32)]) = some (0xFFFFFFFF#32, 0x1004#32) := by decide

/-- MD-6. -/
theorem test_remu_by_zero : shows 5#5 0x027372B3#32 (start [(6#5, 5#32), (7#5, 0#32)]) = some (5#32, 0x1004#32) := by decide

/-- MD-12. -/
theorem test_mul_wraps : shows 5#5 0x027302B3#32 (start [(6#5, 0xFFFFFFFF#32), (7#5, 0xFFFFFFFF#32)]) = some (1#32, 0x1004#32) := by decide

/-- MD-13. -/
theorem test_mulh_negatives : shows 5#5 0x027312B3#32 (start [(6#5, 0xFFFFFFFF#32), (7#5, 0xFFFFFFFF#32)]) = some (0#32, 0x1004#32) := by decide

/-- MD-14. -/
theorem test_mulh_min : shows 5#5 0x027312B3#32 (start [(6#5, 0x80000000#32), (7#5, 0x80000000#32)]) = some (0x40000000#32, 0x1004#32) := by decide

/-- MD-15. -/
theorem test_mulhsu : shows 5#5 0x027322B3#32 (start [(6#5, 0xFFFFFFFF#32), (7#5, 0xFFFFFFFF#32)]) = some (0xFFFFFFFF#32, 0x1004#32) := by decide

/-- MD-16. -/
theorem test_mulhsu_min : shows 5#5 0x027322B3#32 (start [(6#5, 0x80000000#32), (7#5, 0xFFFFFFFF#32)]) = some (0x80000000#32, 0x1004#32) := by decide

/-- MD-17. -/
theorem test_mulhu : shows 5#5 0x027332B3#32 (start [(6#5, 0xFFFFFFFF#32), (7#5, 0xFFFFFFFF#32)]) = some (0xFFFFFFFE#32, 0x1004#32) := by decide

/-- RR-12. -/
theorem test_x0_discards : shows 0#5 0x00730033#32 (start [(6#5, 1#32), (7#5, 1#32)]) = some (0#32, 0x1004#32) := by decide

/-- A state with the reservation. -/
def reserved (s : State) (r : Option Word) : State := { s with resv := r }

/-- AM-2. -/
theorem test_lr_replaces : amo 5#5 0x100322AF#32
    (withWord (reserved (start [(6#5, 0x3000#32), (7#5, 0#32)]) (some 0x4000#32)) 0x3000 0x2A#32) = some (0x2A#32, 0x2A#32, some 0x3000#32) := by decide

/-- AM-4. -/
theorem test_sc_succeeds : amo 7#5 0x188323AF#32
    (withWord (reserved (start [(6#5, 0x3000#32), (8#5, 7#32)]) (some 0x3000#32)) 0x3000 0x2A#32) = some (0#32, 7#32, none) := by decide

/-- AM-6. -/
theorem test_sc_other_address : amo 7#5 0x188323AF#32
    (withWord (reserved (start [(6#5, 0x3000#32), (8#5, 7#32)]) (some 0x3004#32)) 0x3000 0x2A#32) = some (1#32, 0x2A#32, none) := by decide

/-- AM-19. -/
theorem test_amoswap_keeps_resv : amo 5#5 0x087322AF#32
    (withWord (reserved (start [(6#5, 0x3000#32), (7#5, 9#32)]) (some 0x3000#32)) 0x3000 0x11#32) = some (0x11#32, 9#32, some 0x3000#32) := by decide

/-- AM-10. -/
theorem test_amoadd_wraps : amo 5#5 0x007322AF#32
    (withWord (reserved (start [(6#5, 0x3000#32), (7#5, 2#32)]) none) 0x3000 0xFFFFFFFF#32) = some (0xFFFFFFFF#32, 1#32, none) := by decide

/-- AM-11. -/
theorem test_amoxor : amo 5#5 0x207322AF#32
    (withWord (reserved (start [(6#5, 0x3000#32), (7#5, 0xF#32)]) none) 0x3000 0xFF#32) = some (0xFF#32, 0xF0#32, none) := by decide

/-- AM-12. -/
theorem test_amoand : amo 5#5 0x607322AF#32
    (withWord (reserved (start [(6#5, 0x3000#32), (7#5, 0xF#32)]) none) 0x3000 0xFF#32) = some (0xFF#32, 0xF#32, none) := by decide

/-- AM-13. -/
theorem test_amoor : amo 5#5 0x407322AF#32
    (withWord (reserved (start [(6#5, 0x3000#32), (7#5, 0xF#32)]) none) 0x3000 0xF0#32) = some (0xF0#32, 0xFF#32, none) := by decide

/-- AM-14. -/
theorem test_amomin : amo 5#5 0x807322AF#32
    (withWord (reserved (start [(6#5, 0x3000#32), (7#5, 1#32)]) none) 0x3000 0xFFFFFFFF#32) = some (0xFFFFFFFF#32, 0xFFFFFFFF#32, none) := by decide

/-- AM-15. -/
theorem test_amomax : amo 5#5 0xA07322AF#32
    (withWord (reserved (start [(6#5, 0x3000#32), (7#5, 1#32)]) none) 0x3000 0xFFFFFFFF#32) = some (0xFFFFFFFF#32, 1#32, none) := by decide

/-- AM-16. -/
theorem test_amominu : amo 5#5 0xC07322AF#32
    (withWord (reserved (start [(6#5, 0x3000#32), (7#5, 1#32)]) none) 0x3000 0xFFFFFFFF#32) = some (0xFFFFFFFF#32, 1#32, none) := by decide

/-- AM-17. -/
theorem test_amomaxu : amo 5#5 0xE07322AF#32
    (withWord (reserved (start [(6#5, 0x3000#32), (7#5, 1#32)]) none) 0x3000 0xFFFFFFFF#32) = some (0xFFFFFFFF#32, 0xFFFFFFFF#32, none) := by decide

/-- AM-20. -/
theorem test_amo_read_faults_first : traps 0x007322AF#32 (start [(6#5, 0xC0000000#32), (7#5, 1#32)]) =
    some (5#32, 0xC0000000#32, 0x1000#32, 0x1800#32, 0x2000#32) := by decide

/-- MM-1. -/
theorem test_fence : shows 0#5 0x0FF0000F#32 (start []) = some (0#32, 0x1004#32) := by decide

/-- MM-2. -/
theorem test_fence_i : shows 0#5 0x0000100F#32 (start []) = some (0#32, 0x1004#32) := by decide

/-- A state with the aggregator's masks. -/
def lines (s : State) (pending served : BitVec 32) : State := { s with agg := ⟨pending, served⟩ }

/-- LS-9 and LS-12: a claim gives the lowest pending unserved source, at the claim register and at its alias. -/
theorem test_claim :
    (ran (placed 0x0042A303#32 (lines (start [(5#5, 0xC2000000#32)]) 0b101#32 0b001#32))).map
      (fun t => (t.getReg 6#5, t.agg)) = some (3#32, ⟨0b101#32, 0b101#32⟩) ∧
    (ran (placed 0x0042A303#32 (lines (start [(5#5, 0xF2000000#32)]) 1#32 0#32))).map
      (fun t => (t.getReg 6#5, t.agg)) = some (1#32, ⟨1#32, 1#32⟩) := by decide

/-- LS-15 and LS-17: a complete clears the served bit of its source; an id outside 1 to 32 is ignored. -/
theorem test_complete :
    (ran (placed 0x0072A223#32 (lines (start [(5#5, 0xC2000000#32), (7#5, 1#32)]) 1#32 1#32))).map (fun t => t.agg) =
      some ⟨1#32, 0#32⟩ ∧
    (ran (placed 0x0072A223#32 (lines (start [(5#5, 0xC2000000#32), (7#5, 33#32)]) 1#32 1#32))).map (fun t => t.agg) =
      some ⟨1#32, 1#32⟩ := by decide

/-- AM-21: an AMO claims and completes. -/
theorem test_amo_claims_and_completes :
    (ran (placed 0x000322AF#32 (lines (start [(6#5, 0xC2000004#32)]) 1#32 0#32))).map (fun t => (t.getReg 5#5, t.agg)) =
      some (1#32, ⟨1#32, 0#32⟩) := by decide

/-- LS-13: a 16-bit claim is refused. -/
theorem test_narrow_claim_faults :
    traps 0x00429303#32 (lines (start [(5#5, 0xC2000000#32)]) 1#32 0#32) =
      some (5#32, 0xC2000004#32, 0x1000#32, 0x1800#32, 0x2000#32) := by decide

/-- A UART with the accessors of UT-1, reads of rxdata and writes of the divisor, a byte to be received and a full or empty transmit FIFO. -/
def uartState (tx rx : List Byte) (regs : List (Reg × Word)) : State :=
  { start regs with
    cfg := { Config.suggested with
      uartWidths := [⟨.write, .txdata, .byte⟩, ⟨.read, .txdata, .word⟩, ⟨.read, .rxdata, .word⟩,
        ⟨.write, .baudDivisor, .word⟩] }
    uart := ⟨tx, rx⟩ }

/-- UT-1: the eighth byte is enqueued, the ninth is not, and neither traps. -/
theorem test_uart_transmit :
    (ran (placed 0x00628023#32 (uartState (List.replicate 7 0x41#8) [] [(5#5, 0xC1000000#32), (6#5, 0x41#32)]))).map
      (fun t => (t.uart.tx, t.pc)) = some (List.replicate 8 0x41#8, 0x1004#32) ∧
    (ran (placed 0x00628023#32 (uartState (List.replicate 8 0x41#8) [] [(5#5, 0xC1000000#32), (6#5, 0x41#32)]))).map
      (fun t => (t.uart.tx, t.pc)) = some (List.replicate 8 0x41#8, 0x1004#32) := by decide

/-- R372 items 3 and 5: a read of rxdata takes the oldest byte; one of the empty FIFO takes none. -/
theorem test_uart_receive :
    (ran (placed 0x0042A303#32 (uartState [] [0x55#8, 0x66#8] [(5#5, 0xC1000000#32)]))).map
      (fun t => (t.uart.rx, t.pc)) = some ([0x66#8], 0x1004#32) ∧
    (ran (placed 0x0042A303#32 (uartState [] [] [(5#5, 0xC1000000#32)]))).map (fun t => (t.uart.rx, t.pc)) =
      some ([], 0x1004#32) := by decide

/-- R372 item 4: a write of the divisor (`sw x6, 24(x5)`) has no effect on the FIFOs, the line or the interrupt. -/
theorem test_uart_divisor :
    (ran (placed 0x0062AC23#32 (lines (uartState [0x41#8] [0x55#8] [(5#5, 0xC1000000#32), (6#5, 7#32)]) 1#32 0#32))).map
      (fun t => (t.uart, t.agg, t.mip, t.pc)) = some (⟨[0x41#8], [0x55#8]⟩, ⟨1#32, 0#32⟩, 0x800#32, 0x1004#32) := by decide

/-- CS-28: the old x5 is written. -/
theorem test_csrrw_swaps : (ran (placed 0x340292F3#32 { start [(5#5, 0x22#32)] with mscratch := 0x11#32 })).map
    (fun t => (t.getReg 5#5, t.mscratch, t.pc)) = some (0x11#32, 0x22#32, 0x1004#32) := by decide

/-- CS-19. -/
theorem test_csrrw_masks_mstatus : (ran (placed 0x300312F3#32 (start [(6#5, 0xFFFFFFFF#32)]))).map
    (fun t => (t.getReg 5#5, t.mstatus, t.pc)) = some (0#32, 0x1888#32, 0x1004#32) := by decide

/-- the example of R309. -/
theorem test_csrrs : (ran (placed 0x300322F3#32 { start [(6#5, 8#32)] with mstatus := 0x1800#32 })).map
    (fun t => (t.getReg 5#5, t.mstatus, t.pc)) = some (0x1800#32, 0x1808#32, 0x1004#32) := by decide

/-- CS-34. -/
theorem test_csrrc : (ran (placed 0x300332F3#32 { start [(6#5, 0x1800#32)] with mstatus := 0x1888#32 })).map
    (fun t => (t.getReg 5#5, t.mstatus, t.pc)) = some (0x1888#32, 0x88#32, 0x1004#32) := by decide

/-- the example of R311. -/
theorem test_csrrwi : (ran (placed 0x3408D2F3#32 { start [] with mscratch := 0x22#32 })).map
    (fun t => (t.getReg 5#5, t.mscratch, t.pc)) = some (0x22#32, 0x11#32, 0x1004#32) := by decide

/-- CS-35. -/
theorem test_csrrsi_masks_mie : (ran (placed 0x304FE2F3#32 (start []))).map
    (fun t => (t.getReg 5#5, t.mie, t.pc)) = some (0#32, 8#32, 0x1004#32) := by decide

/-- the example of R313. -/
theorem test_csrrci : (ran (placed 0x300472F3#32 { start [] with mstatus := 0x88#32 })).map
    (fun t => (t.getReg 5#5, t.mstatus, t.pc)) = some (0x88#32, 0x80#32, 0x1004#32) := by decide

/-- CS-12 and CS-13: the write is suppressed by the value 0 of x6, and attempted otherwise. -/
theorem test_csr_by_value_of_rs1 : shows 5#5 0xC00322F3#32 { start [] with cycle := 3#64 } = some (3#32, 0x1004#32) ∧
    traps 0xC00322F3#32 { start [(6#5, 1#32)] with cycle := 3#64 } = some (2#32, 0xC00322F3#32, 0x1000#32, 0x1800#32, 0x2000#32) := by decide

/-- CS-4 and CS-6. -/
theorem test_csr_counter_gate : traps 0xC00022F3#32 { start [] with priv := .user, cycle := 0x100000005#64 } =
      some (2#32, 0xC00022F3#32, 0x1000#32, 0#32, 0x2000#32) ∧
    shows 5#5 0xC80022F3#32 { start [] with priv := .user, mcounteren := 1#32, cycle := 0x100000005#64 } =
      some (1#32, 0x1004#32) := by decide

/-- CS-3. -/
theorem test_csr_privilege_gate : traps 0x340022F3#32 { start [] with priv := .supervisor } =
    some (2#32, 0x340022F3#32, 0x1000#32, 0x800#32, 0x2000#32) := by decide

/-- CS-16 and CS-18. -/
theorem test_misa : shows 5#5 0x301022F3#32 (start []) = some (0x40101101#32, 0x1004#32) ∧
    shows 5#5 0x301332F3#32 (start []) = some (0x40101101#32, 0x1004#32) := by decide

/-- SY-1. -/
theorem test_ecall_machine : traps 0x00000073#32 { start [] with mstatus := 8#32 } = some (11#32, 0#32, 0x1000#32, 0x1880#32, 0x2000#32) := by decide

/-- SY-2. -/
theorem test_ecall_supervisor : traps 0x00000073#32 { start [] with priv := .supervisor, mstatus := 8#32 } =
    some (9#32, 0#32, 0x1000#32, 0x880#32, 0x2000#32) := by decide

/-- SY-4. -/
theorem test_ebreak : traps 0x00100073#32 { start [] with pc := 0x1004#32 } = some (3#32, 0#32, 0x1004#32, 0x1800#32, 0x2000#32) := by decide

/-- SY-5. -/
theorem test_mret_to_user : (ran (placed 0x30200073#32 { start [] with mstatus := 0x80#32, mepc := 0x1008#32 })).map
    (fun t => (t.priv, t.mstatus, t.pc)) = some (.user, 0x88#32, 0x1008#32) := by decide

/-- SY-9. -/
theorem test_mret_below_machine : traps 0x30200073#32 { start [] with priv := .user, mstatus := 0x1880#32, mepc := 0x1008#32 } =
    some (2#32, 0x30200073#32, 0x1000#32, 0#32, 0x2000#32) := by decide

/-- SY-8: MPP = 2 is refused where MPP2_PRIV is not given. -/
theorem test_mret_reserved :
    (match step (placed 0x30200073#32 { start [] with mstatus := 0x1008#32 }) with
      | .refused .mppReserved => true
      | _ => false) = true := by decide

/-- TR-1 and TR-2: no fetch beyond RAM. -/
theorem test_fetch_faults :
    (ran { start [] with batchLeft := 1, pc := 0xBFFFFFFE#32 }).map (fun t => (t.mcause, t.mtval, t.pc)) =
      some (1#32, 0xBFFFFFFE#32, 0x2000#32) ∧
    (ran { start [] with batchLeft := 1, pc := 0xC0000000#32 }).map (fun t => (t.mcause, t.mtval, t.pc)) =
      some (1#32, 0xC0000000#32, 0x2000#32) := by decide

/-- TR-4: the all-ones word. -/
theorem test_illegal_word_traps :
    traps 0xFFFFFFFF#32 (start []) = some (2#32, 0xFFFFFFFF#32, 0x1000#32, 0x1800#32, 0x2000#32) := by decide

/-- `addi x1, x1, 1` at pc, source 1 pending, and a batch about to start. -/
def interruptible (mstatus mie : Word) (n : Nat) : State :=
  { lines (placed 0x00108093#32 (start [])) 1#32 0#32 with mstatus := mstatus, mie := mie, batchLeft := 0, host := [.run n] }

/-- TR-6, TR-8 and TR-11: masked by MIE; taken; taken with a budget of 0. -/
theorem test_interrupt :
    (ran (interruptible 0#32 0x800#32 1)).map (fun t => (t.getReg 1#5, t.mcause, t.pc)) = some (1#32, 0#32, 0x1004#32) ∧
    (ran (interruptible 8#32 0x800#32 1)).map (fun t => (t.getReg 1#5, t.mcause, t.pc)) = some (0#32, 0x8000000B#32, 0x2000#32) ∧
    (ran (interruptible 8#32 0x800#32 0)).map (fun t => (t.mstatus, t.mcause, t.mepc)) =
      some (0x1880#32, 0x8000000B#32, 0x1000#32) := by decide

/-- The counters of a `run(1)`, R359: each gains 1 at the end of the batch. -/
theorem test_counters :
    (ran (placed 0x0000100F#32 (start []))).map (fun t => (t.cycle, t.instret, t.batchLeft)) = some (1#64, 1#64, 0) := by
  decide

/-- RS-1: reset clears the core and keeps RAM. -/
theorem test_reset_keeps_ram :
    (ran { withWord (lines (start [(10#5, 1#32)]) 1#32 1#32) 0x3000 42#32 with mstatus := 0x88#32, host := [.reset] }).map
      (fun t => (t.getReg 10#5, t.mstatus, t.agg, wordAt t 0x3000#32, t.pc)) =
    some (0#32, 0#32, ⟨0#32, 0#32⟩, 42#32, 0x1000#32) := by decide

/-- MC-2, MC-4, MC-8, MC-9 and MC-11. -/
theorem test_classify :
    classify 0xBFFFFFFC#32 .word = .ram ∧ classify 0xBFFFFFFF#32 .half = .split ∧
    classify 0xC2FFFFFC#32 .word = .device 2#4 0xFFFFFC#24 ∧ classify 0xC2FFFFFE#32 .word = .split ∧
    classify 0xFFFFFFFE#32 .word = .split := by decide

/-! ## Part 4: the hypotheses of the obligations can be met -/

def goesOn : Answer → Bool
  | .next _ => true
  | .fault _ => false
  | .refused _ => false

theorem exists_of_goesOn {o : Answer} (h : goesOn o = true) : ∃ t, o = .next t := by
  cases o with
  | next t => exact ⟨t, rfl⟩
  | fault r => simp [goesOn] at h
  | refused r => simp [goesOn] at h

/-- The state an answer gives, or `s`. -/
def answered (s : State) : Answer → State
  | .next t => t
  | .fault _ => s
  | .refused _ => s

theorem eq_answered {s : State} {o : Answer} (h : goesOn o = true) : o = .next (answered s o) := by
  cases o with
  | next t => rfl
  | fault r => simp [goesOn] at h
  | refused r => simp [goesOn] at h

/-- `addi x5, x0, -1` at pc, in a batch of 1. -/
def busy : State := placed 0xFFF00293#32 (start [(6#5, 0xBFFFFFFC#32), (7#5, 0x3000#32)])

/-- The same, between batches, with the host's list. -/
def idle (host : List HostMove) : State := { busy with batchLeft := 0, host := host }

theorem busy_inBatch : InBatch busy := ⟨rfl, by decide⟩

theorem idle_betweenBatches (host : List HostMove) : BetweenBatches (idle host) := ⟨rfl, rfl⟩

/-- A state in which the next step executes an instruction: inside a batch, at the start of a listed one, and of one by default. -/
theorem busy_entered : Entered busy busy := .inside busy_inBatch

theorem idle_entered_run : Entered (idle [.run 3]) { idle [.run 3] with host := [], batchRetired := 0, batchLeft := 3 } :=
  .starts 3 [] (idle_betweenBatches _) rfl (by decide) (by decide)

theorem idle_entered_alone : Entered (idle []) { idle [] with batchRetired := 0, batchLeft := 1 } :=
  .alone (idle_betweenBatches _) rfl (by decide)

theorem busy_inRam : InRam busy.pc 4 := by unfold InRam; decide

theorem busy_decodes : decodeWord (wordAtPc busy) = .ok (.addi 5#5 0#5 0xFFF#12) := by decide

theorem idle_decodes (host : List HostMove) : decodeWord (wordAtPc (idle host)) = .ok (.addi 5#5 0#5 0xFFF#12) :=
  busy_decodes

theorem busy_inv : Inv busy where
  memWf := by decide
  memInRam := by decide
  mstatusMasked := by decide
  mieMasked := by decide
  onlyUartPending := by decide
  txBounded := by decide
  cfgWf := by decide
  running := rfl
  idle := by decide
  countersAgree := by decide

theorem idle_inv (host : List HostMove) : Inv (idle host) where
  memWf := busy_inv.memWf
  memInRam := busy_inv.memInRam
  mstatusMasked := busy_inv.mstatusMasked
  mieMasked := busy_inv.mieMasked
  onlyUartPending := busy_inv.onlyUartPending
  txBounded := busy_inv.txBounded
  cfgWf := busy_inv.cfgWf
  running := rfl
  idle := fun _ => rfl
  countersAgree := busy_inv.countersAgree

theorem witness_DecodeEncodeRoundTrip : (Instr.beq 1#5 2#5 0x1000#13).wellFormed = true := by decide

theorem witness_EncodeDecodeRoundTrip : decodeWord 0x00208863#32 = .ok (.beq 1#5 2#5 16#13) := by decide

theorem witness_DecoderIsTheOpcodeTable :
    decodeWord 0x00208863#32 = .ok (.beq 1#5 2#5 16#13) ∧
    0x00208863#32 &&& (tableRow (.beq 0#5 0#5 0#13)).mask = (tableRow (.beq 0#5 0#5 0#13)).pattern := by decide

theorem witness_StepRunsDecodedInstruction :
    (InBatch busy ∧ InRam busy.pc 4 ∧ decodeWord (wordAtPc busy) = .ok (.addi 5#5 0#5 0xFFF#12)) ∧
    (BetweenBatches (idle [.run 3]) ∧ (idle [.run 3]).host = .run 3 :: [] ∧ 3 ≠ 0 ∧ ¬ InterruptReady (idle [.run 3]) ∧
      InRam (idle [.run 3]).pc 4 ∧ decodeWord (wordAtPc (idle [.run 3])) = .ok (.addi 5#5 0#5 0xFFF#12)) ∧
    (BetweenBatches (idle []) ∧ (idle []).host = [] ∧ ¬ InterruptReady (idle []) ∧
      InRam (idle []).pc 4 ∧ decodeWord (wordAtPc (idle [])) = .ok (.addi 5#5 0#5 0xFFF#12)) :=
  ⟨⟨busy_inBatch, busy_inRam, busy_decodes⟩,
    ⟨idle_betweenBatches _, rfl, by decide, by decide, busy_inRam, idle_decodes _⟩,
    ⟨idle_betweenBatches _, rfl, by decide, busy_inRam, idle_decodes _⟩⟩

/-- The last four bytes of RAM can be fetched. -/
theorem witness_StepRunsDecodedInstruction_end_of_ram :
    InBatch (placed 0xFFF00293#32 { start [] with pc := 0xBFFFFFFC#32 }) ∧
    InRam (placed 0xFFF00293#32 { start [] with pc := 0xBFFFFFFC#32 }).pc 4 ∧
    decodeWord (wordAtPc (placed 0xFFF00293#32 { start [] with pc := 0xBFFFFFFC#32 })) = .ok (.addi 5#5 0#5 0xFFF#12) := by
  unfold InBatch InRam; decide

theorem no_row_0000000B : ∀ i : Instr, 0x0000000B#32 &&& (tableRow i).mask ≠ (tableRow i).pattern := by
  intro i
  cases i <;> simp [tableRow]

/-- TR-5 inside a batch, at the start of a listed one, and of one by default. -/
theorem witness_IllegalWordsTrap :
    ∃ b s u v : State, (Entered b b ∧ Entered s u ∧ Entered { s with host := [] } v) ∧ InRam b.pc 4 ∧ InRam s.pc 4 ∧
      wordAtPc b = 0x0000000B#32 ∧ wordAtPc s = 0x0000000B#32 ∧ wordAtPc { s with host := [] } = 0x0000000B#32 ∧
      ∀ i : Instr, wordAtPc s &&& (tableRow i).mask ≠ (tableRow i).pattern := by
  have h : wordAtPc { placed 0x0000000B#32 (start []) with batchLeft := 0, host := [.run 1] } = 0x0000000B#32 := by decide
  exact ⟨placed 0x0000000B#32 (start []), { placed 0x0000000B#32 (start []) with batchLeft := 0, host := [.run 1] }, _, _,
    ⟨.inside ⟨rfl, by decide⟩, .starts 1 [] ⟨rfl, rfl⟩ rfl (by decide) (by decide), .alone ⟨rfl, rfl⟩ rfl (by decide)⟩,
    by unfold InRam; decide, by unfold InRam; decide, by decide, h, by decide, h ▸ no_row_0000000B⟩

theorem witness_FetchOutsideRamTraps :
    (Entered { busy with pc := 0xBFFFFFFD#32 } { busy with pc := 0xBFFFFFFD#32 } ∧
      ¬ InRam { busy with pc := 0xBFFFFFFD#32 }.pc 4) ∧
    (∃ u, Entered { idle [.run 3] with pc := 0xC0000000#32 } u) ∧ (∃ u, Entered { idle [] with pc := 0xC0000000#32 } u) ∧
      ¬ InRam 0xC0000000#32 4 :=
  ⟨⟨.inside ⟨rfl, by decide⟩, by unfold InRam; decide⟩,
    ⟨_, .starts 3 [] ⟨rfl, rfl⟩ rfl (by decide) (by decide)⟩, ⟨_, .alone ⟨rfl, rfl⟩ rfl (by decide)⟩,
    by unfold InRam; decide⟩

theorem witness_InterruptsAreSampledAtBatchStart :
    (BetweenBatches (interruptible 8#32 0x800#32 0) ∧ (interruptible 8#32 0x800#32 0).host = .run 0 :: [] ∧
      (interruptible 8#32 0x800#32 0).mstatus.getLsbD 3 = true ∧
      (interruptible 8#32 0x800#32 0).mie &&& (interruptible 8#32 0x800#32 0).mip ≠ 0#32) ∧
    (BetweenBatches (interruptible 0#32 0x800#32 0) ∧ (interruptible 0#32 0x800#32 0).host = .run 0 :: [] ∧
      ¬ ((interruptible 0#32 0x800#32 0).mstatus.getLsbD 3 = true ∧
        (interruptible 0#32 0x800#32 0).mie &&& (interruptible 0#32 0x800#32 0).mip ≠ 0#32)) ∧
    (BetweenBatches (interruptible 8#32 0#32 2) ∧ (interruptible 8#32 0#32 2).host = .run 2 :: [] ∧ 2 ≠ 0 ∧
      ¬ ((interruptible 8#32 0#32 2).mstatus.getLsbD 3 = true ∧
        (interruptible 8#32 0#32 2).mie &&& (interruptible 8#32 0#32 2).mip ≠ 0#32) ∧
      InRam (interruptible 8#32 0#32 2).pc 4 ∧
      decodeWord (wordAtPc (interruptible 8#32 0#32 2)) = .ok (.addi 1#5 1#5 1#12)) ∧
    (InBatch { interruptible 8#32 0x800#32 2 with batchLeft := 2 } ∧
      (interruptible 8#32 0x800#32 2).mstatus.getLsbD 3 = true ∧
      (interruptible 8#32 0x800#32 2).mie &&& (interruptible 8#32 0x800#32 2).mip ≠ 0#32 ∧
      InRam (interruptible 8#32 0x800#32 2).pc 4 ∧
      decodeWord (wordAtPc (interruptible 8#32 0x800#32 2)) = .ok (.addi 1#5 1#5 1#12)) := by
  unfold BetweenBatches InBatch InRam; decide

/-- The same with no move listed: an interrupt ready, and none. -/
theorem witness_InterruptsAreSampledAtBatchStart_alone :
    (BetweenBatches { interruptible 8#32 0x800#32 0 with host := [] } ∧
      (interruptible 8#32 0x800#32 0).mstatus.getLsbD 3 = true ∧
      (interruptible 8#32 0x800#32 0).mie &&& (interruptible 8#32 0x800#32 0).mip ≠ 0#32) ∧
    (BetweenBatches { interruptible 8#32 0#32 0 with host := [] } ∧
      ¬ ((interruptible 8#32 0#32 0).mstatus.getLsbD 3 = true ∧
        (interruptible 8#32 0#32 0).mie &&& (interruptible 8#32 0#32 0).mip ≠ 0#32) ∧
      InRam { interruptible 8#32 0#32 0 with host := [] }.pc 4 ∧
      decodeWord (wordAtPc { interruptible 8#32 0#32 0 with host := [] }) = .ok (.addi 1#5 1#5 1#12)) := by
  unfold BetweenBatches InRam; decide

theorem witness_TrapEntry : ∀ l, Cause.breakpoint ≠ .interrupt l := by
  intro l h
  cases h

theorem witness_TrapThenReturn :
    (busy.raise .breakpoint 0#32).priv = .machine ∧
    (busy.raise .breakpoint 0#32).mstatus = (busy.raise .breakpoint 0#32).mstatus ∧
    (busy.raise .breakpoint 0#32).mepc = (busy.raise .breakpoint 0#32).mepc := by decide

/-- A retirement and a trap. -/
theorem witness_EveryStepUsesTheBudget :
    (InBatch busy ∧ ∃ t, step busy = .next t) ∧
    (InBatch (placed 0x00000073#32 (start [])) ∧ ∃ t, step (placed 0x00000073#32 (start [])) = .next t) :=
  ⟨⟨busy_inBatch, exists_of_goesOn (by decide)⟩, ⟨rfl, by decide⟩, exists_of_goesOn (by decide)⟩

/-- An MRET to User, an MRET with MPP = 2 where MPP2_PRIV is User, a trap and a reset from User. -/
theorem witness_PrivilegeChangesOnlyByTrapOrMret :
    (∃ t, step (placed 0x30200073#32 (start [])) = .next t ∧ t.priv = .user) ∧
    (∃ t, step (placed 0x30200073#32
      { start [] with mstatus := 0x1000#32, cfg := { Config.suggested with mpp2Priv := some .user } }) = .next t ∧ t.priv = .user) ∧
    (∃ t, step (placed 0x00000073#32 { start [] with priv := .user }) = .next t ∧ t.priv = .machine) ∧
    (∃ t, step { idle [.reset] with priv := .user } = .next t ∧ t.priv = .machine) :=
  ⟨⟨answered busy _, eq_answered (by decide), by decide⟩, ⟨answered busy _, eq_answered (by decide), by decide⟩,
    ⟨answered busy _, eq_answered (by decide), by decide⟩, ⟨answered busy _, eq_answered (by decide), by decide⟩⟩

/-- LR.W, SC.W and a reset. -/
theorem witness_ReservationChangesOnlyByLrScReset :
    (∃ t, step (placed 0x100322AF#32 (start [(6#5, 0x3000#32)])) = .next t ∧ t.resv = some 0x3000#32) ∧
    (∃ t, step (placed 0x188323AF#32 (reserved (start [(6#5, 0x3000#32)]) (some 0x3000#32))) = .next t ∧ t.resv = none) ∧
    (∃ t, step (reserved (idle [.reset]) (some 0x3000#32)) = .next t ∧ t.resv = none) :=
  ⟨⟨answered busy _, eq_answered (by decide), by decide⟩, ⟨answered busy _, eq_answered (by decide), by decide⟩,
    ⟨answered busy _, eq_answered (by decide), by decide⟩⟩

/-- A store to the last byte of RAM, and a load of an image. -/
theorem witness_RamChangesOnlyByStoresAndLoad :
    (∃ t, step (placed 0x006281A3#32 (start [(5#5, 0xBFFFFFFC#32), (6#5, 1#32)])) = .next t ∧
      Mem.read t.mem 0xBFFFFFFF ≠ Mem.read (placed 0x006281A3#32 (start [(5#5, 0xBFFFFFFC#32), (6#5, 1#32)])).mem 0xBFFFFFFF) ∧
    (∃ t, step (idle [.load [1#8]]) = .next t ∧ Mem.read t.mem 0x1000 ≠ Mem.read (idle [.load [1#8]]).mem 0x1000) :=
  ⟨⟨answered busy _, eq_answered (by decide), by decide⟩, ⟨answered busy _, eq_answered (by decide), by decide⟩⟩

/-- `csrrw x0, mtvec, x5`. -/
theorem witness_MachineCsrsChangeOnlyByCsrInstructions :
    ∃ t, step (placed 0x30529073#32 (start [(5#5, 0x4000#32)])) = .next t ∧ t.mtvec = 0x4000#32 :=
  ⟨answered busy _, eq_answered (by decide), by decide⟩

/-- A CSR instruction that traps below Machine mode, and ECALL. -/
theorem witness_UserAndSupervisorAlike :
    Instr.csrrw 1#5 2#5 0x340#12 ≠ .ecall ∧ { busy with priv := Priv.user }.priv = .user := by decide

theorem witness_NoMemoryProtection :
    csrOperand (.lw 6#5 5#5 0#12) = none ∧ Instr.lw 6#5 5#5 0#12 ≠ .ecall ∧ Instr.lw 6#5 5#5 0#12 ≠ .mret := by decide

theorem witness_StepKeepsInv : Inv busy ∧ ∃ t, step busy = .next t := ⟨busy_inv, exists_of_goesOn (by decide)⟩

/-- A batch start that retires its first instruction. -/
theorem witness_CountersAdvanceByRetirements :
    (Inv busy ∧ (∃ t, step busy = .next t) ∧ Entered busy busy) ∧
    (Inv (idle [.run 3]) ∧ (∃ t, step (idle [.run 3]) = .next t) ∧ ∃ u, Entered (idle [.run 3]) u) :=
  ⟨⟨busy_inv, exists_of_goesOn (by decide), busy_entered⟩, idle_inv _, exists_of_goesOn (by decide), _, idle_entered_run⟩

theorem witness_HostReset : BetweenBatches (idle [.reset]) ∧ (idle [.reset]).host = .reset :: [] :=
  ⟨idle_betweenBatches _, rfl⟩

theorem witness_HostLoad :
    (BetweenBatches (idle [.load [1#8, 2#8]]) ∧ (idle [.load [1#8, 2#8]]).host = .load [1#8, 2#8] :: [] ∧
      0x1000 + [1#8, 2#8].length ≤ 0xC0000000) ∧
    (BetweenBatches (idle [.load [1#8], .reset]) ∧ (idle [.load [1#8], .reset]).host = .load [1#8] :: .reset :: [] ∧
      ∃ t u, step (idle [.load [1#8], .reset]) = .next t ∧ step t = .next u) :=
  ⟨⟨idle_betweenBatches _, rfl, by decide⟩, idle_betweenBatches _, rfl, answered busy _, answered busy _,
    eq_answered (by decide), eq_answered (by decide)⟩

theorem witness_HostUartMoves :
    (BetweenBatches (idle [.inject [1#8]]) ∧ (idle [.inject [1#8]]).host = .inject [1#8] :: []) ∧
    (BetweenBatches (idle [.drain 9]) ∧ (idle [.drain 9]).host = .drain 9 :: []) :=
  ⟨⟨idle_betweenBatches _, rfl⟩, idle_betweenBatches _, rfl⟩

theorem witness_Jumps : (0x00029067#32).extractLsb' 0 7 = 0b1100111#7 ∧ (0x00029067#32).extractLsb' 12 3 ≠ 0b000#3 := by
  decide

theorem witness_Branches :
    (0x0020A463#32).extractLsb' 0 7 = 0b1100011#7 ∧
    ((0x0020A463#32).extractLsb' 12 3 = 0b010#3 ∨ (0x0020A463#32).extractLsb' 12 3 = 0b011#3) := by decide

/-- The last word, half and byte of RAM. -/
theorem witness_in_ram : InRam 0xBFFFFFFC#32 4 ∧ InRam 0xBFFFFFFE#32 2 ∧ InRam 0xBFFFFFFF#32 1 := by
  unfold InRam; decide

/-- A word beyond the end of RAM, one that crosses slots, one at an empty slot, and a half at the aggregator, in both directions. -/
theorem witness_refused (d : Dir) :
    Refused busy d 0xBFFFFFFD#32 .word ∧ Refused busy d 0xC2FFFFFD#32 .word ∧ Refused busy d 0xC0000000#32 .word ∧
    Refused busy d 0xC2000004#32 .half := by
  unfold Refused InRam
  exact ⟨⟨by decide, .inl (by decide)⟩, ⟨by decide, .inr (.inl (by decide))⟩, ⟨by decide, .inr (.inr (.inl (by decide)))⟩,
    ⟨by decide, .inr (.inr (.inr (.inl (by decide))))⟩⟩

/-- A UART register with no such accessor. -/
theorem witness_refused_uart (d : Dir) : Refused busy d 0xC1000004#32 .byte := by
  unfold Refused InRam
  exact ⟨by decide, .inr (.inr (.inr (.inr ⟨by decide, by decide, fun u _ => List.not_mem_nil⟩)))⟩

theorem exists_read {s : State} {a : Word} {w : Width} (h : (s.memRead a w).isSome = true) :
    ∃ v u, s.memRead a w = some (v, u) := by
  obtain ⟨⟨v, u⟩, hp⟩ := Option.isSome_iff_exists.mp h
  exact ⟨v, u, hp⟩

theorem exists_write {s : State} {a : Word} {w : Width} {v : Word} (h : (s.memWrite a w v).isSome = true) :
    ∃ u, s.memWrite a w v = some u := Option.isSome_iff_exists.mp h

/-- x6 = 0xBFFFFFFC: in RAM, refused, and the claim register from x5. -/
theorem witness_LoadInstructions :
    (0xBFFFFFFC#32 = busy.getReg 6#5 + BitVec.ofInt 32 (0#12).toInt ∧ InRam 0xBFFFFFFC#32 (bytesOf .word)) ∧
    (0xBFFFFFFD#32 = busy.getReg 6#5 + BitVec.ofInt 32 (1#12).toInt ∧ Refused busy .read 0xBFFFFFFD#32 .word) ∧
    (0xC2000004#32 = (start [(5#5, 0xC2000008#32)]).getReg 5#5 + BitVec.ofInt 32 (0xFFC#12).toInt ∧
      ¬ InRam 0xC2000004#32 (bytesOf .word) ∧
      ∃ v u, (start [(5#5, 0xC2000008#32)]).memRead 0xC2000004#32 .word = some (v, u)) :=
  ⟨⟨by decide, by unfold InRam; decide⟩, ⟨by decide, (witness_refused .read).1⟩, by decide, by unfold InRam; decide,
    exists_read (by decide)⟩

theorem witness_StoreInstructions :
    (0xBFFFFFFC#32 = busy.getReg 6#5 + BitVec.ofInt 32 (0#7 ++ 0#5 : BitVec 12).toInt ∧ InRam 0xBFFFFFFC#32 (bytesOf .word)) ∧
    (0xBFFFFFFD#32 = busy.getReg 6#5 + BitVec.ofInt 32 (0#7 ++ 1#5 : BitVec 12).toInt ∧
      Refused busy .write 0xBFFFFFFD#32 .word) ∧
    (0xC2000004#32 = (start [(5#5, 0xC2000008#32)]).getReg 5#5 + BitVec.ofInt 32 (0x7F#7 ++ 0x1C#5 : BitVec 12).toInt ∧
      ¬ InRam 0xC2000004#32 (bytesOf .word) ∧
      ∃ u, (start [(5#5, 0xC2000008#32)]).memWrite 0xC2000004#32 .word 1#32 = some u) :=
  ⟨⟨by decide, by unfold InRam; decide⟩, ⟨by decide, (witness_refused .write).1⟩, by decide, by unfold InRam; decide,
    exists_write (by decide)⟩

theorem witness_RamReadsAndWrites : InRam 0xBFFFFFFC#32 (bytesOf .word) ∧ InRam 0#32 (bytesOf .byte) := by
  unfold InRam; decide

theorem witness_DeviceAliases :
    0xC0000000 ≤ (0xC2000004#32).toNat ∧ 0xC0000000 ≤ (0xF2000004#32).toNat ∧
    (0xC2000004#32).extractLsb' 0 28 = (0xF2000004#32).extractLsb' 0 28 := by decide

theorem witness_ByteOrder : InRam 0xBFFFFFFC#32 4 := by unfold InRam; decide

/-- `sw x6, 0(x5)` at 0x1000 with x5 = 0x1004 and x6 the word of `addi x1, x1, 1`. -/
theorem witness_StoresAreSeenByTheNextFetch :
    ∃ s : State, s.engine = .running ∧ 1 < s.batchLeft ∧ s.getReg 5#5 + BitVec.ofInt 32 (0#12).toInt = s.pc + 4#32 ∧
      InRam (s.pc + 4#32) 4 ∧ decodeWord (s.getReg 6#5) = .ok (.addi 1#5 1#5 1#12) ∧
      ∃ t, exec (.sw 5#5 6#5 0#12) s = .next t :=
  ⟨{ start [(5#5, 0x1004#32), (6#5, 0x00108093#32)] with batchLeft := 2 }, rfl, by decide, by decide,
    by unfold InRam; decide, by decide, exists_of_goesOn (by decide)⟩

/-- Nothing to claim, the lowest and the highest source, the claim through LW, and through an alias. -/
theorem witness_ClaimRegister :
    AtClaimRegister busy 0xC2000004#32 ∧ AtClaimRegister busy 0xD2000004#32 ∧
    busy.agg.pending &&& ~~~busy.agg.served = 0#32 ∧
    ((lines busy 0x80000001#32 1#32).agg.pending.getLsbD 31 = true ∧
      (lines busy 0x80000001#32 1#32).agg.served.getLsbD 31 = false ∧
      ∀ j, j < 31 → (lines busy 0x80000001#32 1#32).agg.pending.getLsbD j = true →
        (lines busy 0x80000001#32 1#32).agg.served.getLsbD j = true) ∧
    (AtClaimRegister (start [(5#5, 0xC2000000#32)]) ((start [(5#5, 0xC2000000#32)]).getReg 5#5 + BitVec.ofInt 32 (4#12).toInt) ∧
      ∃ v u, (start [(5#5, 0xC2000000#32)]).memRead
        ((start [(5#5, 0xC2000000#32)]).getReg 5#5 + BitVec.ofInt 32 (4#12).toInt) .word = some (v, u)) := by
  refine ⟨by unfold AtClaimRegister; decide, by unfold AtClaimRegister; decide, by decide, by decide,
    by unfold AtClaimRegister; decide, exists_read (by decide)⟩

theorem witness_CompleteRegister :
    AtClaimRegister busy 0xC2000004#32 ∧
    (AtClaimRegister (start [(5#5, 0xC2000000#32)]) ((start [(5#5, 0xC2000000#32)]).getReg 5#5 + BitVec.ofInt 32 (4#12).toInt) ∧
      ∃ u, (start [(5#5, 0xC2000000#32)]).memWrite
        ((start [(5#5, 0xC2000000#32)]).getReg 5#5 + BitVec.ofInt 32 (4#12).toInt) .word
        ((start [(5#5, 0xC2000000#32)]).getReg 7#5) = some u) := by
  refine ⟨by unfold AtClaimRegister; decide, by unfold AtClaimRegister; decide, exists_write (by decide)⟩

/-- A narrow access of the claim register, another register, through the instructions, and the AMOs at the claim register. -/
theorem witness_AggregatorRegisterMap :
    (0xC0000000 ≤ (0xC2000004#32).toNat ∧ slotOf 0xC2000004#32 = busy.cfg.aggSlot ∧
      ¬ (regNoOf 0xC2000004#32 = 4#24 ∧ Width.half = .word)) ∧
    (0xC2FFFFFF#32 = (start [(5#5, 0xC3000000#32)]).getReg 5#5 + BitVec.ofInt 32 (0xFFF#12).toInt ∧
      0xC0000000 ≤ (0xC2FFFFFF#32).toNat ∧ slotOf 0xC2FFFFFF#32 = (start [(5#5, 0xC3000000#32)]).cfg.aggSlot ∧
      regNoOf 0xC2FFFFFF#32 ≠ 4#24) ∧
    (0xC2000004#32 = (start [(6#5, 0xC2000004#32)]).getReg 6#5 ∧ 0#32 = (start [(6#5, 0xC2000004#32)]).getReg 7#5 ∧
      AtClaimRegister (start [(6#5, 0xC2000004#32)]) 0xC2000004#32) := by
  unfold AtClaimRegister; decide

/-- Reads of rxdata and of txdata. -/
theorem witness_UartLoads :
    0xC1000004#32 = (uartState [] [1#8] [(5#5, 0xC1000000#32)]).getReg 5#5 + BitVec.ofInt 32 (4#12).toInt ∧
    AtUart (uartState [] [1#8] [(5#5, 0xC1000000#32)]) .read 0xC1000004#32 .rxdata .word ∧
    AtUart (uartState [] [1#8] [(5#5, 0xC1000000#32)]) .read 0xC1000000#32 .txdata .word := by
  unfold AtUart; decide

theorem witness_UartStores :
    0xC1000000#32 = (uartState [] [] [(5#5, 0xC1000000#32)]).getReg 5#5 + BitVec.ofInt 32 (0#12).toInt ∧
    AtUart (uartState [] [] [(5#5, 0xC1000000#32)]) .write 0xC1000000#32 .txdata .byte ∧
    0xC1000018#32 = (uartState [] [] [(5#5, 0xC1000000#32)]).getReg 5#5 + BitVec.ofInt 32 (0x18#12).toInt ∧
    AtUart (uartState [] [] [(5#5, 0xC1000000#32)]) .write 0xC1000018#32 .baudDivisor .word := by
  unfold AtUart; decide

theorem witness_ImmediateArithmetic :
    (0x02131293#32).extractLsb' 0 7 = 0b0010011#7 ∧
    (0x02131293#32).extractLsb' 12 3 = 0b001#3 ∧ (0x02131293#32).extractLsb' 25 7 ≠ 0b0000000#7 ∧
    (0x42135293#32).extractLsb' 0 7 = 0b0010011#7 ∧ (0x42135293#32).extractLsb' 12 3 = 0b101#3 ∧
    (0x42135293#32).extractLsb' 25 7 ≠ 0b0000000#7 ∧ (0x42135293#32).extractLsb' 25 7 ≠ 0b0100000#7 := by decide

theorem witness_DivisionLaws :
    ∃ s : State, 5#5 ≠ 0#5 ∧ s.getReg 7#5 ≠ 0#32 ∧
      ¬ (s.getReg 6#5 = 0x80000000#32 ∧ s.getReg 7#5 = 0xFFFFFFFF#32) ∧
      (∃ t, exec (.div 5#5 6#5 7#5) s = .next t) ∧ (∃ u, exec (.rem 5#5 6#5 7#5) s = .next u) :=
  ⟨start [(6#5, 0xFFFFFFF9#32), (7#5, 2#32)], by decide, by decide, by decide, exists_of_goesOn (by decide),
    exists_of_goesOn (by decide)⟩

/-- LR.W at the last word of RAM, refused, and at a device; and a word with rs2 not 0. -/
theorem witness_LoadReserved :
    (0xBFFFFFFC#32 = busy.getReg 6#5 ∧ InRam 0xBFFFFFFC#32 4) ∧ Refused busy .read 0xC0000000#32 .word ∧
    (∃ v u, busy.memRead 0xC2000004#32 .word = some (v, u)) ∧
    ((0x107322AF#32).extractLsb' 0 7 = 0b0101111#7 ∧ (0x107322AF#32).extractLsb' 27 5 = 0b00010#5 ∧
      (0x107322AF#32).extractLsb' 20 5 ≠ 0#5) :=
  ⟨⟨by decide, by unfold InRam; decide⟩, (witness_refused .read).2.2.1, exists_read (by decide), by decide⟩

/-- The reservation held in RAM, held elsewhere, held at an empty slot, and held at a device. -/
theorem witness_StoreConditional :
    ((reserved busy (some 0xBFFFFFFC#32)).resv = some 0xBFFFFFFC#32 ∧ InRam 0xBFFFFFFC#32 4) ∧
    (reserved busy (some 0x3004#32)).resv ≠ some 0xBFFFFFFC#32 ∧
    ((reserved busy (some 0xC0000000#32)).resv = some 0xC0000000#32 ∧
      Refused (reserved busy (some 0xC0000000#32)) .write 0xC0000000#32 .word) ∧
    ((reserved busy (some 0xC2000004#32)).resv = some 0xC2000004#32 ∧
      ∃ u, (reserved busy (some 0xC2000004#32)).memWrite 0xC2000004#32 .word 1#32 = some u) :=
  ⟨⟨rfl, by unfold InRam; decide⟩, by decide, ⟨rfl, (witness_refused .write).2.2.1⟩, rfl, exists_write (by decide)⟩

theorem witness_ReservedPairSucceeds :
    ∃ t, InRam (busy.getReg 6#5) 4 ∧ exec (.lrW 5#5 6#5 0#1 0#1) busy = .next t ∧ t.getReg 6#5 = busy.getReg 6#5 :=
  ⟨answered busy _, by unfold InRam; decide, eq_answered (by decide), by decide⟩

/-- A UART whose txdata can be read as a word but not written as one. -/
theorem witness_AtomicOperations :
    (0xBFFFFFFC#32 = busy.getReg 6#5 ∧ 0x3000#32 = busy.getReg 7#5 ∧ InRam 0xBFFFFFFC#32 4) ∧
    Refused busy .read 0xC0000000#32 .word ∧
    ((∃ v u, (uartState [] [] []).memRead 0xC1000000#32 .word = some (v, u)) ∧
      Refused (uartState [] [] []) .write 0xC1000000#32 .word) ∧
    (∃ v u, busy.memRead 0xC2000004#32 .word = some (v, u) ∧ ∃ u', u.memWrite 0xC2000004#32 .word 1#32 = some u') := by
  refine ⟨⟨by decide, by decide, by unfold InRam; decide⟩, (witness_refused .read).2.2.1, ⟨exists_read (by decide), ?_⟩, ?_⟩
  · have hr : uartRegOf (regNoOf 0xC1000000#32) = some .txdata := by decide
    unfold Refused InRam
    exact ⟨by decide, .inr (.inr (.inr (.inr ⟨by decide, by decide, fun u hu =>
      Option.some.inj (hr.symm.trans hu) ▸ by decide⟩)))⟩
  · exact ⟨0#32, busy, by decide, exists_write (by decide)⟩

/-- Machine mode on a writable CSR; User mode on a counter with its bit; and each gate failing: the number, the level, the counter bit, the
read-only number and misa. -/
theorem witness_CsrInstructions :
    CsrAllowed busy 0x340#12 True ∧
    CsrAllowed { busy with priv := .user, mcounteren := 1#32 } 0xC80#12 False ∧
    ¬ CsrAllowed busy 0xF14#12 False ∧ ¬ CsrAllowed { busy with priv := .supervisor } 0x300#12 False ∧
    ¬ CsrAllowed { busy with priv := .user } 0xC00#12 False ∧ ¬ CsrAllowed busy 0xC00#12 True ∧
    ¬ CsrAllowed busy 0x301#12 True := by
  refine ⟨?_, ?_, ?_, ?_, ?_, ?_, ?_⟩ <;> unfold CsrAllowed <;> decide

theorem witness_UnimplementedCsrsAreIllegal :
    csrOperand (.csrrs 5#5 0#5 0xF14#12) = some 0xF14#12 ∧ 0xF14#12 ∉ csrNumbers := by decide

/-- misa with the operands 0, and a counter with operands that are not. -/
theorem witness_SuppressedWrites :
    (busy.priv = .machine ∧ 0x301#12 ∈ csrNumbers ∧ busy.getReg 1#5 = 0#32) ∧
    (0xC82#12 ∈ csrNumbers ∧ busy.getReg 6#5 ≠ 0#32 ∧ 1#5 ≠ 0#5) := by decide

/-- mstatus, mip and mtval: each branch of the statement. -/
theorem witness_CsrWritesReadBack :
    busy.priv = .machine ∧ (∀ c ∈ [0x300#12, 0x304#12, 0x344#12, 0x343#12],
      c ∈ csrNumbers ∧ c.extractLsb' 10 2 ≠ 0b11#2 ∧ c ≠ 0x301#12 ∧ goesOn (exec (.csrrw 0#5 6#5 c) busy) = true) := by decide

theorem witness_TrapReturn :
    (busy.priv = .machine ∧ { busy with mstatus := 0x800#32 }.mstatus.extractLsb' 11 2 = privCode .supervisor) ∧
    (busy.priv = .machine ∧ { busy with mstatus := 0x1000#32 }.mstatus.extractLsb' 11 2 = 2#2 ∧ busy.cfg.mpp2Priv = none) ∧
    { busy with priv := Priv.user }.priv ≠ .machine := by decide

theorem witness_MretWithReservedMpp :
    ∃ s : State, s.priv = .machine ∧ s.mstatus.extractLsb' 11 2 = 2#2 ∧ s.cfg.mpp2Priv = some .user :=
  ⟨{ busy with mstatus := 0x1000#32, cfg := { Config.suggested with mpp2Priv := some .user } }, by decide⟩

theorem witness_UnfetchableVectorRepeats :
    (BetweenBatches { idle [.run 3] with mtvec := 0xC0000000#32, pc := 0xC0000000#32 } ∧
      (∃ u, Entered { idle [.run 3] with mtvec := 0xC0000000#32, pc := 0xC0000000#32 } u) ∧ ¬ InRam 0xC0000000#32 4) ∧
    (BetweenBatches { idle [] with mtvec := 0#32, pc := 0#32 } ∧ (∃ u, Entered { idle [] with mtvec := 0#32, pc := 0#32 } u) ∧
      wordAt { idle [] with mtvec := 0#32, pc := 0#32 } 0#32 = 0#32) :=
  ⟨⟨⟨rfl, rfl⟩, ⟨_, .starts 3 [] ⟨rfl, rfl⟩ rfl (by decide) (by decide)⟩, by unfold InRam; decide⟩,
    ⟨rfl, rfl⟩, ⟨_, .alone ⟨rfl, rfl⟩ rfl (by decide)⟩, by decide⟩
end Sys2Proof.Tests
end

section
/-! The return from a trap (R316, D12): what MRET in Machine mode does, once its level `p` is known, is the same whichever
parameter or field of mstatus gave that level. -/

namespace Sys2Proof.Machine

/-- What an MRET to the level `p` makes of `s` (R316): the level, the pc and mstatus are new, one instruction has retired, and
everything else is as it was. -/
def Returned (s t : State) (p : Priv) : Prop :=
  t.priv = p ∧ t.pc = s.mepc ∧
  statusMie t.mstatus = statusMpie s.mstatus ∧ statusMpie t.mstatus = true ∧ statusMpp t.mstatus = 0#2 ∧
  (∀ j, j ≠ 3 → j ≠ 7 → j ≠ 11 → j ≠ 12 → t.mstatus.getLsbD j = false) ∧
  t.mie = s.mie ∧ t.mtvec = s.mtvec ∧ t.mcounteren = s.mcounteren ∧ t.mscratch = s.mscratch ∧ t.mepc = s.mepc ∧
  t.mcause = s.mcause ∧ t.mtval = s.mtval ∧ SameRegs s t ∧ SameMem s t ∧ SameDevices s t ∧ t.resv = s.resv ∧
  t.engine = s.engine ∧ t.cfg = s.cfg ∧ t.host = s.host ∧ Retired s t

theorem retired_trapReturn (s : State) (p : Priv) : Retired s (s.trapReturn p) :=
  ⟨s.trapReturn_cycle p, s.trapReturn_instret p, s.trapReturn_batchRetired p, s.trapReturn_batchLeft p⟩

theorem returned_trapReturn (s : State) (p : Priv) : Returned s (s.trapReturn p) p := by
  have hrest : ∀ j, j ≠ 3 → j ≠ 7 → j ≠ 11 → j ≠ 12 → (s.trapReturn p).mstatus.getLsbD j = false := by
    intro j h3 h7 h11 h12
    simp [mkStatus_reserved _ _ _ j h3 h7 h11 h12]
  have hdev : SameDevices s (s.trapReturn p) := ⟨by simp, by simp, by simp⟩
  refine ⟨by simp, by simp, ?mie, ?mpie, ?mpp, hrest, by simp, by simp, by simp, by simp, by simp, by simp, by simp,
    fun _ => by simp, fun _ => by simp, hdev, by simp, by simp, by simp, by simp, retired_trapReturn s p⟩
  case mie => simp [statusMie_mkStatus]
  case mpie => simp [statusMpie_mkStatus]
  case mpp => simp [statusMpp_mkStatus, privCode]

/-- MPP = 2 names no level, so MRET takes the one MPP2_PRIV gives, if any (D12). -/
theorem mretPriv_of_reservedMpp {s : State} (h : statusMpp s.mstatus = 2#2) : mretPriv s = s.cfg.mpp2Priv := by
  have hnone : privOfCode 2#2 = none := rfl
  simp [mretPriv, h, hnone]

theorem exec_mret_of_mretPriv {s : State} {p : Priv} (hm : s.priv = .machine) (hp : mretPriv s = some p) :
    exec .mret s = .next (s.trapReturn p) := by
  change execMret s = _
  simp [execMret, hm, hp]

/-- Settles O59: MPP2_PRIV is the level MRET takes, and the rest is the return to a level, whichever it is. -/
theorem mretWithReservedMpp : Obligations.MretWithReservedMpp := by
  intro s p hm hmpp hcfg
  have hp : mretPriv s = some p := (mretPriv_of_reservedMpp hmpp).trans hcfg
  exact ⟨s.trapReturn p, exec_mret_of_mretPriv hm hp, returned_trapReturn s p⟩

end Sys2Proof.Machine
end

section
/-! The register file and the values of reset (R20, R42, R400, R402). -/

namespace Sys2Proof.Machine

theorem State.getReg_reset (r : Reg) : State.reset.getReg r = 0#32 := by
  unfold State.getReg
  split
  · rfl
  · simp [State.reset]

/-- Settles O26: the register file's laws at a write, at x0 and at reset. -/
theorem registerFile : Obligations.RegisterFile :=
  ⟨State.getReg_setReg, State.getReg_zero, State.setReg_zero, State.getReg_reset⟩

/-- Every implemented CSR but misa shows 0 after reset: its field is 0, and no source is pending. -/
theorem csrShown_reset {c : CsrNum} (hc : c ∈ csrNumbers) (hm : c ≠ 0x301#12) : csrShown State.reset c = 0#32 := by
  simp only [csrNumbers, List.mem_cons, List.not_mem_nil, or_false] at hc
  rcases hc with rfl | rfl | rfl | rfl | rfl | rfl | rfl | rfl | rfl | rfl | rfl | rfl | rfl | rfl
  case inr.inl => exact absurd rfl hm
  all_goals rfl

/-- Settles O22: the registers and the CSRs by the two lemmas above, the rest as `State.reset` lists it. -/
theorem resetValues : Obligations.ResetValues :=
  ⟨State.getReg_reset, rfl, rfl, rfl, rfl, rfl, rfl, fun _ hc hm => csrShown_reset hc hm, rfl, rfl, rfl⟩

end Sys2Proof.Machine
end

section
/-! The CSRs that only a CSR instruction of Machine mode writes (R27, R302). -/

namespace Sys2Proof.Machine

/-- The CSRs that neither trap entry nor MRET writes hold what they held. -/
def SameMachineCsrs (s t : State) : Prop :=
  t.mie = s.mie ∧ t.mtvec = s.mtvec ∧ t.mcounteren = s.mcounteren ∧ t.mscratch = s.mscratch

theorem csrWritten_writeBack {s u : State} {c : CsrNum} {v : Word} (h : CsrWritten s u c v) (rd : Reg) (x : Word) :
    CsrWritten s (u.writeBack rd x) c v := by
  simpa [CsrWritten] using h

/-- An instruction writes them only where it is a CSR instruction whose access the protocol allows. -/
theorem Effect.sameMachineCsrs_or_csrWritten {i : Instr} {s t : State} (h : Effect s i t) :
    SameMachineCsrs s t ∨ ∃ c v, csrOperand i = some c ∧ CsrAllowed s c True ∧ CsrWritten s t c v := by
  cases h with
  | computes | links | goes | traps | reserveTraps | storesNot | storeIfTraps | csrTraps | returns =>
    exact .inl (by simp [SameMachineCsrs])
  | loads _ _ _ _ _ _ hr | modifyTraps _ _ _ _ hr | reserves _ _ _ _ _ _ _ hr =>
    obtain ⟨g, ut, d, rfl⟩ := State.memRead_frame hr
    exact .inl (by simp [SameMachineCsrs])
  | stores _ _ _ _ _ hw | storesIf _ _ _ _ _ _ _ hw =>
    obtain ⟨m, g, ut, d, rfl⟩ := State.memWrite_frame hw
    exact .inl (by simp [SameMachineCsrs])
  | modifies _ _ _ _ _ _ _ hr hw =>
    obtain ⟨g, ut, d, rfl⟩ := State.memRead_frame hr
    obtain ⟨m, g', ut', d', rfl⟩ := State.memWrite_frame hw
    exact .inl (by simp [SameMachineCsrs])
  | csr rd c write f u hi ha hw hn hu =>
    cases write with
    | false => exact .inl (by simp [SameMachineCsrs, hn rfl])
    | true => exact .inr ⟨c, _, hi, by simpa using ha, csrWritten_writeBack (hw rfl) rd _⟩

/-- The state an instruction is executed in has the privilege and the CSRs of the state the step began in. -/
theorem Entered.priv_csrs {s u : State} (hu : Entered s u) : u.priv = s.priv ∧ SameCsrs s u := by
  cases hu <;> exact ⟨rfl, rfl, rfl, rfl, rfl, rfl, rfl, rfl, rfl⟩

theorem Entered.csrAllowed {s u : State} (hu : Entered s u) {c : CsrNum} {w : Prop} (h : CsrAllowed u c w) :
    CsrAllowed s c w := by
  obtain ⟨hp, -, -, -, hmc, -⟩ := hu.priv_csrs
  simpa only [CsrAllowed, hp, hmc] using h

theorem Entered.csrWritten {s u t : State} (hu : Entered s u) {c : CsrNum} {v : Word} (h : CsrWritten u t c v) :
    CsrWritten s t c v := by
  obtain ⟨-, h1, h2, h3, h4, h5, h6, h7, h8⟩ := hu.priv_csrs
  simpa only [CsrWritten, h1, h2, h3, h4, h5, h6, h7, h8] using h

/-- The next step executes a CSR instruction that the protocol lets write `v` to the CSR `c`, and `t` has it written. -/
def WritesCsr (s t : State) (c : CsrNum) (v : Word) : Prop :=
  InRam s.pc 4 ∧ (∃ i, decodeWord (wordAtPc s) = .ok i ∧ csrOperand i = some c) ∧ CsrAllowed s c True ∧ CsrWritten s t c v

/-- A step that is no reset writes them only by a CSR instruction. -/
theorem StepEffect.sameMachineCsrs_or_writesCsr {s t : State} (h : StepEffect s t) :
    (BetweenBatches s ∧ ∃ r, s.host = .reset :: r) ∨ SameMachineCsrs s t ∨ ∃ c v, WritesCsr s t c v := by
  cases h with
  | resets r hb hh => exact .inl ⟨hb, r, hh⟩
  | finishes c he => exact .inr (.inl (by simp [SameMachineCsrs, State.completeTrap, he]))
  | loads | injects | drains | interrupts | idles => exact .inr (.inl ⟨rfl, rfl, rfl, rfl⟩)
  | fetchFaults u hu | illegal u hu =>
    obtain ⟨-, -, h⟩ := hu.priv_csrs
    exact .inr (.inl (by simp [SameMachineCsrs, h]))
  | executes u _ i hu hp hd hx =>
    obtain ⟨-, -, hmie, htv, hmc, hms, -⟩ := hu.priv_csrs
    rcases (exec_effect hx).sameMachineCsrs_or_csrWritten with ⟨h1, h2, h3, h4⟩ | ⟨c, v, hi, ha, hw⟩
    · exact .inr (.inl ⟨h1.trans hmie, h2.trans htv, h3.trans hmc, h4.trans hms⟩)
    · exact .inr (.inr ⟨c, v, hp, ⟨i, hd, hi⟩, hu.csrAllowed ha, hu.csrWritten hw⟩)

/-- The privilege gate of R302, for the numbers whose bits [9:8] are Machine's. -/
theorem CsrAllowed.priv_machine {s : State} {c : CsrNum} {w : Prop} (h : CsrAllowed s c w) (hc : c.extractLsb' 8 2 = 3#2) :
    s.priv = .machine := by
  obtain ⟨-, hp, -⟩ := h
  rw [hc] at hp
  revert hp
  cases s.priv <;> decide

theorem WritesCsr.csrWritten {s t : State} {c : CsrNum} {v : Word} (h : WritesCsr s t c v) : CsrWritten s t c v := by
  obtain ⟨-, -, -, hw⟩ := h
  exact hw

/-- What one CSR holds after a write of the CSR `c`: it is unchanged, unless `c` is its own number `n`. -/
theorem WritesCsr.eq_or_machine {s t : State} {c n : CsrNum} {v a b x : Word} (h : WritesCsr s t c v)
    (hx : x = if c = n then a else b) (hn : n.extractLsb' 8 2 = 3#2) :
    x = b ∨ (s.priv = .machine ∧ InRam s.pc 4 ∧ ∃ i, decodeWord (wordAtPc s) = .ok i ∧ csrOperand i = some n) := by
  obtain ⟨hp, hi, ha, -⟩ := h
  by_cases hc : c = n
  · subst hc
    exact .inr ⟨ha.priv_machine hn, hp, hi⟩
  · exact .inl (hx.trans (if_neg hc))

/-- Settles O16: of the steps that are no reset, only an allowed CSR write changes one of the four, and it changes the one
it names. -/
theorem machineCsrsChangeOnlyByCsrInstructions : Obligations.MachineCsrsChangeOnlyByCsrInstructions := by
  intro s t h
  refine (step_effect h).sameMachineCsrs_or_writesCsr.imp_right ?_
  rintro (⟨h1, h2, h3, h4⟩ | ⟨c, v, hw⟩)
  · exact ⟨.inl h1, .inl h2, .inl h3, .inl h4⟩
  · obtain ⟨-, hmie, htv, hmc, hms, -⟩ := hw.csrWritten
    exact ⟨hw.eq_or_machine hmie (by decide), hw.eq_or_machine htv (by decide), hw.eq_or_machine hmc (by decide),
      hw.eq_or_machine hms (by decide)⟩

end Sys2Proof.Machine
end

section
/-! How a step moves the counters and the batch (R26, R41, R359): what both counters will show when the batch ends advances by 1 where
the step retires an instruction and by 0 otherwise. -/

namespace Sys2Proof.Machine

/-! ## One counter -/

theorem settledCounter_retiredCounter (v : Visibility) (left k : Nat) (c : BitVec 64) :
    settledCounter v (if left ≤ 1 then 0 else k + 1) (retiredCounter v left k c) =
      settledCounter v k c + BitVec.ofNat 64 1 := by
  cases v with
  | perInstruction => rfl
  | perBatch =>
    unfold settledCounter retiredCounter
    by_cases h : left ≤ 1 <;> simp [h, BitVec.ofNat_add, BitVec.add_assoc]

theorem settledCounter_trappedCounter (v : Visibility) (k : Nat) (c : BitVec 64) :
    settledCounter v 0 (trappedCounter v k c) = settledCounter v k c + BitVec.ofNat 64 0 := by
  cases v <;> simp [settledCounter, trappedCounter]

/-! ## Both counters -/

/-- Both counters, settled by the batch's count, advance by `d`. -/
def Advance (s t : State) (d : Nat) : Prop :=
  settledCounter t.cfg.cycleVisibility t.batchRetired t.cycle =
    settledCounter s.cfg.cycleVisibility s.batchRetired s.cycle + BitVec.ofNat 64 d ∧
  settledCounter t.cfg.instretVisibility t.batchRetired t.instret =
    settledCounter s.cfg.instretVisibility s.batchRetired s.instret + BitVec.ofNat 64 d

/-- The two counters show the same when settled (R26). -/
def CountersAgree (s : State) : Prop :=
  settledCounter s.cfg.cycleVisibility s.batchRetired s.cycle = settledCounter s.cfg.instretVisibility s.batchRetired s.instret

theorem Advance.countersAgree {s t : State} {d : Nat} (h : Advance s t d) (hs : CountersAgree s) : CountersAgree t := by
  obtain ⟨hc, hi⟩ := h
  exact hc.trans ((congrArg (· + BitVec.ofNat 64 d) hs).trans hi.symm)

theorem Retired.advance {s t : State} (h : Retired s t) (hc : t.cfg = s.cfg) : Advance s t 1 := by
  obtain ⟨hcy, hin, hk, -⟩ := h
  rw [Advance, hc, hcy, hin, hk]
  exact ⟨settledCounter_retiredCounter _ _ _ _, settledCounter_retiredCounter _ _ _ _⟩

theorem TrapTaken.advance {s t : State} {c v p : Word} (h : TrapTaken s t c v p) : Advance s t 0 := by
  obtain ⟨-, -, -, -, -, -, -, -, -, -, hk, -, hcy, hin, -, -, -, -, hc, -⟩ := h
  rw [Advance, hc, hcy, hin, hk]
  exact ⟨settledCounter_trappedCounter _ _ _, settledCounter_trappedCounter _ _ _⟩

theorem TrapTaken.ends_batch {s t : State} {c v p : Word} (h : TrapTaken s t c v p) :
    t.engine = .running ∧ t.batchRetired = 0 ∧ t.batchLeft = 0 := by
  obtain ⟨-, -, -, -, -, -, -, -, -, he, hk, hl, -⟩ := h
  exact ⟨he, hk, hl⟩

/-! ## The state an instruction is executed in -/

theorem Entered.inBatch {s u : State} (hu : Entered s u) : InBatch u := by
  cases hu with
  | inside hb => exact hb
  | starts n r hb hh hn hi => exact ⟨hb.1, hn⟩
  | alone hb hh hi => exact ⟨hb.1, Nat.one_ne_zero⟩

/-- Where k is 0 between batches (R41), clearing it at a batch start changes no settled counter. -/
theorem Entered.settled {s u : State} (hu : Entered s u) (hk : s.batchLeft = 0 → s.batchRetired = 0) :
    u.cfg = s.cfg ∧ u.batchRetired = s.batchRetired ∧ u.cycle = s.cycle ∧ u.instret = s.instret := by
  cases hu with
  | inside => exact ⟨rfl, rfl, rfl, rfl⟩
  | starts _ _ hb | alone hb => exact ⟨rfl, (hk hb.2).symm, rfl, rfl⟩

theorem Entered.advance {s u t : State} {d : Nat} (hu : Entered s u) (hk : s.batchLeft = 0 → s.batchRetired = 0)
    (h : Advance u t d) : Advance s t d := by
  obtain ⟨hc, hr, hcy, hin⟩ := hu.settled hk
  simpa only [Advance, hc, hr, hcy, hin] using h

/-- Between batches, with a move ahead that is no `run`, the next step executes nothing. -/
theorem not_entered_of_move {s u : State} {m : HostMove} {r : List HostMove} (hb : BetweenBatches s) (hh : s.host = m :: r)
    (hm : ∀ n, n ≠ 0 → m ≠ .run n) : ¬ Entered s u := by
  intro hu
  cases hu with
  | inside hb' => exact hb'.2 hb.2
  | starts n _ _ hh' hn => exact hm n hn (List.cons.inj (hh.symm.trans hh')).1
  | alone _ hh' => cases hh.symm.trans hh'

theorem not_entered_of_interruptReady {s u : State} (hb : BetweenBatches s) (hi : InterruptReady s) : ¬ Entered s u := by
  intro hu
  cases hu with
  | inside hb' => exact hb'.2 hb.2
  | starts _ _ _ _ _ hi' | alone _ _ hi' => exact hi' hi

/-! ## One step -/

/-- What a step that is no reset does to the batch and the counters (R358, R359). -/
inductive BatchEffect (s t : State) : Prop where
  /-- An instruction retires. -/
  | retires (u : State) (hu : Entered s u) (hr : Retired u t) (hc : t.cfg = u.cfg) (he : t.engine = u.engine)
  /-- An instruction, or its fetch, traps and ends the batch. -/
  | traps (u : State) (hu : Entered s u) (c v : Word) (ht : TrapTaken u t c v u.pc)
  /-- The step executes nothing: an interrupt, or a host move that is no batch. -/
  | moves (hn : ∀ u, ¬ Entered s u) (ha : Advance s t 0) (he : t.engine = .running)
      (hk : t.batchLeft = 0 → t.batchRetired = 0)

/-- A host move that keeps the counters and the batch's bookkeeping. -/
theorem BatchEffect.of_same {s t : State} (hs : Inv s) (hn : ∀ u, ¬ Entered s u)
    (h : t.cfg = s.cfg ∧ t.cycle = s.cycle ∧ t.instret = s.instret ∧ t.batchRetired = s.batchRetired ∧
      t.batchLeft = s.batchLeft ∧ t.engine = s.engine) : BatchEffect s t := by
  obtain ⟨hc, hcy, hin, hk, hl, he⟩ := h
  refine .moves hn ?_ (he.trans hs.running) (by rw [hk, hl]; exact hs.idle)
  rw [Advance, hc, hcy, hin, hk]
  exact ⟨(BitVec.add_zero _).symm, (BitVec.add_zero _).symm⟩

theorem StepEffect.resets_or_batchEffect {s t : State} (hs : Inv s) (h : StepEffect s t) :
    (BetweenBatches s ∧ ∃ r, s.host = .reset :: r ∧ t = State.hostReset { s with host := r }) ∨ BatchEffect s t := by
  cases h with
  | finishes c he => exact absurd (hs.running.symm.trans he) (by simp)
  | resets r hb hh => exact .inl ⟨hb, r, hh, rfl⟩
  | loads r image hb hh | injects r bytes hb hh | drains r n hb hh =>
    exact .inr (.of_same hs (fun _ => not_entered_of_move hb hh (by simp)) ⟨rfl, rfl, rfl, rfl, rfl, rfl⟩)
  | idles r hb hh =>
    exact .inr (.of_same hs (fun _ => not_entered_of_move hb hh (by simp [eq_comm])) ⟨rfl, rfl, rfl, rfl, rfl, rfl⟩)
  | interrupts r n hb hh hi =>
    have ht := trapTaken_raise { s with host := r } (.interrupt 11) 0#32
    exact .inr (.moves (fun _ => not_entered_of_interruptReady hb hi) ht.advance rfl fun _ => rfl)
  | fetchFaults u hu => exact .inr (.traps u hu _ _ (trapTaken_raise_exception u .instrAccessFault u.pc rfl))
  | illegal u hu w => exact .inr (.traps u hu _ _ (trapTaken_raise_exception u .illegalInstr w rfl))
  | executes u _ i hu hp hd hx =>
    rcases (exec_effect hx).retires_or_traps with ⟨hr, he, hc⟩ | ⟨c, v, ht⟩
    · exact .inr (.retires u hu hr hc he)
    · exact .inr (.traps u hu c v ht)

theorem BatchEffect.counters {s t : State} (hs : Inv s) (h : BatchEffect s t) :
    ∃ d : Nat, (d = 0 ∨ d = 1) ∧ Advance s t d ∧
      (d = 1 → ∃ u, Entered s u ∧ Retired u t ∧ t.batchLeft + 1 = u.batchLeft) ∧
      (∀ u, Entered s u → d = 0 → t.batchLeft = 0 ∧ ∃ c v, TrapTaken u t c v u.pc) := by
  cases h with
  | retires u hu hr hc _ =>
    have hl : t.batchLeft + 1 = u.batchLeft := by
      obtain ⟨-, -, -, hl⟩ := hr
      have := hu.inBatch.2
      omega
    exact ⟨1, .inr rfl, hu.advance hs.idle (hr.advance hc), fun _ => ⟨u, hu, hr, hl⟩, by simp⟩
  | traps u hu c v ht =>
    refine ⟨0, .inl rfl, hu.advance hs.idle ht.advance, by simp, fun u' hu' _ => ?_⟩
    rw [hu.unique hu']
    exact ⟨ht.ends_batch.2.2, c, v, ht⟩
  | moves hn ha => exact ⟨0, .inl rfl, ha, by simp, fun u hu => absurd hu (hn u)⟩

/-- Settles O21: 1 where an instruction retires, 0 where one traps and where the step executes none. -/
theorem countersAdvanceByRetirements : Obligations.CountersAdvanceByRetirements := by
  intro s t hs h
  rcases (step_effect h).resets_or_batchEffect hs with ⟨hb, r, hh, -⟩ | hb
  · exact .inl ⟨hb, r, hh⟩
  · obtain ⟨d, hd, ⟨hc, hi⟩, h1, h0⟩ := hb.counters hs
    exact .inr ⟨d, hd, hc, hi, h1, h0⟩

end Sys2Proof.Machine
end

section
/-! The invariant of the machine: the part that is about data is kept by every operation, the part that is about the batch and
the counters by what a step does to them (`BatchEffect`). -/

namespace Sys2Proof.Machine

/-- The part of the invariant that is about memory, mstatus, mie, the devices and the parameters. -/
structure DataInv (s : State) : Prop where
  memWf : Mem.wf s.mem
  memInRam : Mem.inRam s.mem
  mstatusMasked : s.mstatus &&& mstatusMask = s.mstatus
  mieMasked : s.mie &&& mieMask = s.mie
  onlyUartPending : ∀ i : Fin 32, i ≠ s.cfg.uartIrq → s.agg.pending.getLsbD i = false
  txBounded : s.uart.tx.length ≤ 8
  cfgWf : s.cfg.wf

theorem Inv.dataInv {s : State} (h : Inv s) : DataInv s :=
  ⟨h.memWf, h.memInRam, h.mstatusMasked, h.mieMasked, h.onlyUartPending, h.txBounded, h.cfgWf⟩

theorem DataInv.inv {s : State} (h : DataInv s) (running : s.engine = .running)
    (idle : s.batchLeft = 0 → s.batchRetired = 0) (agree : CountersAgree s) : Inv s :=
  ⟨h.memWf, h.memInRam, h.mstatusMasked, h.mieMasked, h.onlyUartPending, h.txBounded, h.cfgWf, running, idle, agree⟩

/-! ## The operations -/

/-- Only what `DataInv` speaks of matters to it. -/
theorem DataInv.frame {s t : State} (h : DataInv s) (hmem : t.mem = s.mem := by simp)
    (hmst : t.mstatus = s.mstatus := by simp) (hmie : t.mie = s.mie := by simp)
    (hpend : t.agg.pending = s.agg.pending := by simp) (htx : t.uart.tx = s.uart.tx := by simp)
    (hcfg : t.cfg = s.cfg := by simp) : DataInv t where
  memWf := hmem ▸ h.memWf
  memInRam := hmem ▸ h.memInRam
  mstatusMasked := hmst ▸ h.mstatusMasked
  mieMasked := hmie ▸ h.mieMasked
  onlyUartPending := by rw [hpend, hcfg]; exact h.onlyUartPending
  txBounded := htx ▸ h.txBounded
  cfgWf := hcfg ▸ h.cfgWf

/-- Memory may be any that is canonical and in RAM. -/
theorem DataInv.withMem {s : State} (h : DataInv s) {m : Mem} (hwf : Mem.wf m) (hin : Mem.inRam m) :
    DataInv { s with mem := m } :=
  { h with memWf := hwf, memInRam := hin }

theorem DataInv.withTx {s : State} (h : DataInv s) {u : Uart} (htx : u.tx.length ≤ 8) : DataInv { s with uart := u } :=
  { h with txBounded := htx }

theorem DataInv.raise {s : State} (h : DataInv s) (c : Cause) (v : Word) : DataInv (s.raise c v) :=
  { h with mstatusMasked := mkStatus_masked _ _ _ }

theorem DataInv.trapReturn {s : State} (h : DataInv s) (p : Priv) : DataInv (s.trapReturn p) := by
  have hm : DataInv { s with mstatus := mkStatus (privCode .user) true (statusMpie s.mstatus) } :=
    { h with mstatusMasked := mkStatus_masked _ _ _ }
  exact hm.frame

/-- The line drives the UART's own source only (R364, R372 item 5). -/
theorem DataInv.uartSignal {s : State} (h : DataInv s) : DataInv s.uartSignal :=
  { h with
    onlyUartPending := fun i hi => by
      have hne : i.val ≠ s.cfg.uartIrq.val := fun e => hi (Fin.ext e)
      rw [State.uartSignal_agg, Aggregator.signal_pending _ _ s.cfg.uartIrq.isLt, if_neg hne]
      exact h.onlyUartPending i hi }

theorem uartAfterRead_tx (u : Uart) (r : UartReg) : (uartAfterRead u r).tx = u.tx := by
  cases r <;> rfl

/-- A write enqueues nothing in a full FIFO (R372 item 2). -/
theorem uartAfterWrite_tx_length {u : Uart} (h : u.tx.length ≤ 8) (r : UartReg) (v : Word) :
    (uartAfterWrite u r v).tx.length ≤ 8 := by
  cases r with
  | txdata =>
    by_cases hl : u.tx.length < Config.uartFifoDepth
    · simp only [uartAfterWrite, hl, if_true, List.length_append]
      exact hl
    · simp only [uartAfterWrite, hl, if_false]
      exact h
  | _ => exact h

theorem DataInv.uartWrite {s : State} (h : DataInv s) (r : UartReg) (v : Word) : DataInv (s.uartWrite r v) := by
  by_cases hr : r = .baudDivisor
  · subst hr
    exact h
  · rw [s.uartWrite_signals v hr]
    exact (h.withTx (uartAfterWrite_tx_length h.txBounded r v)).uartSignal

theorem DataInv.memRead {s u : State} {a v : Word} {w : Width} (h : DataInv s) (hr : s.memRead a w = some (v, u)) :
    DataInv u := by
  rcases State.memRead_cases hr with ⟨-, -, rfl⟩ | ⟨-, -, -, rfl⟩ | ⟨r, -, -, rfl⟩
  · exact h
  · exact h.frame
  · exact (h.withTx (by rw [uartAfterRead_tx]; exact h.txBounded)).uartSignal

theorem DataInv.memWrite {s u : State} {a v : Word} {w : Width} (h : DataInv s) (hw : s.memWrite a w v = some u) :
    DataInv u := by
  rcases State.memWrite_cases hw with ⟨hin, rfl⟩ | ⟨-, -, rfl⟩ | ⟨r, -, rfl⟩
  · exact h.withMem (Mem.wf_writeLE h.memWf _ _ _) (Mem.inRam_writeLE h.memInRam hin _)
  · exact h.frame
  · exact h.uartWrite r _

theorem masked_of_masked_write {p : Prop} [Decidable p] {x v mask old : Word} (hx : x = if p then v &&& mask else old)
    (h : old &&& mask = old) : x &&& mask = x := by
  subst hx
  split
  · rw [BitVec.and_assoc, BitVec.and_self]
  · exact h

/-- A CSR write keeps mstatus and mie under their masks (R306). -/
theorem DataInv.csrWritten {s u : State} {c : CsrNum} {v : Word} (h : DataInv s) (hw : CsrWritten s u c v)
    (hmem : u.mem = s.mem) (hagg : u.agg = s.agg) (huart : u.uart = s.uart) (hcfg : u.cfg = s.cfg) : DataInv u := by
  obtain ⟨hmst, hmie, -⟩ := hw
  have hf : DataInv { u with mstatus := s.mstatus, mie := s.mie } := h.frame hmem rfl rfl (by rw [hagg]) (by rw [huart]) hcfg
  exact { hf with
    mstatusMasked := masked_of_masked_write hmst h.mstatusMasked
    mieMasked := masked_of_masked_write hmie h.mieMasked }

/-! ## Instructions and steps -/

theorem settledCounter_zero (v : Visibility) : settledCounter v 0 0#64 = 0#64 := by cases v <;> rfl

theorem Effect.dataInv {i : Instr} {s t : State} (h : Effect s i t) (hs : DataInv s) : DataInv t := by
  cases h with
  | computes | links | goes | storesNot => exact hs.frame
  | traps c v => exact hs.raise c v
  | loads _ _ _ _ _ u hr | reserves _ _ _ _ _ u _ hr =>
    have hu := hs.memRead hr
    exact hu.frame
  | stores _ _ _ u _ hw | storesIf _ _ _ _ _ u _ hw =>
    have hu := hs.memWrite hw
    exact hu.frame
  | modifies _ _ _ _ u u' _ hr hw =>
    have hu' := (hs.memRead hr).memWrite hw
    exact hu'.frame
  | modifyTraps rd a v u hr =>
    have hd : DataInv (u.drawReg rd v) := (hs.memRead hr).frame
    exact hd.raise _ _
  | reserveTraps rd rs1 =>
    have hd : DataInv (s.drawResv (some (s.getReg rs1))) := hs.frame
    exact hd.raise _ _
  | storeIfTraps rd =>
    have hd : DataInv ((s.drawReg rd 0#32).drawResv (resvAfterSc s.cfg s.resv)) := hs.frame
    exact hd.raise _ _
  | csr rd c write f u hi ha hw hn hu =>
    have hu' : DataInv u := by
      cases write with
      | false => exact hn rfl ▸ hs
      | true =>
        obtain ⟨m, e, tv, mc, ms, mp, ca, va, rfl⟩ := hu
        exact hs.csrWritten (hw rfl) rfl rfl rfl rfl
    exact hu'.frame
  | csrTraps rd v w =>
    have hd : DataInv (s.drawReg rd v) := hs.frame
    exact hd.raise _ _
  | returns p => exact hs.trapReturn p

theorem Entered.dataInv {s u : State} (hu : Entered s u) (hs : DataInv s) : DataInv u := by
  cases hu <;> exact hs.frame

/-- A reset keeps memory and the parameters; every other field the invariant speaks of is 0 or empty (R400, R401). -/
theorem inv_hostReset {s : State} (hwf : Mem.wf s.mem) (hin : Mem.inRam s.mem) (hcfg : s.cfg.wf) : Inv s.hostReset where
  memWf := hwf
  memInRam := hin
  mstatusMasked := BitVec.zero_and
  mieMasked := BitVec.zero_and
  onlyUartPending _ _ := BitVec.getLsbD_zero
  txBounded := Nat.zero_le _
  cfgWf := hcfg
  running := rfl
  idle _ := rfl
  countersAgree := (settledCounter_zero _).trans (settledCounter_zero _).symm

/-- A trap sequence that a step finishes is the end of a raise. -/
theorem completeTrap_eq_raise {s : State} {c : Trap} (he : s.engine = .trapEntry c) :
    s.completeTrap = s.raise c.cause c.tval := by
  rw [State.raise, ← he]

theorem StepEffect.dataInv {s t : State} (h : StepEffect s t) (hs : DataInv s) : DataInv t := by
  cases h with
  | finishes c he => exact completeTrap_eq_raise he ▸ hs.raise c.cause c.tval
  | resets r hb hh =>
    have hr : DataInv { s with host := r } := hs.frame
    exact (inv_hostReset hr.memWf hr.memInRam hr.cfgWf).dataInv
  | loads r image hb hh hl =>
    have hm := hs.withMem (Mem.wf_copy hs.memWf Config.imageBase image) (Mem.inRam_copy hs.memInRam hl)
    exact hm.frame
  | injects r bytes =>
    have hu : DataInv { s with host := r, uart := { s.uart with rx := s.uart.rx ++ bytes } } := hs.frame
    exact hu.uartSignal
  | drains r n =>
    have hl : (s.uart.tx.drop n).length ≤ 8 := by
      rw [List.length_drop]
      exact (Nat.sub_le ..).trans hs.txBounded
    have hu := hs.withTx (u := { s.uart with tx := s.uart.tx.drop n }) hl
    exact hu.frame rfl rfl rfl rfl rfl rfl
  | interrupts r =>
    have hr : DataInv { s with host := r } := hs.frame
    exact hr.raise _ _
  | idles => exact hs.frame
  | fetchFaults u hu | illegal u hu => exact (hu.dataInv hs).raise _ _
  | executes u _ i hu hp hd hx => exact (exec_effect hx).dataInv (hu.dataInv hs)

/-- Between steps the engine runs, and k is 0 between batches (R24, R41). -/
theorem BatchEffect.running_idle {s t : State} (h : BatchEffect s t) :
    t.engine = .running ∧ (t.batchLeft = 0 → t.batchRetired = 0) := by
  cases h with
  | retires u hu hr _ he =>
    obtain ⟨-, -, hk, hl⟩ := hr
    exact ⟨he.trans hu.inBatch.1, fun h0 => by rw [hk, if_pos (by omega)]⟩
  | traps _ _ _ _ ht => exact ⟨ht.ends_batch.1, fun _ => ht.ends_batch.2.1⟩
  | moves _ _ he hk => exact ⟨he, hk⟩

/-- Settles O19: the data by the operations, the batch and the counters by `BatchEffect`; a reset begins anew. -/
theorem stepKeepsInv : Obligations.StepKeepsInv := by
  intro s t hs h
  rcases (step_effect h).resets_or_batchEffect hs with ⟨-, r, -, rfl⟩ | hb
  · exact inv_hostReset hs.memWf hs.memInRam hs.cfgWf
  · obtain ⟨hrun, hidle⟩ := hb.running_idle
    obtain ⟨d, -, ha, -⟩ := hb.counters hs
    exact ((step_effect h).dataInv hs.dataInv).inv hrun hidle (ha.countersAgree hs.countersAgree)

theorem params_wf : Config.params.wf := by
  unfold Config.params
  split
  · assumption
  · decide

/-- Settles O20: the state after the first reset is what a reset makes of a machine with nothing listed in memory. -/
theorem resetMeetsInv : Obligations.ResetMeetsInv :=
  inv_hostReset (s := State.reset) ⟨.nil, fun _ hc => absurd hc List.not_mem_nil⟩
    (fun _ hc => absurd hc List.not_mem_nil) params_wf

end Sys2Proof.Machine
end

section
/-! Accesses of memory (R62 to R71): what a read gives after a write in RAM, which accesses fail, and which addresses are
one register. -/

namespace Sys2Proof.Machine

/-! ## Several bytes of RAM (R64 to R66) -/

theorem Mem.readLE_eq_sum (m : Mem) (a n : Nat) :
    Mem.readLE m a n = ((List.range n).map (fun i => (Mem.read m (a + i)).toNat * 2 ^ (8 * i))).sum := by
  induction n generalizing a with
  | zero => rfl
  | succ n ih =>
    have hstep : ∀ i, (Mem.read m (a + (i + 1))).toNat * 2 ^ (8 * (i + 1)) =
        256 * ((Mem.read m (a + 1 + i)).toNat * 2 ^ (8 * i)) := by
      intro i
      rw [Nat.add_right_comm, Nat.add_assoc]
      ring
    rw [Mem.readLE, ih, List.range_succ_eq_map]
    simp [Function.comp_def, hstep, List.sum_map_mul_left]

/-- `j` bytes read at an offset `k` into `n` bytes that were written are the bytes `k` and up of the value. -/
theorem Mem.readLE_writeLE_offset (m : Mem) (a v : Nat) {k j n : Nat} (h : k + j ≤ n) :
    Mem.readLE (Mem.writeLE m a v n) (a + k) j = v / 256 ^ k % 256 ^ j := by
  induction j generalizing k with
  | zero => simp [Mem.readLE, Nat.mod_one]
  | succ j ih =>
    have hbyte : Mem.read (Mem.writeLE m a v n) (a + k) = BitVec.ofNat 8 (v / 256 ^ k) := by
      rw [Mem.read_writeLE, if_pos (by omega), Nat.add_sub_cancel_left]
    rw [Mem.readLE, hbyte, Nat.add_assoc, ih (by omega), pow_succ' 256 j, Nat.mod_mul, Nat.div_div_eq_div_mul,
      ← pow_succ]
    rfl

theorem Mem.ofNat_readLE_toNat (m : Mem) (a : Nat) (w : Width) :
    (BitVec.ofNat 32 (Mem.readLE m a (bytesOf w))).toNat = Mem.readLE m a (bytesOf w) := by
  have hlt := Mem.readLE_lt m a (bytesOf w)
  have hw : 256 ^ bytesOf w ≤ 2 ^ 32 := by cases w <;> decide
  rw [BitVec.toNat_ofNat, Nat.mod_eq_of_lt (by omega)]

/-- Settles O32: RAM's bytes as a sum, and what a store leaves, byte by byte. -/
theorem ramReadsAndWrites : Obligations.RamReadsAndWrites := by
  intro s a v w h
  refine ⟨⟨_, s.memRead_inRam h, ?_⟩, _, s.memWrite_inRam v h, stored_writeLE _ _ _ _ _ rfl, rfl⟩
  rw [Mem.ofNat_readLE_toNat, Mem.readLE_eq_sum]
  rfl

/-! ## Which accesses fail (R63, R67 to R70) -/

/-- Settles O33: an access that is not refused is in RAM, at the claim register or at a UART register, and succeeds. -/
theorem accessesFailExactlyWhereRefused : Obligations.AccessesFailExactlyWhereRefused := by
  intro s a w
  refine ⟨⟨fun hn => ?_, State.memRead_refused⟩, fun v => ⟨fun hn => ?_, State.memWrite_refused v⟩⟩
  · rcases access_classes s .read a w with h | ⟨h, rfl⟩ | ⟨u, h⟩ | h
    · cases (s.memRead_inRam h).symm.trans hn
    · cases (State.memRead_claim h).symm.trans hn
    · cases (State.memRead_uart h).symm.trans hn
    · exact h
  · rcases access_classes s .write a w with h | ⟨h, rfl⟩ | ⟨u, h⟩ | h
    · cases (s.memWrite_inRam v h).symm.trans hn
    · cases (State.memWrite_complete v h).symm.trans hn
    · cases (State.memWrite_uart v h).symm.trans hn
    · exact h

/-! ## Aliases (R62) -/

theorem not_inRam_of_device {a : Word} (ha : 0xC0000000 ≤ a.toNat) (w : Width) : ¬ InRam a (bytesOf w) := by
  have hw : 1 ≤ bytesOf w := by cases w <;> decide
  unfold InRam
  omega

/-- In the device region a read depends on the slot and the register number only. -/
theorem State.memRead_device (s : State) {a : Word} (ha : 0xC0000000 ≤ a.toNat) (w : Width) :
    s.memRead a w = if (regNoOf a).toNat + bytesOf w ≤ 2 ^ 24 then s.deviceRead (slotOf a) (regNoOf a) w else none := by
  rw [regNoOf_toNat]
  split
  · rw [State.memRead, classify_device ha ‹_›]
  · rw [State.memRead, classify_split (not_inRam_of_device ha w) (.inr (by omega))]

/-- So does a write. -/
theorem State.memWrite_device (s : State) {a : Word} (ha : 0xC0000000 ≤ a.toNat) (w : Width) (v : Word) :
    s.memWrite a w v =
      if (regNoOf a).toNat + bytesOf w ≤ 2 ^ 24 then s.deviceWrite (slotOf a) (regNoOf a) w v else none := by
  rw [regNoOf_toNat]
  split
  · rw [State.memWrite, classify_device ha ‹_›]
  · rw [State.memWrite, classify_split (not_inRam_of_device ha w) (.inr (by omega))]

/-- Bits 27:0 hold the slot and the register number. -/
theorem slotOf_regNoOf_eq {a b : Word} (h : a.extractLsb' 0 28 = b.extractLsb' 0 28) :
    slotOf a = slotOf b ∧ regNoOf a = regNoOf b := by
  have h28 := congrArg BitVec.toNat h
  simp only [BitVec.extractLsb'_toNat, Nat.shiftRight_zero] at h28
  constructor <;> apply BitVec.eq_of_toNat_eq
  · simp only [slotOf, BitVec.extractLsb'_toNat, Nat.shiftRight_eq_div_pow]
    omega
  · rw [regNoOf_toNat, regNoOf_toNat]
    omega

/-- Settles O34: an access of the device region sees nothing of its address but the slot and the register number. -/
theorem deviceAliases : Obligations.DeviceAliases := by
  intro s a b v w ha hb hab
  obtain ⟨hslot, hreg⟩ := slotOf_regNoOf_eq hab
  refine ⟨not_inRam_of_device ha w, ?read, ?write⟩
  case read => rw [s.memRead_device ha, s.memRead_device hb, hslot, hreg]
  case write => rw [s.memWrite_device ha, s.memWrite_device hb, hslot, hreg]

/-! ## Byte order (R64) -/

theorem ofNat_bytes (v : Word) (k j : Nat) :
    BitVec.ofNat 32 (v.toNat / 256 ^ k % 256 ^ j) = (v.extractLsb' (8 * k) (8 * j)).setWidth 32 := by
  apply BitVec.eq_of_toNat_eq
  rw [BitVec.toNat_ofNat, BitVec.toNat_setWidth, BitVec.extractLsb'_toNat, Nat.shiftRight_eq_div_pow, pow_mul, pow_mul,
    show 2 ^ 8 = 256 from rfl]

/-- A read at the offset `k` into a word of RAM that was written. -/
theorem State.memRead_of_writeLE {s : State} {m : Mem} {a v : Word} (hm : s.mem = Mem.writeLE m a.toNat v.toNat 4)
    (ha : InRam a 4) (k : Nat) (w : Width) (hk : k + bytesOf w ≤ 4) :
    s.memRead (a + BitVec.ofNat 32 k) w = some ((v.extractLsb' (8 * k) (8 * bytesOf w)).setWidth 32, s) := by
  unfold InRam at ha
  have hb : (a + BitVec.ofNat 32 k).toNat = a.toNat + k := by
    rw [BitVec.toNat_add, BitVec.toNat_ofNat]
    omega
  have hin : InRam (a + BitVec.ofNat 32 k) (bytesOf w) := by
    unfold InRam
    omega
  rw [s.memRead_inRam hin, hm, hb, Mem.readLE_writeLE_offset _ _ _ hk, ofNat_bytes]

theorem State.fetch_of_inRam (s : State) {a : Word} (h : InRam a 4) :
    s.fetch a = some (BitVec.ofNat 32 (Mem.readLE s.mem a.toNat 4)) := if_pos h

theorem Mem.ofNat_readLE_writeLE_word (m : Mem) (a : Nat) (v : Word) :
    BitVec.ofNat 32 (Mem.readLE (Mem.writeLE m a v.toNat 4) a 4) = v := by
  rw [Mem.readLE_writeLE, Nat.mod_eq_of_lt (show v.toNat < 256 ^ 4 from v.isLt), BitVec.ofNat_toNat, BitVec.setWidth_eq]

/-- Settles O35: every narrower read is a read at an offset into the word written. -/
theorem byteOrder : Obligations.ByteOrder := by
  intro s a v h
  have hbyte (x : BitVec 8) : x.setWidth 32 = 0#24 ++ x := BitVec.setWidth_eq_append (by decide)
  have hhalf (x : BitVec 16) : x.setWidth 32 = 0#16 ++ x := BitVec.setWidth_eq_append (by decide)
  refine ⟨_, s.memWrite_inRam (w := .word) v h, ?_⟩
  have hread := State.memRead_of_writeLE (s := { s with mem := Mem.writeLE s.mem a.toNat v.toNat 4 }) rfl h
  have hat (w : Width) (hw : 0 + bytesOf w ≤ 4) := hread 0 w hw
  simp only [BitVec.add_zero] at hat
  refine ⟨?word, hbyte _ ▸ hat .byte (by decide), hbyte _ ▸ hread 1 .byte (by decide),
    hbyte _ ▸ hread 2 .byte (by decide), hbyte _ ▸ hread 3 .byte (by decide), hhalf _ ▸ hat .half (by decide),
    hhalf _ ▸ hread 1 .half (by decide), hhalf _ ▸ hread 2 .half (by decide), ?fetch⟩
  case word => simpa [bytesOf] using hat .word (by decide)
  case fetch =>
    rw [State.fetch_of_inRam _ h]
    exact congrArg some (Mem.ofNat_readLE_writeLE_word _ _ _)

/-! ## A store over the next instruction (R77) -/

theorem wordAt_of_writeLE {t : State} {m : Mem} {a v : Word} (h : t.mem = Mem.writeLE m a.toNat v.toNat 4) :
    wordAt t a = v := by
  rw [← Mem.ofNat_readLE_writeLE_word m a.toNat v, ← h]
  exact (Mem.ofNat_readLE_four _ _).symm

theorem storeWith_inRam {w : Width} {rs1 rs2 : Reg} {imm : BitVec 12} {s : State} {a : Word}
    (ha : s.getReg rs1 + imm12 imm = a) (h : InRam a (bytesOf w)) :
    storeWith w rs1 rs2 imm s =
      .next (State.advance { s with mem := Mem.writeLE s.mem a.toNat (s.getReg rs2).toNat (bytesOf w) }) := by
  subst ha
  simp only [storeWith, s.memWrite_inRam _ h]

/-- Settles O36: the store leaves a batch running, with the pc at the word it wrote. -/
theorem storesAreSeenByTheNextFetch : Obligations.StoresAreSeenByTheNextFetch := by
  intro s t rs1 rs2 imm i hrun hleft ha hin hd hx
  cases (storeWith_inRam (w := .word) ha hin).symm.trans hx
  have hbatch : InBatch (State.advance { s with mem := Mem.writeLE s.mem (s.pc + 4#32).toNat (s.getReg rs2).toNat 4 }) :=
    ⟨by simpa using hrun, (State.advance_batchLeft _).trans_ne (Nat.sub_ne_zero_of_lt hleft)⟩
  refine step_inBatch hbatch (by simpa using hin) ?_
  rw [wordAtPc, State.advance_pc, wordAt_of_writeLE (State.advance_mem _)]
  exact hd

end Sys2Proof.Machine
end

section
/-! What changes RAM (R61, R76): the store of an instruction, and the image of a host load. -/

namespace Sys2Proof.Machine

/-- A byte of RAM that a write changes is one of its own. -/
theorem State.memWrite_changes {s u : State} {a v : Word} {w : Width} {x : Nat} (hw : s.memWrite a w v = some u)
    (hx : Mem.read u.mem x ≠ Mem.read s.mem x) : InRam a (bytesOf w) ∧ a.toNat ≤ x ∧ x < a.toNat + bytesOf w := by
  rcases State.memWrite_cases hw with ⟨hin, rfl⟩ | ⟨-, -, rfl⟩ | ⟨r, -, rfl⟩
  · refine ⟨hin, Classical.byContradiction fun hout => hx ?_⟩
    rw [Mem.read_writeLE, if_neg hout]
  · exact absurd rfl hx
  · exact absurd (by rw [State.uartWrite_mem]) hx

theorem State.memRead_mem {s u : State} {a v : Word} {w : Width} (h : s.memRead a w = some (v, u)) : u.mem = s.mem := by
  obtain ⟨g, ut, d, rfl⟩ := State.memRead_frame h
  rfl

/-- The byte `x` lies in RAM among those the instruction stores to. -/
def Covers (s : State) (i : Instr) (x : Nat) : Prop :=
  ∃ a n, storeTarget s i = some (a, n) ∧ InRam a n ∧ a.toNat ≤ x ∧ x < a.toNat + n

theorem Effect.covers {i : Instr} {s t : State} {x : Nat} (h : Effect s i t) (hx : Mem.read t.mem x ≠ Mem.read s.mem x) :
    Covers s i x := by
  cases h with
  | computes | links | goes | traps | reserveTraps | storesNot | storeIfTraps | csrTraps | returns =>
    exact absurd (by simp) hx
  | loads _ _ _ _ _ u hr | modifyTraps _ _ _ u hr | reserves _ _ _ _ _ u _ hr =>
    exact absurd (by simp [State.memRead_mem hr]) hx
  | csr rd c write f u _ _ _ _ hu =>
    obtain ⟨m, e, tv, mc, ms, mp, ca, va, rfl⟩ := hu
    exact absurd (by simp) hx
  | stores a w v u ht hw => exact ⟨a, bytesOf w, ht, State.memWrite_changes hw (by simpa using hx)⟩
  | storesIf rd rs1 rs2 aq rl u hi hw =>
    subst hi
    exact ⟨s.getReg rs1, 4, rfl, State.memWrite_changes hw (by simpa using hx)⟩
  | modifies rd a v y u u' ht hr hw =>
    exact ⟨a, 4, ht, State.memWrite_changes hw (by simpa [State.memRead_mem hr] using hx)⟩

theorem storeTarget_congr {s u : State} (h : SameRegs s u) (i : Instr) : storeTarget u i = storeTarget s i := by
  unfold SameRegs at h
  simp only [storeTarget, h]

theorem Entered.storeTarget {s u : State} (hu : Entered s u) (i : Instr) : storeTarget u i = storeTarget s i := by
  cases hu <;> exact storeTarget_congr (fun _ => rfl) i

/-- Settles O15: of the steps, a host load writes its image, and an executed instruction the bytes it stores to. -/
theorem ramChangesOnlyByStoresAndLoad : Obligations.RamChangesOnlyByStoresAndLoad := by
  intro s t x h hx
  cases step_effect h with
  | finishes c he => exact absurd (by rw [completeTrap_eq_raise he, State.raise_mem]) hx
  | resets | injects | drains | interrupts | idles => exact absurd rfl hx
  | fetchFaults u hu | illegal u hu => exact absurd (by rw [State.raise_mem, hu.pc_mem.2]) hx
  | loads r image hb hh =>
    refine .inl ⟨hb, image, r, hh, Classical.byContradiction fun hout => hx ?_⟩
    exact (Mem.read_copy s.mem Config.imageBase image x).trans (dif_neg hout)
  | executes u _ i hu hp hd hx' =>
    obtain ⟨a, n, ht, hin⟩ := (exec_effect hx').covers (hu.pc_mem.2 ▸ hx)
    exact .inr ⟨hp, i, a, n, hd, hu.storeTarget i ▸ ht, hin⟩

end Sys2Proof.Machine
end

section
/-! The privilege level plays no part in an access (R78, R362): every operation but trap entry, MRET and the CSR protocol
commutes with a change of the level, and trap entry shows it in MPP only. -/

namespace Sys2Proof.Machine

/-- The state with the level `p` in place of its own. -/
def State.atLevel (s : State) (p : Priv) : State := { s with priv := p }

/-! ## The operations commute with a change of the level -/

@[simp] theorem State.getReg_atLevel (s : State) (p : Priv) (r : Reg) : (s.atLevel p).getReg r = s.getReg r := rfl

@[simp] theorem State.draw_atLevel (s : State) (p : Priv) : (s.atLevel p).draw = s.draw := rfl

@[simp] theorem State.setReg_atLevel (s : State) (p : Priv) (rd : Reg) (v : Word) :
    (s.atLevel p).setReg rd v = (s.setReg rd v).atLevel p := by
  unfold State.setReg
  split <;> rfl

@[simp] theorem State.retire_atLevel (s : State) (p : Priv) : (s.atLevel p).retire = s.retire.atLevel p := by
  by_cases h : s.batchLeft ≤ 1
  · simp only [State.retire, State.atLevel, h, if_true, State.endBatch]
  · simp only [State.retire, State.atLevel, h, if_false]

@[simp] theorem State.goTo_atLevel (s : State) (p : Priv) (a : Word) : (s.atLevel p).goTo a = (s.goTo a).atLevel p :=
  State.retire_atLevel { s with pc := a } p

@[simp] theorem State.writeBack_atLevel (s : State) (p : Priv) (rd : Reg) (v : Word) :
    (s.atLevel p).writeBack rd v = (s.writeBack rd v).atLevel p := by
  rw [State.writeBack, State.setReg_atLevel]
  exact State.goTo_atLevel _ p _

@[simp] theorem State.drawReg_atLevel (s : State) (p : Priv) (rd : Reg) (v : Word) :
    (s.atLevel p).drawReg rd v = (s.drawReg rd v).atLevel p := by
  unfold State.drawReg
  rw [State.draw_atLevel]
  split
  · exact State.setReg_atLevel s.drawn p rd v
  · rfl

@[simp] theorem State.drawResv_atLevel (s : State) (p : Priv) (r : Option Word) :
    (s.atLevel p).drawResv r = (s.drawResv r).atLevel p := by
  unfold State.drawResv
  rw [State.draw_atLevel]
  split <;> rfl

theorem State.uartWrite_atLevel (s : State) (p : Priv) (r : UartReg) (v : Word) :
    (s.atLevel p).uartWrite r v = (s.uartWrite r v).atLevel p := by
  by_cases h : r = .baudDivisor
  · subst h
    rfl
  · rw [State.uartWrite_signals _ _ h, State.uartWrite_signals _ _ h]
    rfl

@[simp] theorem State.memRead_atLevel (s : State) (p : Priv) (a : Word) (w : Width) :
    (s.atLevel p).memRead a w = (s.memRead a w).map (fun x => (x.1, x.2.atLevel p)) := by
  rcases access_classes s .read a w with h | ⟨h, rfl⟩ | ⟨r, h⟩ | h
  · rw [State.memRead_inRam _ h, State.memRead_inRam _ h]
    rfl
  · rw [State.memRead_claim h, State.memRead_claim (s := s.atLevel p) h]
    rfl
  · rw [State.memRead_uart h, State.memRead_uart (s := s.atLevel p) h]
    rfl
  · rw [State.memRead_refused h, State.memRead_refused (s := s.atLevel p) h]
    rfl

@[simp] theorem State.memWrite_atLevel (s : State) (p : Priv) (a : Word) (w : Width) (v : Word) :
    (s.atLevel p).memWrite a w v = (s.memWrite a w v).map (·.atLevel p) := by
  rcases access_classes s .write a w with h | ⟨h, rfl⟩ | ⟨r, h⟩ | h
  · rw [State.memWrite_inRam _ _ h, State.memWrite_inRam _ _ h]
    rfl
  · rw [State.memWrite_complete _ h, State.memWrite_complete (s := s.atLevel p) _ h]
    rfl
  · rw [State.memWrite_uart _ h, State.memWrite_uart (s := s.atLevel p) _ h, State.uartWrite_atLevel]
    rfl
  · rw [State.memWrite_refused _ h, State.memWrite_refused (s := s.atLevel p) _ h]
    rfl

theorem State.memRead_priv {s u : State} {a v : Word} {w : Width} (h : s.memRead a w = some (v, u)) :
    u.priv = s.priv := by
  obtain ⟨g, ut, d, rfl⟩ := State.memRead_frame h
  rfl

theorem State.memWrite_priv {s u : State} {a v : Word} {w : Width} (h : s.memWrite a w v = some u) :
    u.priv = s.priv := by
  obtain ⟨m, g, ut, d, rfl⟩ := State.memWrite_frame h
  rfl

/-! ## Two answers that differ by the level -/

/-- The answers of one instruction in `s` and in `s.atLevel p`: it completes in states that differ in the level only, or
raises the same trap in such states. -/
inductive LevelBlind (s : State) (p : Priv) : Answer → Answer → Prop where
  | completes (t : State) (ht : t.priv = s.priv) : LevelBlind s p (.next t) (.next (t.atLevel p))
  | traps (t : State) (ht : t.priv = s.priv) (c : Cause) (v : Word) :
      LevelBlind s p (.next (t.raise c v)) (.next ((t.atLevel p).raise c v))

theorem levelBlind_goTo {s t : State} (ht : t.priv = s.priv) (p : Priv) (a : Word) :
    LevelBlind s p (.next (t.goTo a)) (.next ((t.atLevel p).goTo a)) := by
  rw [State.goTo_atLevel]
  exact .completes _ (by simpa using ht)

theorem levelBlind_writeBack {s t : State} (ht : t.priv = s.priv) (p : Priv) (rd : Reg) (v : Word) :
    LevelBlind s p (.next (t.writeBack rd v)) (.next ((t.atLevel p).writeBack rd v)) := by
  rw [State.writeBack_atLevel]
  exact .completes _ (by simpa using ht)

theorem levelBlind_link (s : State) (p : Priv) (rd : Reg) (v a : Word) :
    LevelBlind s p (.next ((s.setReg rd v).goTo a)) (.next (((s.atLevel p).setReg rd v).goTo a)) := by
  rw [State.setReg_atLevel]
  exact levelBlind_goTo (by simp) p a

theorem levelBlind_branchIf (b : Bool) (off : BitVec 13) (s : State) (p : Priv) :
    LevelBlind s p (branchIf b off s) (branchIf b off (s.atLevel p)) := by
  cases b with
  | false => exact levelBlind_goTo rfl p _
  | true => exact levelBlind_goTo rfl p _

theorem levelBlind_loadWith (w : Width) (ext : Word → Word) (rd rs1 : Reg) (imm : BitVec 12) (s : State) (p : Priv) :
    LevelBlind s p (loadWith w ext rd rs1 imm s) (loadWith w ext rd rs1 imm (s.atLevel p)) := by
  simp only [loadWith, State.getReg_atLevel, State.memRead_atLevel]
  cases hr : s.memRead (s.getReg rs1 + imm12 imm) w with
  | none => exact .traps s rfl _ _
  | some x => exact levelBlind_writeBack (State.memRead_priv hr) p rd _

theorem levelBlind_storeWith (w : Width) (rs1 rs2 : Reg) (imm : BitVec 12) (s : State) (p : Priv) :
    LevelBlind s p (storeWith w rs1 rs2 imm s) (storeWith w rs1 rs2 imm (s.atLevel p)) := by
  simp only [storeWith, State.getReg_atLevel, State.memWrite_atLevel]
  cases hw : s.memWrite (s.getReg rs1 + imm12 imm) w (s.getReg rs2) with
  | none => exact .traps s rfl _ _
  | some u => exact levelBlind_goTo (State.memWrite_priv hw) p _

theorem levelBlind_amoWith (op : Word → Word → Word) (rd rs1 rs2 : Reg) (s : State) (p : Priv) :
    LevelBlind s p (amoWith op rd rs1 rs2 s) (amoWith op rd rs1 rs2 (s.atLevel p)) := by
  simp only [amoWith, State.getReg_atLevel, State.memRead_atLevel]
  cases hr : s.memRead (s.getReg rs1) .word with
  | none => exact .traps s rfl _ _
  | some x =>
    obtain ⟨old, u⟩ := x
    have hu := State.memRead_priv hr
    simp only [Option.map_some, State.memWrite_atLevel]
    cases hw : u.memWrite (s.getReg rs1) .word (op old (s.getReg rs2)) with
    | some u' => exact levelBlind_writeBack ((State.memWrite_priv hw).trans hu) p rd old
    | none =>
      simp only [Option.map_none, State.drawReg_atLevel]
      exact .traps _ (by simpa using hu) _ _

theorem levelBlind_lrW (rd rs1 : Reg) (aq rl : BitVec 1) (s : State) (p : Priv) :
    LevelBlind s p (execLrW rd rs1 aq rl s) (execLrW rd rs1 aq rl (s.atLevel p)) := by
  simp only [execLrW, State.getReg_atLevel, State.memRead_atLevel]
  cases hr : s.memRead (s.getReg rs1) .word with
  | some x =>
    obtain ⟨v, u⟩ := x
    have hu : ({ u with resv := some (s.getReg rs1) } : State).priv = s.priv :=
      (State.memRead_priv hr : u.priv = s.priv)
    exact levelBlind_writeBack hu p rd v
  | none =>
    simp only [Option.map_none, State.drawResv_atLevel]
    exact .traps _ (by simp) _ _

theorem levelBlind_scW (rd rs1 rs2 : Reg) (aq rl : BitVec 1) (s : State) (p : Priv) :
    LevelBlind s p (execScW rd rs1 rs2 aq rl s) (execScW rd rs1 rs2 aq rl (s.atLevel p)) := by
  by_cases hm : s.resv = some (s.getReg rs1)
  · have hm' : (s.atLevel p).resv = some (s.getReg rs1) := hm
    simp only [execScW, State.getReg_atLevel, State.memWrite_atLevel, hm, hm', if_true]
    cases hw : s.memWrite (s.getReg rs1) .word (s.getReg rs2) with
    | some u =>
      have hu : ({ u with resv := resvAfterSc u.cfg u.resv } : State).priv = s.priv :=
        (State.memWrite_priv hw : u.priv = s.priv)
      exact levelBlind_writeBack hu p rd 0#32
    | none =>
      simp only [Option.map_none, State.drawReg_atLevel, State.drawResv_atLevel]
      exact .traps _ (by simp) _ _
  · have hm' : (s.atLevel p).resv ≠ some (s.getReg rs1) := hm
    simp only [execScW, State.getReg_atLevel, hm, hm', if_false]
    have hs : ({ s with resv := resvAfterSc s.cfg s.resv } : State).priv = s.priv := rfl
    exact levelBlind_writeBack hs p rd 1#32

/-- Only ECALL, MRET and the CSR instructions look at the level (R78, R360). -/
theorem levelBlind_exec {i : Instr} (hc : csrOperand i = none) (he : i ≠ .ecall) (hm : i ≠ .mret) (s : State)
    (p : Priv) :
    LevelBlind s p (exec i s) (exec i (s.atLevel p)) := by
  cases i with
  | ecall => exact absurd rfl he
  | mret => exact absurd rfl hm
  | csrrw | csrrs | csrrc | csrrwi | csrrsi | csrrci => cases hc
  | ebreak => exact .traps s rfl _ _
  | jal | jalr => exact levelBlind_link s p _ _ _
  | fence | fenceI => exact levelBlind_goTo rfl p _
  | beq | bne | blt | bge | bltu | bgeu => exact levelBlind_branchIf _ _ s p
  | lb | lh | lw | lbu | lhu => exact levelBlind_loadWith _ _ _ _ _ s p
  | sb | sh | sw => exact levelBlind_storeWith _ _ _ _ s p
  | lrW rd rs1 aq rl => exact levelBlind_lrW rd rs1 aq rl s p
  | scW rd rs1 rs2 aq rl => exact levelBlind_scW rd rs1 rs2 aq rl s p
  | amoswapW | amoaddW | amoxorW | amoandW | amoorW | amominW | amomaxW | amominuW | amomaxuW =>
    simp only [exec, execAmoswapW, execAmoaddW, execAmoxorW, execAmoandW, execAmoorW, execAmominW, execAmomaxW,
      execAmominuW, execAmomaxuW]
    exact levelBlind_amoWith _ _ _ _ s p
  | _ => exact levelBlind_writeBack rfl p _ _

/-- Settles O18: where the instruction completes, the level stays; where it traps, both states enter Machine mode and
each saves its level in MPP. -/
theorem noMemoryProtection : Obligations.NoMemoryProtection := by
  intro i s p hc he hm
  have h := levelBlind_exec hc he hm s p
  change ∃ t u, exec i s = .next t ∧ exec i (s.atLevel p) = .next u ∧ _
  generalize exec i s = x, exec i (s.atLevel p) = y at h ⊢
  cases h with
  | completes t ht => exact ⟨t, _, rfl, rfl, rfl, .inl ⟨ht, rfl, rfl⟩⟩
  | traps t ht c v =>
    have hmpp : statusMpp (t.raise c v).mstatus = privCode s.priv := ht ▸ statusMpp_mkStatus _ _ _
    have hmie : statusMie ((t.atLevel p).raise c v).mstatus = statusMie (t.raise c v).mstatus :=
      (statusMie_mkStatus _ _ _).trans (statusMie_mkStatus _ _ _).symm
    have hmpie : statusMpie ((t.atLevel p).raise c v).mstatus = statusMpie (t.raise c v).mstatus :=
      (statusMpie_mkStatus _ _ _).trans (statusMpie_mkStatus _ _ _).symm
    exact ⟨_, _, rfl, rfl, rfl, .inr ⟨rfl, rfl, hmpp, statusMpp_mkStatus _ _ _, hmie, hmpie, mkStatus_mpp _ _ _ _⟩⟩

end Sys2Proof.Machine
end

section
/-! Decoding and encoding (30_encoding R100 to R120): the decoder on the word of an instruction, on a word of a row of the
opcode table, and on any word it accepts; and the trap of a word it refuses (R118). -/

namespace Sys2Proof

/-! ## The major opcodes (R111) -/

theorem decodeWord_branch {w : Word} (ho : fOpcode w = 0b1100011#7) : decodeWord w = decodeBranch w := by
  simp [decodeWord, ho]

theorem decodeWord_load {w : Word} (ho : fOpcode w = 0b0000011#7) : decodeWord w = decodeLoad w := by
  simp [decodeWord, ho]

theorem decodeWord_store {w : Word} (ho : fOpcode w = 0b0100011#7) : decodeWord w = decodeStore w := by
  simp [decodeWord, ho]

theorem decodeWord_opImm {w : Word} (ho : fOpcode w = 0b0010011#7) : decodeWord w = decodeOpImm w := by
  simp [decodeWord, ho]

theorem decodeWord_op {w : Word} (ho : fOpcode w = 0b0110011#7) : decodeWord w = decodeOp w := by
  simp [decodeWord, ho]

theorem decodeWord_amo {w : Word} (ho : fOpcode w = 0b0101111#7) : decodeWord w = decodeAmo w := by
  simp [decodeWord, ho]

theorem decodeWord_miscMem {w : Word} (ho : fOpcode w = 0b0001111#7) : decodeWord w = decodeMiscMem w := by
  simp [decodeWord, ho]

theorem decodeWord_system {w : Word} (ho : fOpcode w = 0b1110011#7) : decodeWord w = decodeSystem w := by
  simp [decodeWord, ho]

/-! ## The word of an instruction decodes to it -/

/-- Settles O1: every field the decoder of a format looks at is the one the encoder of that format put there. -/
theorem decodeEncodeRoundTrip : Obligations.DecodeEncodeRoundTrip := by
  intro i hi
  cases i with
  | ecall | ebreak | mret => rfl
  | lui | auipc => simp [encode, decodeWord, fOpcode_encU, fRd_encU, fImmU_encU]
  | jal rd off => simp [encode, decodeWord, fOpcode_encJ, fRd_encJ, fImmJ_encJ off rd _ hi]
  | jalr => simp [encode, decodeWord, fOpcode_encI, fFunct3_encI, fRd_encI, fRs1_encI, fImm12_encI]
  | beq _ _ off | bne _ _ off | blt _ _ off | bge _ _ off | bltu _ _ off | bgeu _ _ off =>
    refine (decodeWord_branch (fOpcode_encB _ _ _ _ _)).trans ?_
    simp [decodeBranch, fFunct3_encB, fRs1_encB, fRs2_encB, fImmB_encB off _ _ _ _ hi]
  | lb | lh | lw | lbu | lhu =>
    refine (decodeWord_load (fOpcode_encI _ _ _ _ _)).trans ?_
    simp [decodeLoad, fFunct3_encI, fRd_encI, fRs1_encI, fImm12_encI]
  | sb | sh | sw =>
    refine (decodeWord_store (fOpcode_encS _ _ _ _ _)).trans ?_
    simp [decodeStore, fFunct3_encS, fRs1_encS, fRs2_encS, fImmS_encS]
  | addi | slti | sltiu | xori | ori | andi =>
    refine (decodeWord_opImm (fOpcode_encI _ _ _ _ _)).trans ?_
    simp [decodeOpImm, fFunct3_encI, fRd_encI, fRs1_encI, fImm12_encI]
  | slli | srli | srai =>
    refine (decodeWord_opImm (fOpcode_encR _ _ _ _ _ _)).trans ?_
    simp [decodeOpImm, fFunct3_encR, fFunct7_encR, fRd_encR, fRs1_encR, fRs2_encR]
  | add | sub | sll | slt | sltu | xor | srl | sra | or | and | mul | mulh | mulhsu | mulhu | div | divu | rem | remu =>
    refine (decodeWord_op (fOpcode_encR _ _ _ _ _ _)).trans ?_
    simp [decodeOp, fFunct3_encR, fFunct7_encR, fRd_encR, fRs1_encR, fRs2_encR]
  | fence | fenceI =>
    refine (decodeWord_miscMem (fOpcode_encI _ _ _ _ _)).trans ?_
    simp [decodeMiscMem, fFunct3_encI, fRd_encI, fRs1_encI, fImm12_encI, fFm_encI, fPred_encI, fSucc_encI]
  | lrW | scW | amoswapW | amoaddW | amoxorW | amoandW | amoorW | amominW | amomaxW | amominuW | amomaxuW =>
    refine (decodeWord_amo (fOpcode_encAmo _ _ _ _ _ _)).trans ?_
    simp [decodeAmo, fFunct3_encAmo, fFunct5_encAmo, fRd_encAmo, fRs1_encAmo, fRs2_encAmo, fAq_encAmo, fRl_encAmo]
  | csrrw | csrrs | csrrc | csrrwi | csrrsi | csrrci =>
    refine (decodeWord_system (fOpcode_encI _ _ _ _ _)).trans ?_
    simp [decodeSystem, fFunct3_encI, fRd_encI, fRs1_encI, fImm12_encI]

/-! ## A word that decodes is the word of its instruction -/

section
variable {w : Word}

theorem encR_of_fields {f7 : BitVec 7} {f3 : BitVec 3} {op : BitVec 7} (h7 : fFunct7 w = f7) (h3 : fFunct3 w = f3)
    (ho : fOpcode w = op) : encR f7 (fRs2 w) (fRs1 w) f3 (fRd w) op = w := by
  subst h7 h3 ho
  exact encR_fields w

theorem encI_of_fields {f3 : BitVec 3} {op : BitVec 7} (h3 : fFunct3 w = f3) (ho : fOpcode w = op) :
    encI (fImm12 w) (fRs1 w) f3 (fRd w) op = w := by
  subst h3 ho
  exact encI_fields w

theorem encS_of_fields {f3 : BitVec 3} {op : BitVec 7} (h3 : fFunct3 w = f3) (ho : fOpcode w = op) :
    encS (fImmS w) (fRs2 w) (fRs1 w) f3 op = w := by
  subst h3 ho
  exact encS_fields w

theorem encB_of_fields {f3 : BitVec 3} {op : BitVec 7} (h3 : fFunct3 w = f3) (ho : fOpcode w = op) :
    encB (fImmB w) (fRs2 w) (fRs1 w) f3 op = w := by
  subst h3 ho
  exact encB_fields w

theorem encU_of_opcode {op : BitVec 7} (ho : fOpcode w = op) : encU (fImmU w) (fRd w) op = w := by
  subst ho
  exact encU_fields w

theorem encJ_of_opcode {op : BitVec 7} (ho : fOpcode w = op) : encJ (fImmJ w) (fRd w) op = w := by
  subst ho
  exact encJ_fields w

theorem encAmo_of_fields {f5 : BitVec 5} (h5 : fFunct5 w = f5) (h3 : fFunct3 w = 0b010#3)
    (ho : fOpcode w = 0b0101111#7) : encAmo f5 (fAq w) (fRl w) (fRs2 w) (fRs1 w) (fRd w) = w := by
  subst h5
  exact encAmo_fields h3 ho

end

/-- The answer `r` loses no bit of the word `w`: an instruction it reads there is well-formed and has the word `w` (R120). -/
def Faithful (w : Word) (r : Except DecodeError Instr) : Prop := ∀ i, r = .ok i → encode i = w ∧ i.wellFormed = true

namespace Faithful

theorem error {w : Word} {e : DecodeError} : Faithful w (.error e) := by
  intro i h
  cases h

theorem ok {w : Word} {i : Instr} (h : encode i = w) (hi : i.wellFormed = true) : Faithful w (.ok i) := by
  intro j hj
  cases hj
  exact ⟨h, hi⟩

theorem ite {w : Word} {c : Prop} [Decidable c] {a b : Except DecodeError Instr} (ha : c → Faithful w a)
    (hb : ¬ c → Faithful w b) : Faithful w (if c then a else b) := by
  split
  · exact ha ‹_›
  · exact hb ‹_›

end Faithful

section
variable {w : Word}

theorem faithful_decodeBranch (ho : fOpcode w = 0b1100011#7) : Faithful w (decodeBranch w) := by
  unfold decodeBranch
  iterate 6 refine .ite (fun h3 => .ok (encB_of_fields h3 ho) (even_fImmB w)) fun _ => ?_
  exact .error

theorem faithful_decodeLoad (ho : fOpcode w = 0b0000011#7) : Faithful w (decodeLoad w) := by
  unfold decodeLoad
  iterate 5 refine .ite (fun h3 => .ok (encI_of_fields h3 ho) rfl) fun _ => ?_
  exact .error

theorem faithful_decodeStore (ho : fOpcode w = 0b0100011#7) : Faithful w (decodeStore w) := by
  unfold decodeStore
  iterate 3 refine .ite (fun h3 => .ok (encS_of_fields h3 ho) rfl) fun _ => ?_
  exact .error

/-- SRLI and SRAI have the value of funct3 that the others leave (R113). -/
theorem faithful_decodeOpImm (ho : fOpcode w = 0b0010011#7) : Faithful w (decodeOpImm w) := by
  unfold decodeOpImm
  iterate 6 refine .ite (fun h3 => .ok (encI_of_fields h3 ho) rfl) fun _ => ?_
  refine .ite (fun h3 => .ite (fun h7 => .ok (encR_of_fields h7 h3 ho) rfl) fun _ => .error) fun _ => ?_
  have h3 : fFunct3 w = 0b101#3 := by bv_omega
  iterate 2 refine .ite (fun h7 => .ok (encR_of_fields h7 h3 ho) rfl) fun _ => ?_
  exact .error

/-- AND and REMU have the value of funct3 that the others leave (R114). -/
theorem faithful_decodeOp (ho : fOpcode w = 0b0110011#7) : Faithful w (decodeOp w) := by
  unfold decodeOp
  refine .ite (fun h7 => ?_) fun _ => .ite (fun h7 => ?_) fun _ => .ite (fun h7 => ?_) fun _ => .error
  case refine_2 =>
    iterate 2 refine .ite (fun h3 => .ok (encR_of_fields h7 h3 ho) rfl) fun _ => ?_
    exact .error
  all_goals
    iterate 7 refine .ite (fun h3 => .ok (encR_of_fields h7 h3 ho) rfl) fun _ => ?_
    exact .ok (encR_of_fields h7 (by bv_omega) ho) rfl

theorem faithful_decodeAmo (ho : fOpcode w = 0b0101111#7) : Faithful w (decodeAmo w) := by
  unfold decodeAmo
  refine .ite (fun _ => .error) fun h3 => ?_
  rw [not_not] at h3
  refine .ite (fun h5 => .ite (fun h2 => .ok ?_ rfl) fun _ => .error) fun _ => ?_
  · rw [encode, ← h2]
    exact encAmo_of_fields h5 h3 ho
  · iterate 10 refine .ite (fun h5 => .ok (encAmo_of_fields h5 h3 ho) rfl) fun _ => ?_
    exact .error

theorem faithful_decodeMiscMem (ho : fOpcode w = 0b0001111#7) : Faithful w (decodeMiscMem w) := by
  refine .ite (fun h3 => .ok ?_ rfl) fun _ => .ite (fun h3 => .ok (encI_of_fields h3 ho) rfl) fun _ => .error
  rw [encode, ← h3, ← ho]
  exact encFence_fields w

theorem faithful_decodeSystem (ho : fOpcode w = 0b1110011#7) : Faithful w (decodeSystem w) := by
  unfold decodeSystem
  iterate 6 refine .ite (fun h3 => .ok (encI_of_fields h3 ho) rfl) fun _ => ?_
  iterate 3 refine .ite (fun hw => .ok hw.symm rfl) fun _ => ?_
  exact .error

theorem faithful_decodeWord (w : Word) : Faithful w (decodeWord w) := by
  unfold decodeWord
  refine .ite (fun ho => .ok (encU_of_opcode ho) rfl) fun _ => ?_
  refine .ite (fun ho => .ok (encU_of_opcode ho) rfl) fun _ => ?_
  refine .ite (fun ho => .ok (encJ_of_opcode ho) (even_fImmJ w)) fun _ => ?_
  refine .ite (fun ho => .ite (fun h3 => .ok (encI_of_fields h3 ho) rfl) fun _ => .error) fun _ => ?_
  refine .ite faithful_decodeBranch fun _ => .ite faithful_decodeLoad fun _ => .ite faithful_decodeStore fun _ => ?_
  refine .ite faithful_decodeOpImm fun _ => .ite faithful_decodeOp fun _ => .ite faithful_decodeAmo fun _ => ?_
  exact .ite faithful_decodeMiscMem fun _ => .ite faithful_decodeSystem fun _ => .error

end

/-- Settles O2: each branch of the decoder puts the word together again from its fields. -/
theorem encodeDecodeRoundTrip : Obligations.EncodeDecodeRoundTrip :=
  faithful_decodeWord

/-! ## The rows of the opcode table -/

open Laws in
/-- The word of an instruction is a word of its row. -/
theorem encode_mem_row : ∀ i : Instr, Encoding.Statement i
  | .lui .. => Encoding.lui .. | .auipc .. => Encoding.auipc .. | .jal .. => Encoding.jal ..
  | .jalr .. => Encoding.jalr .. | .beq .. => Encoding.beq .. | .bne .. => Encoding.bne .. | .blt .. => Encoding.blt ..
  | .bge .. => Encoding.bge .. | .bltu .. => Encoding.bltu .. | .bgeu .. => Encoding.bgeu .. | .lb .. => Encoding.lb ..
  | .lh .. => Encoding.lh .. | .lw .. => Encoding.lw .. | .lbu .. => Encoding.lbu .. | .lhu .. => Encoding.lhu ..
  | .sb .. => Encoding.sb .. | .sh .. => Encoding.sh .. | .sw .. => Encoding.sw .. | .addi .. => Encoding.addi ..
  | .slti .. => Encoding.slti .. | .sltiu .. => Encoding.sltiu .. | .xori .. => Encoding.xori ..
  | .ori .. => Encoding.ori .. | .andi .. => Encoding.andi .. | .slli .. => Encoding.slli ..
  | .srli .. => Encoding.srli .. | .srai .. => Encoding.srai .. | .add .. => Encoding.add ..
  | .sub .. => Encoding.sub .. | .sll .. => Encoding.sll .. | .slt .. => Encoding.slt .. | .sltu .. => Encoding.sltu ..
  | .xor .. => Encoding.xor .. | .srl .. => Encoding.srl .. | .sra .. => Encoding.sra .. | .or .. => Encoding.or ..
  | .and .. => Encoding.and .. | .fence .. => Encoding.fence .. | .fenceI .. => Encoding.fenceI ..
  | .ecall => Encoding.ecall | .ebreak => Encoding.ebreak | .mul .. => Encoding.mul .. | .mulh .. => Encoding.mulh ..
  | .mulhsu .. => Encoding.mulhsu .. | .mulhu .. => Encoding.mulhu .. | .div .. => Encoding.div ..
  | .divu .. => Encoding.divu .. | .rem .. => Encoding.rem .. | .remu .. => Encoding.remu ..
  | .lrW .. => Encoding.lrW .. | .scW .. => Encoding.scW .. | .amoswapW .. => Encoding.amoswapW ..
  | .amoaddW .. => Encoding.amoaddW .. | .amoxorW .. => Encoding.amoxorW .. | .amoandW .. => Encoding.amoandW ..
  | .amoorW .. => Encoding.amoorW .. | .amominW .. => Encoding.amominW .. | .amomaxW .. => Encoding.amomaxW ..
  | .amominuW .. => Encoding.amominuW .. | .amomaxuW .. => Encoding.amomaxuW .. | .csrrw .. => Encoding.csrrw ..
  | .csrrs .. => Encoding.csrrs .. | .csrrc .. => Encoding.csrrc .. | .csrrwi .. => Encoding.csrrwi ..
  | .csrrsi .. => Encoding.csrrsi .. | .csrrci .. => Encoding.csrrci .. | .mret => Encoding.mret

section
variable {w p : Word}

theorem fields_of_row_707F (h : w &&& 0x0000707F#32 = p) : fOpcode w = fOpcode p ∧ fFunct3 w = fFunct3 p :=
  ⟨opcode_of_row h rfl, funct3_of_row h rfl⟩

theorem fields_of_row_FE00707F (h : w &&& 0xFE00707F#32 = p) :
    fOpcode w = fOpcode p ∧ fFunct3 w = fFunct3 p ∧ fFunct7 w = fFunct7 p :=
  ⟨opcode_of_row h rfl, funct3_of_row h rfl, funct7_of_row h rfl⟩

theorem fields_of_row_F800707F (h : w &&& 0xF800707F#32 = p) :
    fOpcode w = fOpcode p ∧ fFunct3 w = fFunct3 p ∧ fFunct5 w = fFunct5 p :=
  ⟨opcode_of_row h rfl, funct3_of_row h rfl, funct5_of_row h rfl⟩

end

/-- A word of a row decodes, to an instruction of that row: the row fixes every field the decoder chooses by. -/
theorem map_tableRow_decodeWord {w : Word} {i : Instr} (h : w &&& (tableRow i).mask = (tableRow i).pattern) :
    (decodeWord w).map tableRow = .ok (tableRow i) := by
  cases i <;> dsimp only [tableRow] at h
  case ecall | ebreak | mret =>
    obtain rfl := BitVec.and_allOnes.symm.trans h
    rfl
  case lui | auipc | jal =>
    have ho := opcode_of_row h rfl
    rw [decodeWord, ho]
    rfl
  case jalr =>
    obtain ⟨ho, h3⟩ := fields_of_row_707F h
    rw [decodeWord, ho, h3]
    rfl
  case beq | bne | blt | bge | bltu | bgeu =>
    obtain ⟨ho, h3⟩ := fields_of_row_707F h
    rw [decodeWord_branch ho, decodeBranch, h3]
    rfl
  case lb | lh | lw | lbu | lhu =>
    obtain ⟨ho, h3⟩ := fields_of_row_707F h
    rw [decodeWord_load ho, decodeLoad, h3]
    rfl
  case sb | sh | sw =>
    obtain ⟨ho, h3⟩ := fields_of_row_707F h
    rw [decodeWord_store ho, decodeStore, h3]
    rfl
  case addi | slti | sltiu | xori | ori | andi =>
    obtain ⟨ho, h3⟩ := fields_of_row_707F h
    rw [decodeWord_opImm ho, decodeOpImm, h3]
    rfl
  case slli | srli | srai =>
    obtain ⟨ho, h3, h7⟩ := fields_of_row_FE00707F h
    rw [decodeWord_opImm ho, decodeOpImm, h3, h7]
    rfl
  case add | sub | sll | slt | sltu | xor | srl | sra | or | and | mul | mulh | mulhsu | mulhu | div | divu | rem | remu =>
    obtain ⟨ho, h3, h7⟩ := fields_of_row_FE00707F h
    rw [decodeWord_op ho, decodeOp, h3, h7]
    rfl
  case fence | fenceI =>
    obtain ⟨ho, h3⟩ := fields_of_row_707F h
    rw [decodeWord_miscMem ho, decodeMiscMem, h3]
    rfl
  case lrW =>
    have ho := opcode_of_row h rfl
    have h3 := funct3_of_row h rfl
    have h5 := funct5_of_row h rfl
    have h2 := rs2_of_row h rfl
    rw [decodeWord_amo ho, decodeAmo, h3, h5, h2]
    rfl
  case scW | amoswapW | amoaddW | amoxorW | amoandW | amoorW | amominW | amomaxW | amominuW | amomaxuW =>
    obtain ⟨ho, h3, h5⟩ := fields_of_row_F800707F h
    rw [decodeWord_amo ho, decodeAmo, h3, h5]
    rfl
  case csrrw | csrrs | csrrc | csrrwi | csrrsi | csrrci =>
    obtain ⟨ho, h3⟩ := fields_of_row_707F h
    rw [decodeWord_system ho, decodeSystem, h3]
    rfl

theorem exists_decodeWord_of_row {w : Word} {i : Instr} (h : w &&& (tableRow i).mask = (tableRow i).pattern) :
    ∃ j, decodeWord w = .ok j ∧ tableRow j = tableRow i := by
  have hr := map_tableRow_decodeWord h
  cases hd : decodeWord w with
  | error e =>
    rw [hd] at hr
    cases hr
  | ok j =>
    rw [hd] at hr
    exact ⟨j, rfl, Except.ok.inj hr⟩

/-- A word that decodes is one of the row of its instruction. -/
theorem row_of_decodeWord {w : Word} {i : Instr} (h : decodeWord w = .ok i) :
    w &&& (tableRow i).mask = (tableRow i).pattern :=
  (faithful_decodeWord w i h).1 ▸ encode_mem_row i

/-- Settles O3: a word that decodes is the word of its instruction, hence one of that row; the other way, a row fixes the
fields by which the decoder chooses. -/
theorem decoderIsTheOpcodeTable : Obligations.DecoderIsTheOpcodeTable :=
  ⟨fun _ _ => row_of_decodeWord, fun _ _ => exists_decodeWord_of_row⟩

/-! ## Words of no row (R118, R342) -/

theorem decodeWord_error_iff {w : Word} :
    (∃ e, decodeWord w = .error e) ↔ ∀ i : Instr, w &&& (tableRow i).mask ≠ (tableRow i).pattern := by
  constructor
  · rintro ⟨e, he⟩ i h
    obtain ⟨j, hj, -⟩ := exists_decodeWord_of_row h
    cases he.symm.trans hj
  · intro h
    cases hd : decodeWord w with
    | error e => exact ⟨e, rfl⟩
    | ok i => exact absurd (row_of_decodeWord hd) (h i)

open Machine in
/-- Settles O6: such a word is the one the decoder refuses, and the step of a refused word is a raise that nothing
precedes. -/
theorem illegalWordsTrap : Obligations.IllegalWordsTrap := by
  refine ⟨fun s u hu hp hw => ?_, decodeWord_error_iff.mp ⟨.badOpcode, rfl⟩, decodeWord_error_iff.mp ⟨.badOpcode, rfl⟩⟩
  obtain ⟨e, he⟩ := decodeWord_error_iff.mpr hw
  exact ⟨_, step_illegal hu hp he, traps_raise u .illegalInstr _ rfl⟩

end Sys2Proof
end

section
/-! Upper immediates and jumps (40_upper_jump R140 to R143): the words the rules write out are the encoder's, the target of JALR,
and the words of JALR's opcode that are of no row; and the example words of the instruction rules. -/

namespace Sys2Proof

/-! ## The words of the rules (R106, R107) -/

theorem evenJump_append_zero (off : BitVec 20) : evenJump (off ++ 0#1) = true := by
  unfold evenJump
  rw [BitVec.getLsbD_append]
  rfl

/-- The encoder cuts an offset of four pieces into these pieces (R107). -/
theorem encJ_append (b20 : BitVec 1) (b19 : BitVec 8) (b11 : BitVec 1) (b10 : BitVec 10) (rd : Reg) (op : BitVec 7) :
    encJ (b20 ++ b19 ++ b11 ++ b10 ++ 0#1) rd op = b20 ++ b10 ++ b11 ++ b19 ++ rd ++ op := by
  unfold encJ
  simp (disch := omega) only [BitVec.extractLsb'_append_eq_of_le, BitVec.extractLsb'_append_eq_of_add_le, Nat.reduceSub,
    BitVec.extractLsb'_eq_self]

theorem decodeWord_lui (rd : Reg) (imm20 : BitVec 20) : decodeWord (imm20 ++ rd ++ 0b0110111#7) = .ok (.lui rd imm20) :=
  decodeEncodeRoundTrip (.lui rd imm20) rfl

theorem decodeWord_auipc (rd : Reg) (imm20 : BitVec 20) : decodeWord (imm20 ++ rd ++ 0b0010111#7) = .ok (.auipc rd imm20) :=
  decodeEncodeRoundTrip (.auipc rd imm20) rfl

theorem decodeWord_jal (rd : Reg) (b20 : BitVec 1) (b19 : BitVec 8) (b11 : BitVec 1) (b10 : BitVec 10) :
    decodeWord (b20 ++ b10 ++ b11 ++ b19 ++ rd ++ 0b1101111#7) = .ok (.jal rd (b20 ++ b19 ++ b11 ++ b10 ++ 0#1)) := by
  rw [← encJ_append]
  exact decodeEncodeRoundTrip (.jal rd _) (evenJump_append_zero _)

theorem decodeWord_jalr (rd rs1 : Reg) (imm : BitVec 12) :
    decodeWord (imm ++ rs1 ++ 0b000#3 ++ rd ++ 0b1100111#7) = .ok (.jalr rd rs1 imm) :=
  decodeEncodeRoundTrip (.jalr rd rs1 imm) rfl

theorem decodeWord_badJalr {w : Word} (ho : fOpcode w = 0b1100111#7) (h3 : fFunct3 w ≠ 0b000#3) :
    decodeWord w = .error .badJalr := by
  simp [decodeWord, ho, h3]

/-- Settles O4: fifteen closed words, each read by running the decoder. -/
theorem specWordsDecode : Obligations.SpecWordsDecode := by
  unfold Obligations.SpecWordsDecode
  decide

end Sys2Proof

namespace Sys2Proof.Machine

/-! ## What the instructions do (R140 to R143) -/

theorem exec_lui (rd : Reg) (imm20 : BitVec 20) (s : State) :
    exec (.lui rd imm20) s = .next (s.writeBack rd (imm20 ++ 0#12)) := rfl

theorem exec_auipc (rd : Reg) (imm20 : BitVec 20) (s : State) :
    exec (.auipc rd imm20) s = .next (s.writeBack rd (s.pc + (imm20 ++ 0#12))) := rfl

/-- By `rfl`: a sign extension is the immediate's integer value in 32 bits. -/
theorem exec_jal (rd : Reg) (off : BitVec 21) (s : State) :
    exec (.jal rd off) s = .next ((s.setReg rd (s.pc + 4#32)).goTo (s.pc + BitVec.ofInt 32 off.toInt)) := rfl

/-- The mask of R143 clears bit 0 and keeps bits 31 to 1. -/
theorem and_clear_bit_zero (x : Word) : x &&& 0xFFFFFFFE#32 = x.extractLsb' 1 31 ++ 0#1 := by
  apply BitVec.eq_of_getLsbD_eq
  intro i hi
  rw [BitVec.getLsbD_and, BitVec.getLsbD_append, BitVec.getLsbD_extractLsb']
  interval_cases i <;> simp

theorem exec_jalr (rd rs1 : Reg) (imm : BitVec 12) (s : State) :
    exec (.jalr rd rs1 imm) s = .next ((s.setReg rd (s.pc + 4#32)).goTo
      ((s.getReg rs1 + BitVec.ofInt 32 imm.toInt).extractLsb' 1 31 ++ 0#1)) := by
  rw [← and_clear_bit_zero]
  rfl

/-- Settles O27: both write back a value and go on. -/
theorem upperImmediates : Obligations.UpperImmediates := fun s rd imm20 =>
  ⟨computes_writeBack (decodeWord_lui rd imm20) (exec_lui rd imm20 s),
    computes_writeBack (decodeWord_auipc rd imm20) (exec_auipc rd imm20 s)⟩

/-- Settles O28: both link and go to their target, JALR's computed from the registers before the link is written; the decoder
refuses the other words of JALR's opcode. -/
theorem jumps : Obligations.Jumps := by
  refine ⟨fun s rd b20 b19 b11 b10 => ?jal, fun s rd rs1 imm => ?jalr, fun w i ho h3 hd => ?illegal⟩
  case jal => exact computes_link (decodeWord_jal rd b20 b19 b11 b10) (exec_jal rd _ s)
  case jalr => exact computes_link (decodeWord_jalr rd rs1 imm) (exec_jalr rd rs1 imm s)
  case illegal => cases (decodeWord_badJalr ho h3).symm.trans hd

end Sys2Proof.Machine
end

section
/-! Conditional branches (41_branch R160 to R166): the word the rules write out is the encoder's, one rule for the six branches, and the
words of the BRANCH opcode that are of no row. -/

namespace Sys2Proof

/-! ## The words of the rules (R106, R107) -/

theorem evenBranch_append_zero (off : BitVec 12) : evenBranch (off ++ 0#1) = true := by
  unfold evenBranch
  rw [BitVec.getLsbD_append]
  rfl

/-- The encoder cuts an offset of four pieces into these pieces (R107). -/
theorem encB_append (b12 b11 : BitVec 1) (b10 : BitVec 6) (b4 : BitVec 4) (rs2 rs1 : Reg) (f3 : BitVec 3) (op : BitVec 7) :
    encB (b12 ++ b11 ++ b10 ++ b4 ++ 0#1) rs2 rs1 f3 op = b12 ++ b10 ++ rs2 ++ rs1 ++ f3 ++ b4 ++ b11 ++ op := by
  unfold encB
  simp (disch := omega) only [BitVec.extractLsb'_append_eq_of_le, BitVec.extractLsb'_append_eq_of_add_le, Nat.reduceSub,
    BitVec.extractLsb'_eq_self]

theorem decodeWord_badBranch {w : Word} (ho : fOpcode w = 0b1100011#7) (h3 : fFunct3 w = 0b010#3 ∨ fFunct3 w = 0b011#3) :
    decodeWord w = .error .badBranch := by
  rw [decodeWord_branch ho, decodeBranch]
  rcases h3 with h3 | h3 <;> simp [h3]

end Sys2Proof

namespace Sys2Proof.Machine

/-! ## The conditions (R161 to R166) -/

theorem ltS_iff {a b : Word} : ltS a b = true ↔ a.toInt < b.toInt := by simp [ltS]

theorem not_ltS_iff {a b : Word} : (!ltS a b) = true ↔ b.toInt ≤ a.toInt := by simp [ltS]

theorem ltU_iff {a b : Word} : ltU a b = true ↔ a.toNat < b.toNat := by simp [ltU]

theorem not_ltU_iff {a b : Word} : (!ltU a b) = true ↔ b.toNat ≤ a.toNat := by simp [ltU]

/-! ## What the branches do (R160) -/

/-- A branch goes to one of two addresses and does nothing else. -/
theorem branchIf_of_iff {b : Bool} {p : Prop} [Decidable p] (h : b = true ↔ p) (off : BitVec 13) (s : State) :
    branchIf b off s = .next (s.goTo (if p then s.pc + BitVec.ofInt 32 off.toInt else s.pc + 4#32)) := by
  by_cases hp : p
  · rw [if_pos hp, h.mpr hp]
    rfl
  · rw [if_neg hp, Bool.eq_false_iff.mpr (mt h.mp hp)]
    rfl

/-- An instruction that has the word of a branch and runs as one proceeds as R160 says. -/
theorem proceeds_branch {i : Instr} {s : State} {rs1 rs2 : Reg} {b12 b11 : BitVec 1} {b10 : BitVec 6} {b4 : BitVec 4}
    {f3 : BitVec 3} {b : Bool} {p : Prop} [Decidable p]
    (henc : encode i = encB (b12 ++ b11 ++ b10 ++ b4 ++ 0#1) rs2 rs1 f3 0b1100011#7)
    (hwf : i.wellFormed = evenBranch (b12 ++ b11 ++ b10 ++ b4 ++ 0#1))
    (hexec : exec i s = branchIf b (b12 ++ b11 ++ b10 ++ b4 ++ 0#1) s) (hb : b = true ↔ p) :
    Proceeds (b12 ++ b10 ++ rs2 ++ rs1 ++ f3 ++ b4 ++ b11 ++ 0b1100011#7) i s
      (if p then s.pc + BitVec.ofInt 32 (b12 ++ b11 ++ b10 ++ b4 ++ 0#1 : BitVec 13).toInt else s.pc + 4#32) := by
  rw [← encB_append, ← henc]
  exact proceeds_goTo (decodeEncodeRoundTrip i (hwf.trans (evenBranch_append_zero _)))
    (hexec.trans (branchIf_of_iff hb _ s))

/-- Settles O29: the six differ only in their condition, whose Boolean decides the relation of the rule; the decoder refuses the two
values of funct3 that are left. -/
theorem branches : Obligations.Branches := by
  refine ⟨fun s rs1 rs2 b12 b11 b10 b4 => ⟨?beq, ?bne, ?blt, ?bge, ?bltu, ?bgeu⟩, fun w i ho h3 hd => ?illegal⟩
  case beq => exact proceeds_branch rfl rfl rfl beq_iff_eq
  case bne => exact proceeds_branch rfl rfl rfl bne_iff_ne
  case blt => exact proceeds_branch rfl rfl rfl ltS_iff
  case bge => exact proceeds_branch rfl rfl rfl not_ltS_iff
  case bltu => exact proceeds_branch rfl rfl rfl ltU_iff
  case bgeu => exact proceeds_branch rfl rfl rfl not_ltU_iff
  case illegal => cases (decodeWord_badBranch ho h3).symm.trans hd

end Sys2Proof.Machine
end

section
/-! Loads and stores (42_load_store R180 to R188): the word the rules write out for a store is the encoder's, what a read of RAM gives
under each extension, and one rule for the five loads and one for the three stores. -/

namespace Sys2Proof

/-- The encoder cuts an offset of two pieces into these pieces (R104). -/
theorem encS_append (hi : BitVec 7) (lo : BitVec 5) (rs2 rs1 : Reg) (f3 : BitVec 3) (op : BitVec 7) :
    encS (hi ++ lo) rs2 rs1 f3 op = hi ++ rs2 ++ rs1 ++ f3 ++ lo ++ op := by
  unfold encS
  simp (disch := omega) only [BitVec.extractLsb'_append_eq_of_le, BitVec.extractLsb'_append_eq_of_add_le, Nat.reduceSub,
    BitVec.extractLsb'_eq_self]

end Sys2Proof

namespace Sys2Proof.Machine

/-! ## After the access (R69, R70) -/

/-- An instruction that has changed RAM or the devices only, and then writes back, follows its access. -/
theorem follows_writeBack (s : State) (m : Mem) (g : Aggregator) (ut : Uart) (d : Nat) (rd : Reg) (v : Word) :
    Follows s { s with mem := m, agg := g, uart := ut, draws := d }
      (State.writeBack { s with mem := m, agg := g, uart := ut, draws := d } rd v) :=
  ⟨by simp, by simp, by simp, by simp, by simp [SameCsrs], by simp [SameControl], by simp, retired_writeBack _ rd v⟩

/-- So does one that writes no register. -/
theorem follows_advance (s : State) (m : Mem) (g : Aggregator) (ut : Uart) (d : Nat) :
    Follows s { s with mem := m, agg := g, uart := ut, draws := d }
      (State.advance { s with mem := m, agg := g, uart := ut, draws := d }) :=
  ⟨by simp, by simp, by simp, by simp, by simp [SameCsrs], by simp [SameControl], by simp, retired_advance _⟩

/-! ## Loads (R180 to R185) -/

section

variable {word : Word} {i : Instr} {s u : State} {rd rs1 rs2 : Reg} {imm : BitVec 12} {a v : Word} {w : Width}
  {ext : Word → Word}

theorem loadWith_some (ha : a = s.getReg rs1 + imm12 imm) (h : s.memRead a w = some (v, u)) :
    loadWith w ext rd rs1 imm s = .next (u.writeBack rd (ext v)) := by
  subst ha
  simp only [loadWith, h]

theorem loadWith_none (ha : a = s.getReg rs1 + imm12 imm) (h : s.memRead a w = none) :
    loadWith w ext rd rs1 imm s = .next (s.raise .loadAccessFault a) := by
  subst ha
  simp only [loadWith, h]

/-- An instruction that has the word of a load and runs as one loads as R180 says, from wherever its address lies; `value` is the
extension of what a read of RAM gives. -/
theorem loads_of_loadWith {value : Word} (hd : decodeWord word = .ok i) (hexec : exec i s = loadWith w ext rd rs1 imm s)
    (ha : a = s.getReg rs1 + imm12 imm) (hvalue : ext (BitVec.ofNat 32 (Mem.readLE s.mem a.toNat (bytesOf w))) = value) :
    Loads word i s rd a w value ext := by
  subst hvalue
  refine ⟨fun hin => ?ram, fun hno => ?refused, fun v u _ hr => ?device⟩
  case ram => exact computes_writeBack hd (hexec.trans (loadWith_some ha (s.memRead_inRam hin)))
  case refused =>
    exact ⟨hd, _, hexec.trans (loadWith_none ha (State.memRead_refused hno)), traps_raise s .loadAccessFault a rfl⟩
  case device =>
    have hx := hexec.trans (loadWith_some ha hr)
    obtain ⟨g, ut, d, rfl⟩ := State.memRead_frame hr
    exact ⟨_, hx, regWritten_writeBack _ rd (ext v), follows_writeBack s s.mem g ut d rd (ext v), by simp⟩

/-! ## Stores (R180, R186 to R188) -/

theorem storeWith_some (ha : a = s.getReg rs1 + imm12 imm) (h : s.memWrite a w (s.getReg rs2) = some u) :
    storeWith w rs1 rs2 imm s = .next u.advance := by
  subst ha
  simp only [storeWith, h]

theorem storeWith_none (ha : a = s.getReg rs1 + imm12 imm) (h : s.memWrite a w (s.getReg rs2) = none) :
    storeWith w rs1 rs2 imm s = .next (s.raise .storeAccessFault a) := by
  subst ha
  simp only [storeWith, h]

/-- An instruction that has the word of a store and runs as one stores as R180 says, to wherever its address lies. -/
theorem storesAt_of_storeWith (hd : decodeWord word = .ok i) (hexec : exec i s = storeWith w rs1 rs2 imm s)
    (ha : a = s.getReg rs1 + imm12 imm) : StoresAt word i s a w (s.getReg rs2) := by
  refine ⟨fun hin => ?ram, fun hno => ?refused, fun u _ hw => ?device⟩
  case ram =>
    exact ⟨hd, _, hexec.trans (storeWith_inRam ha.symm hin), stored_writeLE _ _ _ _ _ (State.advance_mem _),
      State.advance_getReg _, by simp, retired_advance _, by simp [Quiet, SameCsrs, SameDevices, SameControl]⟩
  case refused =>
    exact ⟨hd, _, hexec.trans (storeWith_none ha (State.memWrite_refused _ hno)), traps_raise s .storeAccessFault a rfl⟩
  case device =>
    have hx := hexec.trans (storeWith_some ha hw)
    obtain ⟨m, g, ut, d, rfl⟩ := State.memWrite_frame hw
    exact ⟨_, hx, State.advance_getReg _, follows_advance s m g ut d, by simp⟩

end

/-! ## What a read of RAM gives under the extensions (R74, R181 to R185) -/

theorem lowByte_readLE (s : State) (a : Word) :
    (BitVec.ofNat 32 (Mem.readLE s.mem a.toNat 1)).extractLsb' 0 8 = byteAt s a 0 := by
  rw [Mem.ofNat_readLE_one, BitVec.extractLsb'_append_eq_right]
  rfl

theorem append_half (hi lo : Byte) : 0#16 ++ hi ++ lo = 0#16 ++ (hi ++ lo) := by
  rw [BitVec.append_assoc, BitVec.cast_eq]

theorem lowHalf_readLE (s : State) (a : Word) :
    (BitVec.ofNat 32 (Mem.readLE s.mem a.toNat 2)).extractLsb' 0 16 = byteAt s a 1 ++ byteAt s a 0 := by
  rw [Mem.ofNat_readLE_two, append_half]
  exact BitVec.extractLsb'_append_eq_right

/-- A zero extension puts zeros before the byte. -/
theorem exec_lbu (rd rs1 : Reg) (imm : BitVec 12) (s : State) :
    exec (.lbu rd rs1 imm) s = loadWith .byte (fun v => 0#24 ++ v.extractLsb' 0 8) rd rs1 imm s :=
  congrArg (loadWith .byte · rd rs1 imm s) (funext fun _ => BitVec.setWidth_eq_append (by decide))

/-- Or before the halfword. -/
theorem exec_lhu (rd rs1 : Reg) (imm : BitVec 12) (s : State) :
    exec (.lhu rd rs1 imm) s = loadWith .half (fun v => 0#16 ++ v.extractLsb' 0 16) rd rs1 imm s :=
  congrArg (loadWith .half · rd rs1 imm s) (funext fun _ => BitVec.setWidth_eq_append (by decide))

/-- Settles O30: the five differ in their width and in the extension of the bytes read. -/
theorem loadInstructions : Obligations.LoadInstructions := by
  intro s rd rs1 imm a ha
  have hbyte := lowByte_readLE s a
  have hhalf := lowHalf_readLE s a
  refine ⟨?lb, ?lh, ?lw, ?lbu, ?lhu⟩
  case lb =>
    exact loads_of_loadWith (decodeEncodeRoundTrip (.lb rd rs1 imm) rfl) rfl ha (congrArg (BitVec.signExtend 32) hbyte)
  case lh =>
    exact loads_of_loadWith (decodeEncodeRoundTrip (.lh rd rs1 imm) rfl) rfl ha (congrArg (BitVec.signExtend 32) hhalf)
  case lw =>
    exact loads_of_loadWith (decodeEncodeRoundTrip (.lw rd rs1 imm) rfl) rfl ha (Mem.ofNat_readLE_four _ _)
  case lbu =>
    exact loads_of_loadWith (decodeEncodeRoundTrip (.lbu rd rs1 imm) rfl) (exec_lbu rd rs1 imm s) ha
      (congrArg (0#24 ++ ·) hbyte)
  case lhu =>
    exact loads_of_loadWith (decodeEncodeRoundTrip (.lhu rd rs1 imm) rfl) (exec_lhu rd rs1 imm s) ha
      ((congrArg (0#16 ++ ·) hhalf).trans (append_half _ _).symm)

/-- Settles O31: the three differ in their width. -/
theorem storeInstructions : Obligations.StoreInstructions := by
  intro s rs1 rs2 hi lo a ha
  simp only [← encS_append]
  exact ⟨storesAt_of_storeWith (decodeEncodeRoundTrip (.sb rs1 rs2 (hi ++ lo)) rfl) rfl ha,
    storesAt_of_storeWith (decodeEncodeRoundTrip (.sh rs1 rs2 (hi ++ lo)) rfl) rfl ha,
    storesAt_of_storeWith (decodeEncodeRoundTrip (.sw rs1 rs2 (hi ++ lo)) rfl) rfl ha⟩

end Sys2Proof.Machine
end

section
/-! Register-immediate arithmetic (43_imm_arith R200 to R209): the integer results of the shifts, the set-if result as a relation of
integers, one rule for instructions that write back, and the shift words that are of no row. -/

namespace Sys2Proof

/-! ## The words of no row (R109, R113) -/

/-- The decoder refuses a shift whose funct7 is not the one its funct3 allows. -/
theorem decodeWord_badShift {w : Word} (ho : fOpcode w = 0b0010011#7)
    (h : (fFunct3 w = 0b001#3 ∧ fFunct7 w ≠ 0b0000000#7) ∨
      (fFunct3 w = 0b101#3 ∧ fFunct7 w ≠ 0b0000000#7 ∧ fFunct7 w ≠ 0b0100000#7)) :
    decodeWord w = .error .badShift := by
  rw [decodeWord_opImm ho, decodeOpImm]
  obtain ⟨h3, h7⟩ | ⟨h3, h7, h7'⟩ := h
  · simp [h3, h7]
  · simp [h3, h7, h7']

end Sys2Proof

namespace Sys2Proof.Machine

/-! ## Results as integers (R200 to R203, R207 to R209) -/

/-- Overflow wraps modulo 2^32 (R200). -/
theorem add_eq_ofInt (a b : Word) : a + b = BitVec.ofInt 32 (a.toInt + b.toInt) := by
  rw [BitVec.ofInt_add, BitVec.ofInt_toInt, BitVec.ofInt_toInt]

/-- Sign extension keeps the immediate's integer value (R103). -/
theorem toInt_imm12 (imm : BitVec 12) : (imm12 imm).toInt = imm.toInt :=
  BitVec.toInt_signExtend_of_le (by decide)

/-- A set-if result is 1 where its relation holds (R202). -/
theorem boolWord_of_iff {b : Bool} {p : Prop} [Decidable p] (h : b = true ↔ p) : boolWord b = if p then 1#32 else 0#32 :=
  if_congr h rfl rfl

theorem shiftLeft_eq_ofNat (a : Word) (n : Nat) : a <<< n = BitVec.ofNat 32 (a.toNat * 2 ^ n) := by
  rw [← Nat.shiftLeft_eq]
  rfl

theorem ushiftRight_eq_ofNat (a : Word) (n : Nat) : a >>> n = BitVec.ofNat 32 (a.toNat / 2 ^ n) := by
  rw [← Nat.shiftRight_eq_div_pow, ← BitVec.toNat_ushiftRight, BitVec.ofNat_toNat, BitVec.setWidth_eq]

/-- An arithmetic shift rounds towards minus infinity, as the quotient of integers by a positive number does. -/
theorem sshiftRight_eq_ofInt (a : Word) (n : Nat) : a.sshiftRight n = BitVec.ofInt 32 (a.toInt / 2 ^ n) := by
  rw [BitVec.sshiftRight, Int.shiftRight_eq_div_pow, Nat.cast_pow, Nat.cast_ofNat]

/-! ## What the instructions do (R201 to R209) -/

/-- An instruction that writes back `v` computes `v`, at the word the encoder gives it. -/
theorem computes_encode (i : Instr) {s : State} {rd : Reg} {v v' : Word} (hwf : i.wellFormed = true)
    (hexec : exec i s = .next (s.writeBack rd v)) (hv : v = v') : Computes (encode i) i s rd v' (s.pc + 4#32) := by
  subst hv
  exact computes_writeBack (decodeEncodeRoundTrip i hwf) hexec

/-- Settles O43: the nine differ only in the value they write back; the decoder refuses the other shift words. -/
theorem immediateArithmetic : Obligations.ImmediateArithmetic := by
  refine ⟨fun s rd rs1 imm => ⟨?addi, ?slti, ?sltiu, ?xori, ?ori, ?andi⟩, fun s rd rs1 shamt => ⟨?slli, ?srli, ?srai⟩,
    fun w i ho hs hd => ?illegal⟩
  case addi => exact computes_encode (.addi rd rs1 imm) rfl rfl (toInt_imm12 imm ▸ add_eq_ofInt _ _)
  case slti => exact computes_encode (.slti rd rs1 imm) rfl rfl (boolWord_of_iff (toInt_imm12 imm ▸ ltS_iff))
  case sltiu => exact computes_encode (.sltiu rd rs1 imm) rfl rfl (boolWord_of_iff ltU_iff)
  case xori => exact computes_encode (.xori rd rs1 imm) rfl rfl rfl
  case ori => exact computes_encode (.ori rd rs1 imm) rfl rfl rfl
  case andi => exact computes_encode (.andi rd rs1 imm) rfl rfl rfl
  case slli => exact computes_encode (.slli rd rs1 shamt) rfl rfl (shiftLeft_eq_ofNat _ _)
  case srli => exact computes_encode (.srli rd rs1 shamt) rfl rfl (ushiftRight_eq_ofNat _ _)
  case srai => exact computes_encode (.srai rd rs1 shamt) rfl rfl (sshiftRight_eq_ofInt _ _)
  case illegal => cases (decodeWord_badShift ho hs).symm.trans hd

end Sys2Proof.Machine
end

section
/-! Register-register arithmetic (44_op_arith R220 to R230): subtraction as integers, and the register shift amount as a remainder
modulo 32; the other results are those of the immediate forms. -/

namespace Sys2Proof.Machine

/-- Overflow wraps modulo 2^32 (R222). -/
theorem sub_eq_ofInt (a b : Word) : a - b = BitVec.ofInt 32 (a.toInt - b.toInt) := by
  rw [Int.sub_eq_add_neg, BitVec.ofInt_add, BitVec.ofInt_neg, BitVec.ofInt_toInt, BitVec.ofInt_toInt, BitVec.sub_eq_add_neg]

/-- The low five bits of a register are its value modulo 32 (R220). -/
theorem toNat_shiftAmount (b : Word) : (shiftAmount b).toNat = b.toNat % 32 := by
  rw [shiftAmount, BitVec.extractLsb'_toNat, Nat.shiftRight_zero]

/-- Settles O44: the ten differ only in the value they write back. -/
theorem registerArithmetic : Obligations.RegisterArithmetic := by
  intro s rd rs1 rs2
  rw [← toNat_shiftAmount (s.getReg rs2)]
  refine ⟨?add, ?sub, ?sll, ?slt, ?sltu, ?xor, ?srl, ?sra, ?or, ?and⟩
  case add => exact computes_encode (.add rd rs1 rs2) rfl rfl (add_eq_ofInt _ _)
  case sub => exact computes_encode (.sub rd rs1 rs2) rfl rfl (sub_eq_ofInt _ _)
  case sll => exact computes_encode (.sll rd rs1 rs2) rfl rfl (shiftLeft_eq_ofNat _ _)
  case slt => exact computes_encode (.slt rd rs1 rs2) rfl rfl (boolWord_of_iff ltS_iff)
  case sltu => exact computes_encode (.sltu rd rs1 rs2) rfl rfl (boolWord_of_iff ltU_iff)
  case xor => exact computes_encode (.xor rd rs1 rs2) rfl rfl rfl
  case srl => exact computes_encode (.srl rd rs1 rs2) rfl rfl (ushiftRight_eq_ofNat _ _)
  case sra => exact computes_encode (.sra rd rs1 rs2) rfl rfl (sshiftRight_eq_ofInt _ _)
  case or => exact computes_encode (.or rd rs1 rs2) rfl rfl rfl
  case and => exact computes_encode (.and rd rs1 rs2) rfl rfl rfl

end Sys2Proof.Machine
end

section
/-! Multiply and divide (45_muldiv R240 to R249): the halves of a product as pieces of a 64-bit word, quotients and remainders of
integers as those of words, and the laws that tie the two together. -/

namespace Sys2Proof.Machine

/-! ## Products (R241 to R244) -/

/-- The high half of an exact product is a piece of its 64-bit word: `>> 32` is floor division by 2^32. -/
theorem trunc32_highHalf (i : Int) : trunc32 (i / 2 ^ 32) = (BitVec.ofInt 64 i).extractLsb' 32 32 := by
  apply BitVec.eq_of_toNat_eq
  rw [trunc32, BitVec.toNat_ofInt, BitVec.extractLsb'_toNat, BitVec.toNat_ofInt, Nat.shiftRight_eq_div_pow]
  omega

/-- Sign extension to 64 bits is `ofInt` of the signed value, so the product of the extensions is that of the integers. -/
theorem mulh_eq_highHalf (a b : Word) :
    trunc32 (a.toInt * b.toInt / 2 ^ 32) = (a.signExtend 64 * b.signExtend 64).extractLsb' 32 32 := by
  rw [trunc32_highHalf, BitVec.ofInt_mul]
  rfl

/-- Zero extension is `ofInt` of the unsigned value. -/
theorem zeroExtend_eq_ofInt (b : Word) : b.zeroExtend 64 = BitVec.ofInt 64 b.toNat := by
  rw [BitVec.ofInt_natCast, BitVec.ofNat_toNat]

theorem mulhsu_eq_highHalf (a b : Word) :
    trunc32 (a.toInt * (b.toNat : Int) / 2 ^ 32) = (a.signExtend 64 * b.zeroExtend 64).extractLsb' 32 32 := by
  rw [trunc32_highHalf, BitVec.ofInt_mul, zeroExtend_eq_ofInt]
  rfl

theorem mulhu_eq_highHalf (a b : Word) :
    BitVec.ofNat 32 (a.toNat * b.toNat / 2 ^ 32) = (a.zeroExtend 64 * b.zeroExtend 64).extractLsb' 32 32 := by
  rw [zeroExtend_eq_ofInt, zeroExtend_eq_ofInt, ← BitVec.ofInt_mul, ← trunc32_highHalf]
  rfl

/-- The low half is the product of words (R241). -/
theorem trunc32_mul (a b : Word) : trunc32 (a.toInt * b.toInt) = a * b := by
  rw [trunc32, BitVec.ofInt_mul, BitVec.ofInt_toInt, BitVec.ofInt_toInt]

/-- Settles O45: the four differ only in the half of which product they write back. -/
theorem multiplication : Obligations.Multiplication := by
  refine fun s rd rs1 rs2 => ⟨?mul, ?mulh, ?mulhsu, ?mulhu⟩
  case mul => exact computes_encode (.mul rd rs1 rs2) rfl rfl (trunc32_mul _ _)
  case mulh => exact computes_encode (.mulh rd rs1 rs2) rfl rfl (mulh_eq_highHalf _ _)
  case mulhsu => exact computes_encode (.mulhsu rd rs1 rs2) rfl rfl (mulhsu_eq_highHalf _ _)
  case mulhu => exact computes_encode (.mulhu rd rs1 rs2) rfl rfl (mulhu_eq_highHalf _ _)

/-! ## Quotients and remainders (R245 to R249) -/

/-- Both sides wrap the integer quotient modulo 2^32. -/
theorem trunc32_tdiv (a b : Word) : trunc32 (a.toInt.tdiv b.toInt) = a.sdiv b := by
  apply BitVec.eq_of_toInt_eq
  rw [trunc32, BitVec.toInt_ofInt, BitVec.toInt_sdiv]

/-- What the quotient leaves of the dividend is the truncated remainder, which fits a word. -/
theorem trunc32_sub_mul_tdiv (a b : Word) : trunc32 (a.toInt - b.toInt * a.toInt.tdiv b.toInt) = a.srem b := by
  rw [trunc32, ← Int.tmod_def, ← BitVec.toInt_srem, BitVec.ofInt_toInt]

theorem divSigned_eq_sdiv (a b : Word) :
    divSigned a b = if b = 0#32 then 0xFFFFFFFF#32 else if a = 0x80000000#32 ∧ b = 0xFFFFFFFF#32 then 0x80000000#32
      else a.sdiv b := by
  rw [divSigned, trunc32_tdiv, intMin]

theorem remSigned_eq_srem (a b : Word) :
    remSigned a b = if b = 0#32 then a else if a = 0x80000000#32 ∧ b = 0xFFFFFFFF#32 then 0#32 else a.srem b := by
  rw [remSigned, trunc32_sub_mul_tdiv, intMin]

theorem divUnsigned_eq_udiv (a b : Word) : divUnsigned a b = if b = 0#32 then 0xFFFFFFFF#32 else a.udiv b := by
  rw [divUnsigned, BitVec.udiv_eq, BitVec.udiv_def]

theorem remUnsigned_eq_umod (a b : Word) : remUnsigned a b = if b = 0#32 then a else a.umod b := by
  rw [remUnsigned, BitVec.umod_eq, BitVec.umod_def]

/-- Settles O46: the four differ only in the value they write back, and none has a case that traps. -/
theorem division : Obligations.Division := by
  refine fun s rd rs1 rs2 => ⟨?div, ?divu, ?rem, ?remu⟩
  case div => exact computes_encode (.div rd rs1 rs2) rfl rfl (divSigned_eq_sdiv _ _)
  case divu => exact computes_encode (.divu rd rs1 rs2) rfl rfl (divUnsigned_eq_udiv _ _)
  case rem => exact computes_encode (.rem rd rs1 rs2) rfl rfl (remSigned_eq_srem _ _)
  case remu => exact computes_encode (.remu rd rs1 rs2) rfl rfl (remUnsigned_eq_umod _ _)

/-! ## The laws of division (R240) -/

/-- Where signed division has a quotient, the integer it gives is the truncated one: only INT_MIN / -1 wraps. -/
theorem toInt_divSigned {a b : Word} (h0 : b ≠ 0#32) (hov : ¬ (a = 0x80000000#32 ∧ b = 0xFFFFFFFF#32)) :
    (divSigned a b).toInt = a.toInt.tdiv b.toInt := by
  rw [divSigned_eq_sdiv, if_neg h0, if_neg hov]
  exact BitVec.toInt_sdiv_of_ne_or_ne a b (not_and_or.mp hov)

theorem toInt_remSigned {a b : Word} (h0 : b ≠ 0#32) (hov : ¬ (a = 0x80000000#32 ∧ b = 0xFFFFFFFF#32)) :
    (remSigned a b).toInt = a.toInt.tmod b.toInt := by
  rw [remSigned_eq_srem, if_neg h0, if_neg hov, BitVec.toInt_srem]

/-- A remainder of the quotient toward zero that is not 0 has the sign of the dividend. -/
theorem tmod_neg_iff {a b : Int} (h : a.tmod b ≠ 0) : a.tmod b < 0 ↔ a < 0 := by
  have hsign := Int.sign_tmod a b
  rw [if_neg (mt Int.tmod_eq_zero_of_dvd h)] at hsign
  rw [← Int.sign_eq_neg_one_iff_neg, hsign, Int.sign_eq_neg_one_iff_neg]

/-- After an instruction that writes back, a destination that is not x0 holds the value. -/
theorem getReg_of_exec_writeBack {i : Instr} {s t : State} {rd : Reg} {v : Word} (hrd : rd ≠ 0#5)
    (hexec : exec i s = .next (s.writeBack rd v)) (ht : exec i s = .next t) : t.getReg rd = v := by
  cases hexec.symm.trans ht
  rw [State.writeBack_getReg, if_neg hrd, if_pos rfl]

/-- Settles O47: away from the two corner cases, DIV and REM give the truncated quotient and remainder of the integers. -/
theorem divisionLaws : Obligations.DivisionLaws := by
  intro s t u rd rs1 rs2 hrd h0 hov ht hu
  rw [getReg_of_exec_writeBack hrd rfl ht, getReg_of_exec_writeBack hrd rfl hu, ← BitVec.toInt_ne, BitVec.toInt_zero,
    toInt_divSigned h0 hov, toInt_remSigned h0 hov]
  exact ⟨(Int.tdiv_mul_add_tmod _ _).symm, tmod_neg_iff⟩

end Sys2Proof.Machine
end

section
/-! The reservation (46_amo R260 to R263): LR.W sets it, SC.W and a reset clear it, and nothing else touches it. -/

namespace Sys2Proof.Machine

theorem State.memRead_resv {s u : State} {a v : Word} {w : Width} (h : s.memRead a w = some (v, u)) : u.resv = s.resv := by
  obtain ⟨g, ut, d, rfl⟩ := State.memRead_frame h
  rfl

theorem State.memWrite_resv {s u : State} {a v : Word} {w : Width} (h : s.memWrite a w v = some u) : u.resv = s.resv := by
  obtain ⟨m, g, ut, d, rfl⟩ := State.memWrite_frame h
  rfl

theorem resvAfterSc_cases (p : Params) (r : Option Word) : resvAfterSc p r = r ∨ resvAfterSc p r = none := by
  unfold resvAfterSc
  split
  · exact .inr rfl
  · exact .inl rfl

/-- `i` is an LR.W that leaves its address as the reservation, or an SC.W that leaves none. -/
def SetsResv (s t : State) (i : Instr) : Prop :=
  (∃ rd rs1 aq rl, i = .lrW rd rs1 aq rl ∧ t.resv = some (s.getReg rs1)) ∨
  (∃ rd rs1 rs2 aq rl, i = .scW rd rs1 rs2 aq rl ∧ t.resv = none)

/-- What an instruction does to the reservation; a trap of LR.W or SC.W may have set it too (R348). -/
theorem Effect.resv_eq_or_setsResv {i : Instr} {s t : State} (h : Effect s i t) : t.resv = s.resv ∨ SetsResv s t i := by
  cases h with
  | computes | links | goes | traps | csrTraps | returns => exact .inl (by simp)
  | loads _ _ _ _ _ _ hr | modifyTraps _ _ _ _ hr => exact .inl (by simp [State.memRead_resv hr])
  | stores _ _ _ _ _ hw => exact .inl (by simp [State.memWrite_resv hw])
  | modifies _ _ _ _ _ _ _ hr hw => exact .inl (by simp [State.memRead_resv hr, State.memWrite_resv hw])
  | csr _ _ _ _ _ _ _ _ _ hu =>
    obtain ⟨m, e, tv, mc, ms, mp, ca, va, rfl⟩ := hu
    exact .inl (by simp)
  | reserves rd rs1 aq rl v u hi hr => exact .inr (.inl ⟨rd, rs1, aq, rl, hi, by simp⟩)
  | reserveTraps rd rs1 aq rl hi =>
    exact (drawResv_cases s (some (s.getReg rs1))).imp_right fun h => .inl ⟨rd, rs1, aq, rl, hi, h⟩
  | storesIf rd rs1 rs2 aq rl u hi hw =>
    exact (resvAfterSc_cases u.cfg u.resv).imp (fun h => by simpa [State.memWrite_resv hw] using h)
      fun h => .inr ⟨rd, rs1, rs2, aq, rl, hi, by simpa using h⟩
  | storesNot rd rs1 rs2 aq rl hi =>
    exact (resvAfterSc_cases s.cfg s.resv).imp (fun h => by simpa using h)
      fun h => .inr ⟨rd, rs1, rs2, aq, rl, hi, by simpa using h⟩
  | storeIfTraps rd rs1 rs2 aq rl hi =>
    rcases drawResv_cases (s.drawReg rd 0#32) (resvAfterSc s.cfg s.resv) with h | h
    · exact .inl (h.trans (by simp))
    · exact (resvAfterSc_cases s.cfg s.resv).imp h.trans fun h' => .inr ⟨rd, rs1, rs2, aq, rl, hi, h.trans h'⟩

theorem Entered.resv_regs {s u : State} (hu : Entered s u) : u.resv = s.resv ∧ SameRegs s u := by
  cases hu <;> exact ⟨rfl, fun _ => rfl⟩

/-- Settles O14: of the steps, only a reset and an executed LR.W or SC.W touch the reservation. -/
theorem reservationChangesOnlyByLrScReset : Obligations.ReservationChangesOnlyByLrScReset := by
  intro s t h
  cases step_effect h with
  | finishes c he => exact .inl (by rw [completeTrap_eq_raise he, State.raise_resv])
  | resets r hb hh => exact .inr (.inl ⟨hb, ⟨r, hh⟩, rfl⟩)
  | loads | injects | drains | interrupts | idles => exact .inl rfl
  | fetchFaults u hu | illegal u hu => exact .inl ((State.raise_resv _ _ _).trans hu.resv_regs.1)
  | executes u _ i hu hp hd hx =>
    obtain ⟨hresv, hregs⟩ := hu.resv_regs
    rcases (exec_effect hx).resv_eq_or_setsResv with hr | ⟨rd, rs1, aq, rl, rfl, hr⟩ | ⟨rd, rs1, rs2, aq, rl, rfl, hr⟩
    · exact .inl (hr.trans hresv)
    · exact .inr (.inr (.inl ⟨hp, rd, rs1, aq, rl, hd, hregs rs1 ▸ hr⟩))
    · exact .inr (.inr (.inr ⟨hp, rd, rs1, rs2, aq, rl, hd, hr⟩))

end Sys2Proof.Machine
end

section
/-! Atomic memory operations (46_amo R261 to R275): what LR.W, SC.W and the template of R264 do where the access completes, and
where it is refused; the words of LR.W's funct5 that are of no row. -/

namespace Sys2Proof

/-- LR.W has rs2 = 0 (R115). -/
theorem decodeWord_badLr {w : Word} (ho : fOpcode w = 0b0101111#7) (h5 : fFunct5 w = 0b00010#5) (h2 : fRs2 w ≠ 0#5) :
    decodeWord w = .error .badAmo := by
  rw [decodeWord_amo ho, decodeAmo]
  simp [h5, h2]

end Sys2Proof

namespace Sys2Proof.Machine

/-! ## After the access (R261, R262) -/

/-- An instruction that has changed RAM or the devices, and leaves `r` as the reservation, follows its access. -/
theorem follows_writeBack_resv (s : State) (m : Mem) (g : Aggregator) (ut : Uart) (d : Nat) (r : Option Word) (rd : Reg)
    (v : Word) :
    Follows s { s with mem := m, agg := g, uart := ut, draws := d }
      (State.writeBack { s with resv := r, mem := m, agg := g, uart := ut, draws := d } rd v) :=
  ⟨by simp, by simp, by simp, by simp, by simp [SameCsrs], by simp [SameControl], by simp, retired_writeBack _ rd v⟩

/-- Where the access was in RAM, the devices are as they were. -/
theorem Follows.ram_only {s t : State} {m : Mem} (h : Follows s { s with mem := m } t) :
    t.mem = m ∧ SameDevices s t ∧ SameCsrs s t ∧ SameControl s t ∧ t.pc = s.pc + 4#32 ∧ Retired s t := by
  obtain ⟨hm, hg, hut, hd, hcsrs, hctl, hpc, hret⟩ := h
  exact ⟨hm, ⟨hg, hut, hd⟩, hcsrs, hctl, hpc, hret⟩

section

variable {s u u' : State} {rd rs1 rs2 : Reg} {aq rl : BitVec 1} {a v src : Word}

theorem State.memRead_word_inRam (s : State) (h : InRam a 4) : s.memRead a .word = some (wordAt s a, s) :=
  (s.memRead_inRam h).trans (congrArg (fun v => some (v, s)) (Mem.ofNat_readLE_four s.mem a.toNat))

/-! ## LR.W (R261, R265) -/

theorem exec_lrW_of_memRead (ha : a = s.getReg rs1) (h : s.memRead a .word = some (v, u)) :
    ∃ t, exec (.lrW rd rs1 aq rl) s = .next t ∧ RegWritten s t rd v ∧ t.resv = some a ∧ Follows s u t := by
  subst ha
  have hx : exec (.lrW rd rs1 aq rl) s = .next (State.writeBack { u with resv := some (s.getReg rs1) } rd v) := by
    change execLrW rd rs1 aq rl s = _
    simp only [execLrW, h]
  obtain ⟨g, ut, d, rfl⟩ := State.memRead_frame h
  exact ⟨_, hx, regWritten_writeBack _ rd v, by simp, follows_writeBack_resv s s.mem g ut d _ rd v⟩

/-- The reservation is a draw (R348). -/
theorem exec_lrW_of_refused (ha : a = s.getReg rs1) (h : Refused s .read a .word) :
    exec (.lrW rd rs1 aq rl) s = .next ((s.drawResv (some a)).raise .loadAccessFault a) := by
  subst ha
  change execLrW rd rs1 aq rl s = _
  simp only [execLrW, State.memRead_refused h]

/-! ## SC.W (R262, R266) -/

theorem exec_scW_of_memWrite (ha : a = s.getReg rs1) (hr : s.resv = some a)
    (h : s.memWrite a .word (s.getReg rs2) = some u) :
    ∃ t, exec (.scW rd rs1 rs2 aq rl) s = .next t ∧ RegWritten s t rd 0#32 ∧ t.resv = resvAfterSc s.cfg s.resv ∧
      Follows s u t := by
  subst ha
  have hx : exec (.scW rd rs1 rs2 aq rl) s =
      .next (State.writeBack { u with resv := resvAfterSc u.cfg u.resv } rd 0#32) := by
    change execScW rd rs1 rs2 aq rl s = _
    simp only [execScW, hr, if_true, h]
  obtain ⟨m, g, ut, d, rfl⟩ := State.memWrite_frame h
  exact ⟨_, hx, regWritten_writeBack _ rd _, by simp, follows_writeBack_resv s m g ut d _ rd _⟩

theorem exec_scW_of_resv_ne (ha : a = s.getReg rs1) (hr : s.resv ≠ some a) :
    ∃ t, exec (.scW rd rs1 rs2 aq rl) s = .next t ∧ RegWritten s t rd 1#32 ∧ t.resv = resvAfterSc s.cfg s.resv ∧
      Follows s s t := by
  subst ha
  have hx : exec (.scW rd rs1 rs2 aq rl) s =
      .next (State.writeBack { s with resv := resvAfterSc s.cfg s.resv } rd 1#32) := by
    change execScW rd rs1 rs2 aq rl s = _
    simp only [execScW, hr, if_false]
  exact ⟨_, hx, regWritten_writeBack _ rd _, by simp, follows_writeBack_resv s s.mem s.agg s.uart s.draws _ rd _⟩

/-- rd and the reservation are draws (R348). -/
theorem exec_scW_of_refused (ha : a = s.getReg rs1) (hr : s.resv = some a) (h : Refused s .write a .word) :
    exec (.scW rd rs1 rs2 aq rl) s =
      .next (((s.drawReg rd 0#32).drawResv (resvAfterSc s.cfg s.resv)).raise .storeAccessFault a) := by
  subst ha
  change execScW rd rs1 rs2 aq rl s = _
  simp only [execScW, hr, if_true, State.memWrite_refused _ h]

/-! ## The template of R264 -/

/-- What a read does to the devices lets no refused write through. -/
theorem State.memWrite_refused_of_memRead (hr : s.memRead a .word = some (v, u)) (hno : Refused s .write a .word) (x : Word) :
    u.memWrite a .word x = none := by
  obtain ⟨g, ut, d, rfl⟩ := State.memRead_frame hr
  exact State.memWrite_refused x hno

variable {op : Word → Word → Word}

theorem amoWith_of_access (ha : a = s.getReg rs1) (hsrc : src = s.getReg rs2) (hr : s.memRead a .word = some (v, u))
    (hw : u.memWrite a .word (op v src) = some u') : amoWith op rd rs1 rs2 s = .next (u'.writeBack rd v) := by
  subst ha hsrc
  simp only [amoWith, hr, hw]

theorem amoWith_of_read_none (ha : a = s.getReg rs1) (hr : s.memRead a .word = none) :
    amoWith op rd rs1 rs2 s = .next (s.raise .loadAccessFault a) := by
  subst ha
  simp only [amoWith, hr]

/-- rd is a draw (R348). -/
theorem amoWith_of_write_none (ha : a = s.getReg rs1) (hsrc : src = s.getReg rs2)
    (hr : s.memRead a .word = some (v, u)) (hw : u.memWrite a .word (op v src) = none) :
    amoWith op rd rs1 rs2 s = .next ((u.drawReg rd v).raise .storeAccessFault a) := by
  subst ha hsrc
  simp only [amoWith, hr, hw]

/-- An instruction that runs by the template completes where both accesses do. -/
theorem follows_of_amoWith {i : Instr} (hexec : exec i s = amoWith op rd rs1 rs2 s) (ha : a = s.getReg rs1)
    (hsrc : src = s.getReg rs2) (hr : s.memRead a .word = some (v, u)) (hw : u.memWrite a .word (op v src) = some u') :
    ∃ t, exec i s = .next t ∧ RegWritten s t rd v ∧ Follows s u' t ∧ t.resv = s.resv := by
  have hx := hexec.trans (amoWith_of_access ha hsrc hr hw)
  obtain ⟨g, ut, d, rfl⟩ := State.memRead_frame hr
  obtain ⟨m, g', ut', d', rfl⟩ := State.memWrite_frame hw
  exact ⟨_, hx, regWritten_writeBack _ rd v, follows_writeBack s m g' ut' d' rd v, by simp⟩

/-- An instruction that runs by the template is an AMO as R264 says, at the word the encoder gives it; `op` is its operation as the
rules write it. -/
theorem amos_encode (i : Instr) {op' : Word → Word → Word} (hwf : i.wellFormed = true)
    (hop : ∀ x y, op' x y = op x y) (hexec : exec i s = amoWith op' rd rs1 rs2 s) (ha : a = s.getReg rs1)
    (hsrc : src = s.getReg rs2) : Amos (encode i) i s rd a src op := by
  obtain rfl : op' = op := funext₂ hop
  refine ⟨decodeEncodeRoundTrip i hwf, fun hin => ?ram, fun hno => ?readRefused, fun v u hr hno => ?writeRefused,
    fun v u u' hr hw => follows_of_amoWith hexec ha hsrc hr hw⟩
  case ram =>
    obtain ⟨t, hx, hrd, hf, hresv⟩ :=
      follows_of_amoWith hexec ha hsrc (State.memRead_word_inRam s hin) (s.memWrite_inRam (w := .word) _ hin)
    obtain ⟨hm, hdev, hcsrs, hctl, hpc, hret⟩ := hf.ram_only
    exact ⟨t, hx, hrd, stored_writeLE _ _ _ _ _ hm, hpc, hret, hcsrs, hdev, hctl, hresv⟩
  case readRefused =>
    exact ⟨_, hexec.trans (amoWith_of_read_none ha (State.memRead_refused hno)), traps_raise s .loadAccessFault a rfl⟩
  case writeRefused =>
    have hx := hexec.trans (amoWith_of_write_none ha hsrc hr (State.memWrite_refused_of_memRead hr hno _))
    have htrap := trapTaken_of_drawReg (trapTaken_raise_exception (u.drawReg rd v) .storeAccessFault a rfl)
    rw [State.drawReg_pc] at htrap
    have hregs := drawReg_regs u rd v
    obtain ⟨g, ut, d, rfl⟩ := State.memRead_frame hr
    exact ⟨_, hx, htrap, hregs, by simp, by simp, by simp, by simp⟩

end

/-- Settles O48: where the read completes the reservation is set, in RAM as at a device; where it is refused the reservation is a
draw. -/
theorem loadReserved : Obligations.LoadReserved := by
  refine ⟨fun s rd rs1 aq rl a ha => ⟨decodeEncodeRoundTrip (.lrW rd rs1 aq rl) rfl, fun hin => ?ram, fun hno => ?refused,
    fun v u hr => exec_lrW_of_memRead ha hr⟩, fun w i ho h5 h2 hd => ?illegal⟩
  case ram =>
    obtain ⟨t, hx, hrd, hresv, hf⟩ := exec_lrW_of_memRead (rd := rd) (aq := aq) (rl := rl) ha (State.memRead_word_inRam s hin)
    obtain ⟨hm, hrest⟩ := hf.ram_only
    exact ⟨t, hx, hrd, hresv, fun _ => by rw [hm], hrest⟩
  case refused =>
    have htrap := trapTaken_of_drawResv (trapTaken_raise_exception (s.drawResv (some a)) .loadAccessFault a rfl)
    rw [State.drawResv_pc] at htrap
    exact ⟨_, exec_lrW_of_refused ha hno, htrap, fun _ => by simp, drawResv_cases s (some a), fun _ => by simp, by simp,
      by simp⟩
  case illegal => cases (decodeWord_badLr ho h5 h2).symm.trans hd

/-- Settles O49: the reservation decides whether there is an access, and the access whether it traps. -/
theorem storeConditional : Obligations.StoreConditional := by
  intro s rd rs1 rs2 aq rl a r ha hr
  obtain rfl : r = resvAfterSc s.cfg s.resv := hr
  refine ⟨decodeEncodeRoundTrip (.scW rd rs1 rs2 aq rl) rfl, fun hm hin => ?ram, fun hm => ?fails, fun hm hno => ?refused,
    fun u hm hw => exec_scW_of_memWrite ha hm hw⟩
  case ram =>
    obtain ⟨t, hx, hrd, hresv, hf⟩ := exec_scW_of_memWrite (rd := rd) (rs2 := rs2) (aq := aq) (rl := rl) ha hm
      (s.memWrite_inRam (w := .word) _ hin)
    obtain ⟨hmem, hrest⟩ := hf.ram_only
    exact ⟨t, hx, hrd, stored_writeLE _ _ _ _ _ hmem, hresv, hrest⟩
  case fails =>
    obtain ⟨t, hx, hrd, hresv, hf⟩ := exec_scW_of_resv_ne (rd := rd) (rs2 := rs2) (aq := aq) (rl := rl) ha hm
    obtain ⟨hmem, hrest⟩ := hf.ram_only
    exact ⟨t, hx, hrd, fun _ => by rw [hmem], hresv, hrest⟩
  case refused =>
    have htrap := trapTaken_of_drawReg (trapTaken_of_drawResv (trapTaken_raise_exception
      ((s.drawReg rd 0#32).drawResv (resvAfterSc s.cfg s.resv)) .storeAccessFault a rfl))
    rw [State.drawResv_pc, State.drawReg_pc] at htrap
    refine ⟨_, exec_scW_of_refused ha hm hno, htrap, ?regs, ?resv, fun _ => by simp, by simp, by simp⟩
    case regs => simpa [SameRegs, RegWritten] using drawReg_regs s rd 0#32
    case resv => simpa using drawResv_cases (s.drawReg rd 0#32) (resvAfterSc s.cfg s.resv)

/-- Settles O50: LR.W leaves the reservation at the address of the SC.W, and where that clears it the second one finds none. -/
theorem reservedPairSucceeds : Obligations.ReservedPairSucceeds := by
  intro s t rd rs1 rd1 rs2 rd2 rs3 aq rl hin ht hrs1
  obtain ⟨t', ht', -, hresv, hf⟩ := exec_lrW_of_memRead (rd := rd) (aq := aq) (rl := rl) rfl (State.memRead_word_inRam s hin)
  cases ht.symm.trans ht'
  obtain ⟨hm, -, -, ⟨-, -, hcfg, -⟩, -⟩ := hf.ram_only
  obtain ⟨u, hu, hrd1, hresv', hf'⟩ := exec_scW_of_memWrite (rd := rd1) (rs2 := rs2) (aq := aq) (rl := rl) hrs1.symm hresv
    (t.memWrite_inRam (w := .word) _ hin)
  obtain ⟨hm', -⟩ := hf'.ram_only
  rw [hm] at hm'
  refine ⟨u, hu, hrd1, stored_writeLE s u _ 4 _ hm', fun hclears => ?_⟩
  have hnone : u.resv = none := hresv'.trans (if_pos (hcfg ▸ hclears))
  obtain ⟨v, hv, hrd2, -, hf''⟩ := exec_scW_of_resv_ne (rd := rd2) (rs2 := rs2) (aq := aq) (rl := rl)
    (a := u.getReg rs3) rfl (by simp [hnone])
  obtain ⟨hm'', -⟩ := hf''.ram_only
  exact ⟨v, hv, hrd2, fun _ => by rw [hm'']⟩

/-- Settles O51: the nine differ only in their operation. -/
theorem atomicOperations : Obligations.AtomicOperations := by
  intro s rd rs1 rs2 aq rl a src ha hsrc
  refine ⟨?swap, ?add, ?xor, ?and, ?or, ?min, ?max, ?minu, ?maxu⟩
  case swap => exact amos_encode (.amoswapW rd rs1 rs2 aq rl) rfl (fun _ _ => rfl) rfl ha hsrc
  case add => exact amos_encode (.amoaddW rd rs1 rs2 aq rl) rfl (fun _ _ => rfl) rfl ha hsrc
  case xor => exact amos_encode (.amoxorW rd rs1 rs2 aq rl) rfl (fun _ _ => rfl) rfl ha hsrc
  case and => exact amos_encode (.amoandW rd rs1 rs2 aq rl) rfl (fun _ _ => rfl) rfl ha hsrc
  case or => exact amos_encode (.amoorW rd rs1 rs2 aq rl) rfl (fun _ _ => rfl) rfl ha hsrc
  case min => exact amos_encode (.amominW rd rs1 rs2 aq rl) rfl (fun _ _ => if_congr ltS_iff rfl rfl) rfl ha hsrc
  case max => exact amos_encode (.amomaxW rd rs1 rs2 aq rl) rfl (fun _ _ => if_congr ltS_iff rfl rfl) rfl ha hsrc
  case minu => exact amos_encode (.amominuW rd rs1 rs2 aq rl) rfl (fun _ _ => if_congr ltU_iff rfl rfl) rfl ha hsrc
  case maxu => exact amos_encode (.amomaxuW rd rs1 rs2 aq rl) rfl (fun _ _ => if_congr ltU_iff rfl rfl) rfl ha hsrc

end Sys2Proof.Machine
end

section
/-! The privilege level (R361): a step keeps it, or resets the core, or takes a trap, or returns from one. -/

namespace Sys2Proof.Machine

/-! ## Trap entry and the level (R354) -/

/-- Only an interrupt has an offset, where INTR_MEPC_OFFSET is 4 (D15). -/
theorem mepcOffset_cases (p : Params) (c : Cause) :
    mepcOffset p c = 0#32 ∨ (p.intrMepcPlus4 = true ∧ mepcOffset p c = 4#32) := by
  cases c with
  | interrupt l => cases h : p.intrMepcPlus4 <;> simp [mepcOffset, h]
  | _ => exact .inl rfl

/-- The mepc a trap saves is the pc, or 4 more where INTR_MEPC_OFFSET is 4. -/
theorem add_mepcOffset_cases (a : Word) (p : Params) (c : Cause) :
    a + mepcOffset p c = a ∨ (p.intrMepcPlus4 = true ∧ a + mepcOffset p c = a + 4#32) := by
  rcases mepcOffset_cases p c with h | ⟨hp, h⟩
  · exact .inl (by rw [h, BitVec.add_zero])
  · exact .inr ⟨hp, by rw [h]⟩

/-- A trap is no retirement: the cycle counter or the batch's count would show it (R359). -/
theorem not_retired_raise {s u : State} {c : Cause} {v : Word} (hcfg : u.cfg = s.cfg) (hcy : u.cycle = s.cycle)
    (hk : u.batchRetired = s.batchRetired) : ¬ Retired s (u.raise c v) := by
  rintro ⟨hcycle, -, hretired, -⟩
  have hleft : s.batchLeft ≤ 1 := by
    by_contra hl
    rw [if_neg hl, State.raise_batchRetired] at hretired
    omega
  rw [State.raise_cycle, hcfg, hcy, hk] at hcycle
  cases hv : s.cfg.cycleVisibility <;> simp [hv, retiredCounter, batchGain, hleft, BitVec.ofNat_add] at hcycle

/-- The level an MRET takes is the one MPP names, or MPP2_PRIV where it names none (R316, D12). -/
theorem mpp_of_mretPriv {s : State} {p : Priv} (h : mretPriv s = some p) :
    statusMpp s.mstatus = privCode p ∨ (statusMpp s.mstatus = 2#2 ∧ s.cfg.mpp2Priv = some p) := by
  have hcode : ∀ c : BitVec 2, (∃ q, c = privCode q) ∨ c = 2#2 := by
    intro c
    match c with
    | 0#2 => exact .inl ⟨.user, rfl⟩
    | 1#2 => exact .inl ⟨.supervisor, rfl⟩
    | 2#2 => exact .inr rfl
    | 3#2 => exact .inl ⟨.machine, rfl⟩
  rcases hcode (statusMpp s.mstatus) with ⟨q, hq⟩ | h2
  · rw [mretPriv, hq, privOfCode_privCode] at h
    cases h
    exact .inl hq
  · exact .inr ⟨h2, (mretPriv_of_reservedMpp h2).symm.trans h⟩

/-! ## Instructions -/

/-- What an instruction does to the level: nothing, but for a trap and an MRET of Machine mode. -/
theorem Effect.priv_cases {i : Instr} {s t : State} (h : Effect s i t) :
    t.priv = s.priv ∨ (∃ c v, TrapTaken s t c v s.pc) ∨ (i = .mret ∧ s.priv = .machine ∧ mretPriv s = some t.priv) := by
  have htrap := h.retires_or_traps
  cases h with
  | computes | links | goes | storesNot => exact .inl (by simp)
  | loads _ _ _ _ _ _ hr | reserves _ _ _ _ _ _ _ hr => exact .inl (by simp [State.memRead_priv hr])
  | stores _ _ _ _ _ hw | storesIf _ _ _ _ _ _ _ hw => exact .inl (by simp [State.memWrite_priv hw])
  | modifies _ _ _ _ _ _ _ hr hw => exact .inl (by simp [State.memWrite_priv hw, State.memRead_priv hr])
  | csr _ _ _ _ _ _ _ _ _ hu =>
    obtain ⟨m, e, tv, mc, ms, mp, ca, va, rfl⟩ := hu
    exact .inl (by simp)
  | traps | reserveTraps | storeIfTraps | csrTraps =>
    exact .inr (.inl (htrap.resolve_left fun hr => not_retired_raise (by simp) (by simp) (by simp) hr.1))
  | modifyTraps _ _ _ _ hr =>
    obtain ⟨g, ut, d, rfl⟩ := State.memRead_frame hr
    exact .inr (.inl (htrap.resolve_left fun hr => not_retired_raise (by simp) (by simp) (by simp) hr.1))
  | returns p hi hm hp => exact .inr (.inr ⟨hi, hm, by simpa using hp⟩)

/-! ## Steps -/

/-- A trap of the instruction a step executes is a trap of the step, whose batch may just have begun. -/
theorem Entered.trapTaken {s u t : State} {c v p : Word} (hu : Entered s u) (h : TrapTaken u t c v p) :
    ∃ r k, TrapTaken { s with host := r, batchRetired := k } t c v p := by
  cases hu with
  | inside => exact ⟨s.host, s.batchRetired, h⟩
  | starts _ r => exact ⟨r, 0, h⟩
  | alone => exact ⟨s.host, 0, h⟩

theorem wordAtPc_of_decodes_mret {s : State} (h : decodeWord (wordAtPc s) = .ok .mret) : wordAtPc s = 0x30200073#32 :=
  (faithful_decodeWord _ _ h).1.symm

/-- The third and the fourth way of R361, for the instruction a step executes. -/
theorem Entered.priv_cases {s u t : State} {i : Instr} (hu : Entered s u) (hp : InRam s.pc 4)
    (hd : decodeWord (Machine.wordAtPc s) = .ok i) (h : Effect u i t) :
    t.priv = s.priv ∨ (∃ r k c v, TrapTaken { s with host := r, batchRetired := k } t c v s.pc) ∨
    (s.priv = .machine ∧ InRam s.pc 4 ∧ Machine.wordAtPc s = 0x30200073#32 ∧
      (statusMpp s.mstatus = privCode t.priv ∨ (statusMpp s.mstatus = 2#2 ∧ s.cfg.mpp2Priv = some t.priv))) := by
  obtain ⟨hpriv, hstatus, -⟩ := hu.priv_csrs
  have hcfg : u.cfg = s.cfg := by cases hu <;> rfl
  rcases h.priv_cases with h | ⟨c, v, ht⟩ | ⟨rfl, hm, hmpp⟩
  · exact .inl (h.trans hpriv)
  · obtain ⟨r, k, ht⟩ := hu.trapTaken ht
    exact .inr (.inl ⟨r, k, c, v, hu.pc_mem.1 ▸ ht⟩)
  · exact .inr (.inr ⟨hpriv ▸ hm, hp, wordAtPc_of_decodes_mret hd, hstatus ▸ hcfg ▸ mpp_of_mretPriv hmpp⟩)

/-- Settles O13: an interrupt, a failed fetch and an illegal word are traps, an executed instruction keeps the level, traps, or is
the MRET that stands at pc, and of the host's moves only a reset touches the level. -/
theorem privilegeChangesOnlyByTrapOrMret : Obligations.PrivilegeChangesOnlyByTrapOrMret := by
  intro s t h
  cases step_effect h with
  | finishes c he =>
    rw [completeTrap_eq_raise he]
    exact .inr (.inr (.inl ⟨s.host, s.batchRetired, _, _, _, trapTaken_raise s c.cause c.tval, add_mepcOffset_cases _ _ _⟩))
  | resets r hb hh => exact .inr (.inl ⟨hb, ⟨r, hh⟩, rfl⟩)
  | loads | injects | drains | idles => exact .inl rfl
  | interrupts r =>
    exact .inr (.inr (.inl ⟨r, s.batchRetired, _, _, _, trapTaken_raise { s with host := r } (.interrupt 11) 0#32,
      add_mepcOffset_cases _ _ _⟩))
  | fetchFaults u hu =>
    obtain ⟨r, k, ht⟩ := hu.trapTaken (trapTaken_raise_exception u .instrAccessFault u.pc rfl)
    exact .inr (.inr (.inl ⟨r, k, _, _, _, ht, .inl hu.pc_mem.1⟩))
  | illegal u hu w =>
    obtain ⟨r, k, ht⟩ := hu.trapTaken (trapTaken_raise_exception u .illegalInstr w rfl)
    exact .inr (.inr (.inl ⟨r, k, _, _, _, ht, .inl hu.pc_mem.1⟩))
  | executes u _ i hu hp hd hx =>
    rcases hu.priv_cases hp hd (exec_effect hx) with h | ⟨r, k, c, v, ht⟩ | h
    · exact .inl h
    · exact .inr (.inr (.inl ⟨r, k, c, v, s.pc, ht, .inl rfl⟩))
    · exact .inr (.inr (.inr h))

end Sys2Proof.Machine
end

section
/-! User and Supervisor (R360), and that every instruction gives a next state (R358): the CSR instructions and MRET, beside those
that never look at the level. -/

namespace Sys2Proof.Machine

/-! ## The CSR protocol below Machine mode (R302, R303) -/

/-- A CSR instruction is the protocol, with an operand that does not depend on the level. -/
theorem exec_of_csrOperand {i : Instr} {c : CsrNum} (h : csrOperand i = some c) (s : State) :
    ∃ rd write f, ∀ p, exec i (s.atLevel p) = csrWith (encode i) rd c write f (s.atLevel p) := by
  cases i with
  | csrrw rd rs1 _ => cases h; exact ⟨rd, true, fun _ => s.getReg rs1, fun _ => rfl⟩
  | csrrs rd rs1 _ => cases h; exact ⟨rd, s.getReg rs1 != 0#32, fun o => o ||| s.getReg rs1, fun _ => rfl⟩
  | csrrc rd rs1 _ => cases h; exact ⟨rd, s.getReg rs1 != 0#32, fun o => o &&& ~~~(s.getReg rs1), fun _ => rfl⟩
  | csrrwi rd uimm _ => cases h; exact ⟨rd, true, fun _ => uimm5 uimm, fun _ => rfl⟩
  | csrrsi rd uimm _ => cases h; exact ⟨rd, uimm != 0#5, fun o => o ||| uimm5 uimm, fun _ => rfl⟩
  | csrrci rd uimm _ => cases h; exact ⟨rd, uimm != 0#5, fun o => o &&& ~~~(uimm5 uimm), fun _ => rfl⟩
  | _ => cases h

/-- No implemented number has Supervisor's bits [9:8]. -/
theorem csrPrivOk_supervisor {c : CsrNum} {r : Csr} (h : csrOf c = some r) : csrPrivOk .supervisor c = csrPrivOk .user c := by
  have hall : ∀ x ∈ csrNumbers, csrPrivOk .supervisor x = csrPrivOk .user x := by
    simp [csrNumbers, csrPrivOk, privCode]
  refine hall c ?_
  by_contra hn
  cases (csrOf_eq_none.mpr hn).symm.trans h

theorem csrCounterOk_supervisor (m : Word) (r : Csr) : csrCounterOk .supervisor m r = csrCounterOk .user m r := by
  cases r <;> rfl

/-- The answer with the level `p` in the state it gives. -/
def CsrAnswer.atLevel (p : Priv) : CsrAnswer → CsrAnswer
  | .done old s => .done old (s.atLevel p)
  | .illegal => .illegal
  | .illegalMisa old => .illegalMisa old

@[simp] theorem State.csrRead_atLevel (s : State) (p : Priv) (r : Csr) : (s.atLevel p).csrRead r = s.csrRead r := by
  cases r <;> rfl

@[simp] theorem State.csrWrite_atLevel (s : State) (p : Priv) (r : Csr) (v : Word) :
    (s.atLevel p).csrWrite r v = (s.csrWrite r v).atLevel p := by
  cases r <;> rfl

theorem State.csrWrite_priv (s : State) (r : Csr) (v : Word) : (s.csrWrite r v).priv = s.priv := by
  cases r <;> rfl

theorem State.csrAccess_supervisor {s : State} (hs : s.priv = .user) (c : CsrNum) (write : Bool) (f : Word → Word) :
    (s.atLevel .supervisor).csrAccess c write f = (s.csrAccess c write f).atLevel .supervisor := by
  unfold State.csrAccess
  cases hr : csrOf c with
  | none => rfl
  | some r =>
    have hpriv : csrPrivOk (s.atLevel .supervisor).priv c = csrPrivOk s.priv c := by
      rw [hs]
      exact csrPrivOk_supervisor hr
    have hcounter : csrCounterOk (s.atLevel .supervisor).priv (s.atLevel .supervisor).mcounteren r =
        csrCounterOk s.priv s.mcounteren r := by
      rw [hs]
      exact csrCounterOk_supervisor _ r
    simp only [hpriv, hcounter, State.csrRead_atLevel, State.csrWrite_atLevel]
    split_ifs <;> rfl

theorem State.csrAccess_done_priv {s u : State} {c : CsrNum} {write : Bool} {f : Word → Word} {old : Word}
    (h : s.csrAccess c write f = .done old u) : u.priv = s.priv := by
  unfold State.csrAccess at h
  split at h
  · cases h
  · split_ifs at h <;> cases h
    · exact s.csrWrite_priv _ _
    · rfl

theorem levelBlind_csrWith (inst : Word) (rd : Reg) (c : CsrNum) (write : Bool) (f : Word → Word) {s : State}
    (hs : s.priv = .user) :
    LevelBlind s .supervisor (csrWith inst rd c write f s) (csrWith inst rd c write f (s.atLevel .supervisor)) := by
  simp only [csrWith, State.csrAccess_supervisor hs]
  cases ha : s.csrAccess c write f with
  | done old u => exact levelBlind_writeBack (State.csrAccess_done_priv ha) _ rd old
  | illegal => exact .traps s rfl _ _
  | illegalMisa old =>
    simp only [CsrAnswer.atLevel, State.drawReg_atLevel]
    exact .traps _ (by simp) _ _

/-! ## Every instruction -/

theorem exec_mret_of_ne_machine {s : State} (h : s.priv ≠ .machine) :
    exec .mret s = .next (s.raise .illegalInstr (encode .mret)) := by
  change execMret s = _
  rw [execMret, if_neg h]

/-- From User and Supervisor every instruction but ECALL does the same (R360). -/
theorem levelBlind_exec_of_user {i : Instr} (he : i ≠ .ecall) {s : State} (hs : s.priv = .user) :
    LevelBlind s .supervisor (exec i s) (exec i (s.atLevel .supervisor)) := by
  cases hc : csrOperand i with
  | some c =>
    obtain ⟨rd, write, f, hx⟩ := exec_of_csrOperand hc s
    rw [hx .supervisor, show exec i s = _ from hx s.priv]
    exact levelBlind_csrWith _ rd c write f hs
  | none =>
    by_cases hm : i = .mret
    · subst hm
      rw [exec_mret_of_ne_machine (hs.trans_ne (by decide)), exec_mret_of_ne_machine (show Priv.supervisor ≠ .machine by decide)]
      exact .traps s rfl _ _
    · exact levelBlind_exec hc he hm s _

theorem exec_ecall (s : State) : exec .ecall s = .next (s.raise (.envCall s.priv) 0#32) := rfl

/-- Settles O17: where an instruction completes the level stays, where it traps each state saves its own in MPP; ECALL is a trap whose
cause shows the level too. -/
theorem userAndSupervisorAlike : Obligations.UserAndSupervisorAlike := by
  refine ⟨fun i s he hs => ?others, fun s hs => ?ecall, rfl, rfl, rfl, rfl⟩
  case others =>
    have h := levelBlind_exec_of_user he hs
    change ∃ t u, exec i s = .next t ∧ exec i (s.atLevel .supervisor) = .next u ∧ _
    generalize exec i s = x, exec i (s.atLevel .supervisor) = y at h ⊢
    cases h with
    | completes t ht => exact ⟨t, _, rfl, rfl, rfl, .inl ⟨ht.trans hs, rfl, rfl⟩⟩
    | traps t ht c v =>
      have hmpp : statusMpp (t.raise c v).mstatus = 0#2 := by simp [statusMpp_mkStatus, ht, hs, privCode]
      have hmpie : statusMpie ((t.atLevel .supervisor).raise c v).mstatus = statusMpie (t.raise c v).mstatus :=
        (statusMpie_mkStatus _ _ _).trans (statusMpie_mkStatus _ _ _).symm
      have hmie : statusMie ((t.atLevel .supervisor).raise c v).mstatus = statusMie (t.raise c v).mstatus :=
        (statusMie_mkStatus _ _ _).trans (statusMie_mkStatus _ _ _).symm
      exact ⟨_, _, rfl, rfl, rfl, .inr ⟨rfl, rfl, hmpp, statusMpp_mkStatus _ _ _, hmpie, hmie, mkStatus_mpp _ _ _ _⟩⟩
  case ecall =>
    have hmpp : statusMpp (s.raise (.envCall .user) 0#32).mstatus = 0#2 := by simp [statusMpp_mkStatus, hs, privCode]
    exact ⟨_, _, hs ▸ exec_ecall s, exec_ecall _, rfl, rfl, hmpp, statusMpp_mkStatus _ _ _, mkStatus_mpp _ _ _ _, rfl⟩

theorem csrWith_goes_on (inst : Word) (rd : Reg) (c : CsrNum) (write : Bool) (f : Word → Word) (s : State) :
    ∃ t, csrWith inst rd c write f s = .next t := by
  unfold csrWith
  cases s.csrAccess c write f <;> exact ⟨_, rfl⟩

theorem exec_mret_of_reserved {s : State} (hm : s.priv = .machine) (hp : mretPriv s = none) :
    exec .mret s = .refused .mppReserved := by
  change execMret s = _
  simp [execMret, hm, hp]

/-- Where MRET finds no level, MPP is 2 and MPP2_PRIV is not given (D12). -/
theorem mpp_of_mretPriv_none {s : State} (h : mretPriv s = none) :
    statusMpp s.mstatus = 2#2 ∧ s.cfg.mpp2Priv = none := by
  have hcode : ∀ c : BitVec 2, privOfCode c = none → c = 2#2 := by decide
  unfold mretPriv at h
  split at h
  · cases h
  · exact ⟨hcode _ ‹_›, h⟩

/-- Settles O11: only MRET can be refused. -/
theorem execAlwaysGoesOn : Obligations.ExecAlwaysGoesOn := by
  intro i s
  cases hc : csrOperand i with
  | some c =>
    obtain ⟨rd, write, f, hx⟩ := exec_of_csrOperand hc s
    rw [show exec i s = _ from hx s.priv]
    exact .inl (csrWith_goes_on _ _ _ _ _ _)
  | none =>
    by_cases he : i = .ecall
    · exact .inl ⟨_, he ▸ exec_ecall s⟩
    by_cases hm : i = .mret
    · subst hm
      by_cases hs : s.priv = .machine
      · cases hp : mretPriv s with
        | some p => exact .inl ⟨_, exec_mret_of_mretPriv hs hp⟩
        | none =>
          obtain ⟨hmpp, hcfg⟩ := mpp_of_mretPriv_none hp
          exact .inr ⟨rfl, hs, hmpp, hcfg, exec_mret_of_reserved hs hp⟩
      · exact .inl ⟨_, exec_mret_of_ne_machine hs⟩
    · obtain ⟨t, _, ht, -⟩ := noMemoryProtection i s s.priv hc he hm
      exact .inl ⟨t, ht⟩

end Sys2Proof.Machine
end

section
/-! The CSR instructions (48_system R300 to R313): one rule for the six, from what the protocol answers; what the other statements say
of an access is read off that rule. -/

namespace Sys2Proof.Machine

/-! ## The six instructions (R300 to R313) -/

section

variable {word : Word} {i : Instr} {s : State} {rd : Reg} {c : CsrNum} {write : Bool} {f : Word → Word}

theorem csrWith_of_illegal (h : s.csrAccess c write f = .illegal) :
    csrWith word rd c write f s = .next (s.raise .illegalInstr word) := by
  simp only [csrWith, h]

/-- An allowed access gives rd what the CSR showed, and leaves in the CSRs what R306 says. -/
theorem csrWith_of_allowed (ha : CsrAllowed s c (write = true)) :
    ∃ t, csrWith word rd c write f s = .next t ∧ RegWritten s t rd (csrShown s c) ∧
      (write = true → CsrWritten s t c (f (csrShown s c))) ∧ (write = false → SameCsrs s t) ∧
      t.pc = s.pc + 4#32 ∧ Retired s t ∧ SameMem s t ∧ SameDevices s t ∧ SameControl s t ∧ t.resv = s.resv := by
  obtain ⟨u, hu, hw, hn, hf⟩ := State.csrAccess_allowed f ha
  have hx : csrWith word rd c write f s = .next (u.writeBack rd (csrShown s c)) := by simp only [csrWith, hu]
  have hcsrs : write = false → SameCsrs s (u.writeBack rd (csrShown s c)) := fun h => by simp [hn h, SameCsrs]
  have hwritten : write = true → CsrWritten s (u.writeBack rd (csrShown s c)) c (f (csrShown s c)) :=
    fun h => csrWritten_writeBack (hw h) rd _
  obtain ⟨m, e, tv, mc, ms, mp, ca, va, rfl⟩ := hf
  exact ⟨_, hx, regWritten_writeBack _ rd _, hwritten, hcsrs, by simp, retired_writeBack _ rd _, fun _ => by simp,
    by simp [SameDevices], by simp [SameControl], by simp⟩

/-- A denied access is an illegal instruction, with a draw of rd where misa was to be written (R348). -/
theorem csrWith_of_denied (hd : ¬ CsrAllowed s c (write = true)) :
    ∃ t, csrWith word rd c write f s = .next t ∧ TrapTaken s t 2#32 word s.pc ∧
      (SameRegs s t ∨ (c = 0x301#12 ∧ write = true ∧ s.priv = .machine ∧ RegWritten s t rd s.cfg.misa)) ∧
      t.resv = s.resv ∧ SameMem s t ∧ t.agg = s.agg ∧ t.uart = s.uart := by
  rcases State.csrAccess_denied f hd with h | ⟨hc, hw, hm, h⟩
  · exact ⟨_, csrWith_of_illegal h, trapTaken_raise_exception s .illegalInstr word rfl, .inl fun _ => by simp, by simp,
      fun _ => by simp, by simp, by simp⟩
  · have hx : csrWith word rd c write f s = .next ((s.drawReg rd s.cfg.misa).raise .illegalInstr word) := by
      simp only [csrWith, h]
    have htrap := trapTaken_of_drawReg (trapTaken_raise_exception (s.drawReg rd s.cfg.misa) .illegalInstr word rfl)
    rw [State.drawReg_pc] at htrap
    exact ⟨_, hx, htrap, (drawReg_regs s rd s.cfg.misa).imp_right fun hr => ⟨hc, hw, hm, hr⟩, by simp, fun _ => by simp,
      by simp, by simp⟩

end

/-- An instruction that runs by the protocol accesses its CSR as R300 says, at the word the encoder gives it; `p` says when it writes,
and `new` what. -/
theorem accessesCsr_encode (i : Instr) {s : State} {rd : Reg} {c : CsrNum} {write : Bool} {f : Word → Word} {p : Prop}
    {new : Word} (hwf : i.wellFormed = true) (hexec : exec i s = csrWith (encode i) rd c write f s) (hp : write = true ↔ p)
    (hnew : f (csrShown s c) = new) : AccessesCsr (encode i) i s rd c p new := by
  obtain rfl : (write = true) = p := propext hp
  subst hnew
  refine ⟨decodeEncodeRoundTrip i hwf, fun ha => ?allowed, fun hd => hexec ▸ csrWith_of_denied hd⟩
  case allowed =>
    obtain ⟨t, hx, hrd, hw, hn, hrest⟩ := csrWith_of_allowed (word := encode i) (rd := rd) (f := f) ha
    exact ⟨t, hexec.trans hx, hrd, hw, fun h => hn (Bool.eq_false_iff.mpr h), hrest⟩

theorem uimm5_eq_append (u : BitVec 5) : uimm5 u = 0#27 ++ u := BitVec.setWidth_eq_append (by decide)

/-- Settles O53: the six differ in when they write, and what. -/
theorem csrInstructions : Obligations.CsrInstructions := by
  refine ⟨fun s rd rs1 c x hx => ⟨?rw, ?rs, ?rc⟩, fun s rd uimm c => ⟨?rwi, ?rsi, ?rci⟩⟩
  case rw => exact accessesCsr_encode (.csrrw rd rs1 c) rfl rfl (by simp) hx.symm
  case rs => exact accessesCsr_encode (.csrrs rd rs1 c) rfl rfl (hx ▸ bne_iff_ne) (hx ▸ rfl)
  case rc => exact accessesCsr_encode (.csrrc rd rs1 c) rfl rfl (hx ▸ bne_iff_ne) (hx ▸ rfl)
  case rwi => exact accessesCsr_encode (.csrrwi rd uimm c) rfl rfl (by simp) (uimm5_eq_append uimm)
  case rsi => exact accessesCsr_encode (.csrrsi rd uimm c) rfl rfl bne_iff_ne (uimm5_eq_append uimm ▸ rfl)
  case rci => exact accessesCsr_encode (.csrrci rd uimm c) rfl rfl bne_iff_ne (uimm5_eq_append uimm ▸ rfl)

/-! ## Numbers that are not implemented (R301) -/

theorem State.csrAccess_unimplemented (s : State) {c : CsrNum} (hc : c ∉ csrNumbers) (write : Bool) (f : Word → Word) :
    s.csrAccess c write f = .illegal := by
  rw [State.csrAccess, csrOf_eq_none.mpr hc]

/-- Settles O54: the protocol refuses the number before it looks at anything else. -/
theorem unimplementedCsrsAreIllegal : Obligations.UnimplementedCsrsAreIllegal := by
  intro s i c hi hc
  obtain ⟨rd, write, f, hx⟩ := exec_of_csrOperand hi s
  exact ⟨_, (hx s.priv).trans (csrWith_of_illegal (s.csrAccess_unimplemented hc write f)),
    traps_raise s .illegalInstr (encode i) rfl⟩

/-! ## Suppressed writes (R307) -/

section

variable {word : Word} {i : Instr} {s : State} {rd : Reg} {c : CsrNum} {p : Prop} {new : Word}

/-- In Machine mode the gates of R302 and R303 let every implemented number through. -/
theorem csrAllowed_of_machine (hm : s.priv = .machine) (hc : c ∈ csrNumbers)
    (hw : p → c.extractLsb' 10 2 ≠ 0b11#2 ∧ c ≠ 0x301#12) : CsrAllowed s c p := by
  refine ⟨hc, ?_, fun h => absurd hm h, fun h => absurd hm h, hw⟩
  rw [hm]
  exact Nat.le_of_lt_succ (BitVec.isLt _)

/-- An access in Machine mode that writes nothing only reads. -/
theorem AccessesCsr.reads (h : AccessesCsr word i s rd c p new) (hm : s.priv = .machine) (hc : c ∈ csrNumbers) (hp : ¬ p) :
    ∃ t, exec i s = .next t ∧ RegWritten s t rd (csrShown s c) ∧ Quiet s t ∧ SameMem s t ∧ Retired s t := by
  obtain ⟨-, hallowed, -⟩ := h
  obtain ⟨t, hx, hrd, -, hcsrs, -, hret, hmem, hdev, hctl, hresv⟩ :=
    hallowed (csrAllowed_of_machine hm hc fun h => absurd h hp)
  exact ⟨t, hx, hrd, ⟨hcsrs hp, hdev, hctl, hresv⟩, hmem, hret⟩

/-- A counter view and misa let no write through. -/
theorem not_csrAllowed_write (hc : c = 0xC00#12 ∨ c = 0xC80#12 ∨ c = 0xC02#12 ∨ c = 0xC82#12 ∨ c = 0x301#12) (hp : p) :
    ¬ CsrAllowed s c p := by
  rintro ⟨-, -, -, -, hw⟩
  obtain ⟨hro, hmisa⟩ := hw hp
  rcases hc with rfl | rfl | rfl | rfl | rfl
  case inr.inr.inr.inr => exact hmisa rfl
  all_goals exact hro rfl

theorem AccessesCsr.rejects (h : AccessesCsr word i s rd c p new)
    (hc : c = 0xC00#12 ∨ c = 0xC80#12 ∨ c = 0xC02#12 ∨ c = 0xC82#12 ∨ c = 0x301#12) (hp : p) :
    ∃ t, exec i s = .next t ∧ t.mcause = 2#32 ∧ t.mepc = s.pc := by
  obtain ⟨-, -, hdenied⟩ := h
  obtain ⟨t, hx, ⟨hepc, hcause, -⟩, -⟩ := hdenied (not_csrAllowed_write hc hp)
  exact ⟨t, hx, hcause, hepc⟩

end

/-- Settles O55: where the write is suppressed the access only reads, and where it is attempted these numbers refuse it. -/
theorem suppressedWrites : Obligations.SuppressedWrites := by
  intro s rd rs1 u c hm hc
  obtain ⟨hrw, hrs, hrc⟩ := csrInstructions.1 s rd rs1 c _ rfl
  obtain ⟨-, hrsi, hrci⟩ := csrInstructions.2 s rd 0#5 c
  refine ⟨fun h0 => ⟨hrs.reads hm hc (not_not.mpr h0), hrc.reads hm hc (not_not.mpr h0)⟩, hrsi.reads hm hc (not_not.mpr rfl),
    hrci.reads hm hc (not_not.mpr rfl), fun hno => ?attempted⟩
  case attempted =>
    obtain ⟨hrwi, hrsi, hrci⟩ := csrInstructions.2 s rd u c
    exact ⟨hrw.rejects hno trivial, hrwi.rejects hno trivial, hrs.rejects hno, hrc.rejects hno, hrsi.rejects hno,
      hrci.rejects hno⟩

/-! ## What a write leaves to be read (R306, R410) -/

/-- mip shows the aggregator's output (R33, R366). -/
theorem State.mip_eq (s : State) : s.mip = if s.agg.pending = 0#32 then 0#32 else 0x00000800#32 :=
  s.csrRead_eq (c := 0x344#12) (r := .mip) rfl

theorem and_mask_of_masked {x v mask : Word} (h : x = v &&& mask) : x &&& mask = v &&& mask := by
  rw [h, BitVec.and_assoc, BitVec.and_self]

/-- A writable CSR shows the value written under its mask; mip shows what it showed. -/
theorem csrShown_of_csrWritten {s t : State} {c : CsrNum} {v : Word} (h : CsrWritten s t c v) (hagg : t.agg = s.agg)
    (hc : c ∈ csrNumbers) (hro : c.extractLsb' 10 2 ≠ 0b11#2) (hmisa : c ≠ 0x301#12) :
    csrShown t c =
      if c = 0x300#12 then v &&& 0x00001888#32
      else if c = 0x304#12 then v &&& 0x00000888#32
      else if c = 0x344#12 then s.mip
      else v := by
  obtain ⟨hmst, hmie, htv, hmc, hms, hepc, hca, hval⟩ := h
  have hmip : t.mip = s.mip := by rw [State.mip, State.mip, hagg]
  simp only [csrNumbers, List.mem_cons, List.not_mem_nil, or_false] at hc
  rcases hc with rfl | rfl | rfl | rfl | rfl | rfl | rfl | rfl | rfl | rfl | rfl | rfl | rfl | rfl
  · exact (statusShown_eq _).trans (and_mask_of_masked hmst)
  · exact absurd rfl hmisa
  · exact and_mask_of_masked hmie
  · exact htv
  · exact hmc
  · exact hms
  · exact hepc
  · exact hca
  · exact hval
  · exact t.mip_eq.symm.trans hmip
  all_goals exact absurd rfl hro

/-- Settles O56: the write is allowed and leaves the value, and the read, which writes nothing, shows it. -/
theorem csrWritesReadBack : Obligations.CsrWritesReadBack := by
  intro s t rs1 rd c hm hc hro hmisa ht
  obtain ⟨⟨-, hallowed, -⟩, -⟩ := csrInstructions.1 s 0#5 rs1 c _ rfl
  obtain ⟨t', ht', hregs, hwritten, -, -, -, -, ⟨hagg, -⟩, ⟨hpriv, -⟩, -⟩ :=
    hallowed (csrAllowed_of_machine hm hc fun _ => ⟨hro, hmisa⟩)
  cases ht.symm.trans ht'
  have hsame : SameRegs s t := fun r => by
    rw [hregs r]
    split
    · rw [‹r = 0#5›, State.getReg_zero]
    · rfl
  obtain ⟨-, hrs, -⟩ := csrInstructions.1 t rd 0#5 c _ rfl
  obtain ⟨u, hu, hrd, -⟩ := hrs.reads (hpriv.trans hm) hc (not_not.mpr (State.getReg_zero t))
  rw [csrShown_of_csrWritten (hwritten trivial) hagg hc hro hmisa] at hrd
  exact ⟨u, hu, fun r => by rw [hrd r, hsame r]⟩

end Sys2Proof.Machine
end

section
/-! Fences, ECALL, EBREAK and MRET (47_misc_mem R290, R291; 48_system R314 to R316), and trap entry with the return from it (R354,
R357). -/

namespace Sys2Proof.Machine

/-- Settles O52: neither looks at its fields. -/
theorem fences : Obligations.Fences :=
  ⟨fun _ rd rs1 fm pred succ => proceeds_goTo (decodeEncodeRoundTrip (.fence rd rs1 fm pred succ) rfl) rfl,
    fun _ rd rs1 imm => proceeds_goTo (decodeEncodeRoundTrip (.fenceI rd rs1 imm) rfl) rfl⟩

/-! ## Trap entry (R340, R354) -/

theorem mepcOffset_exception (p : Params) {c : Cause} (h : ∀ l, c ≠ .interrupt l) : mepcOffset p c = 0#32 := by
  cases c with
  | interrupt l => exact absurd rfl (h l)
  | _ => rfl

/-- An interrupt saves a mepc moved by INTR_MEPC_OFFSET, and leaves what every trap leaves. -/
theorem raise_interrupt (s : State) (l : Nat) (v : Word) :
    TrapTaken s (s.raise (.interrupt l) v) (0x80000000#32 ||| BitVec.ofNat 32 l) v
      (s.pc + if s.cfg.intrMepcPlus4 then 4#32 else 0#32) ∧
    SameRegs s (s.raise (.interrupt l) v) ∧ (s.raise (.interrupt l) v).resv = s.resv ∧
    SameMem s (s.raise (.interrupt l) v) ∧ SameDevices s (s.raise (.interrupt l) v) :=
  ⟨trapTaken_raise s (.interrupt l) v, fun _ => rfl, rfl, fun _ => rfl, rfl, rfl, rfl⟩

/-- Settles O9: exceptions and interrupts are raised alike, and differ in mepc. -/
theorem trapEntry : Obligations.TrapEntry :=
  ⟨fun s c v h => traps_raise s c v (mepcOffset_exception s.cfg h), raise_interrupt, rfl, rfl, rfl, rfl, rfl, rfl, rfl, rfl,
    rfl⟩

/-! ## ECALL and EBREAK (R314, R315) -/

theorem causeCode_envCall (p : Priv) :
    causeCode (.envCall p) = if p = .user then 8#32 else if p = .supervisor then 9#32 else 11#32 := by
  cases p <;> rfl

/-- Settles O57: both are raises that nothing precedes. -/
theorem environmentCallAndBreakpoint : Obligations.EnvironmentCallAndBreakpoint := fun s =>
  ⟨⟨decodeEncodeRoundTrip .ecall rfl, _, exec_ecall s, causeCode_envCall s.priv ▸ traps_raise s (.envCall s.priv) 0#32 rfl⟩,
    decodeEncodeRoundTrip .ebreak rfl, _, rfl, traps_raise s .breakpoint 0#32 rfl⟩

/-! ## MRET (R316, R357) -/

theorem mretPriv_of_mpp {s : State} {p : Priv} (h : statusMpp s.mstatus = privCode p) : mretPriv s = some p := by
  rw [mretPriv, h, privOfCode_privCode]

/-- Settles O58: a level MPP names is taken, 2 names none, and below Machine mode the word is illegal. -/
theorem trapReturn : Obligations.TrapReturn := by
  refine ⟨decodeEncodeRoundTrip .mret rfl, fun s p hm hmpp => ?returns, fun s hm hmpp hcfg => ?refused, fun s hm => ?illegal⟩
  case returns => exact ⟨_, exec_mret_of_mretPriv hm (mretPriv_of_mpp hmpp), returned_trapReturn s p⟩
  case refused => exact exec_mret_of_reserved hm ((mretPriv_of_reservedMpp hmpp).trans hcfg)
  case illegal => exact ⟨_, exec_mret_of_ne_machine hm, traps_raise s .illegalInstr _ rfl⟩

/-- Settles O10: the trap saved the level in MPP and MIE in MPIE, and the MRET takes them from there. -/
theorem trapThenReturn : Obligations.TrapThenReturn := by
  intro s t c v hm hstatus hepc
  have hmpp : statusMpp t.mstatus = privCode s.priv := by rw [hstatus, State.raise_mstatus, statusMpp_mkStatus]
  have hmpie : statusMpie t.mstatus = statusMie s.mstatus := by rw [hstatus, State.raise_mstatus, statusMpie_mkStatus]
  obtain ⟨hpriv, hpc, hmie, hmpie', hmpp', -⟩ := returned_trapReturn t s.priv
  exact ⟨_, exec_mret_of_mretPriv hm (mretPriv_of_mpp hmpp), hpriv, hmie.trans hmpie, hmpie', hmpp', hpc.trans hepc⟩

end Sys2Proof.Machine
end

section
/-! Batches and steps (R341, R350 to R359): what a step executes, when an interrupt is taken, and how a step uses the budget. -/

namespace Sys2Proof.Machine

/-! ## Sampling (R350 to R352) -/

/-- An interrupt is ready exactly where MIE is set and `mie & mip` is not 0: MEIP is the only bit of mip. -/
theorem interruptReady_iff (s : State) : InterruptReady s ↔ s.mstatus.getLsbD 3 = true ∧ s.mie &&& s.mip ≠ 0#32 := by
  have hsample : s.interrupt = none ↔ ¬ InterruptReady s := by
    rw [State.interrupt_eq]
    by_cases h : InterruptReady s <;> simp [h]
  rw [← not_iff_not, ← hsample, State.interrupt]
  by_cases hm : s.mstatus.getLsbD 3 = true <;> simp [statusMie, hm, lowestSet_eq_none]

/-- The bit that is sampled is the lowest of those set (R352). -/
theorem lowest_of_interruptReady {s : State} (h : InterruptReady s) :
    (s.mie &&& s.mip).getLsbD 11 = true ∧ ∀ j, j < 11 → (s.mie &&& s.mip).getLsbD j = false := by
  have hl : lowestSet (s.mie &&& s.mip) = some 11 := by
    have hs := s.interrupt_eq
    rwa [if_pos h, State.interrupt, statusMie, if_pos h.1] at hs
  obtain ⟨-, hbit, hlow⟩ := lowestSet_eq_some.mp hl
  exact ⟨hbit, hlow⟩

/-! ## Steps between batches (R408) -/

/-- Between batches a step is the host's turn. -/
theorem step_betweenBatches {s : State} (hb : BetweenBatches s) : step s = s.hostTurn := by
  obtain ⟨he, hl⟩ := hb
  change s.engineStep = _
  simp only [State.engineStep, he, hl, if_true]

/-- The host makes the first move it lists. -/
theorem step_hostMove {s : State} {m : HostMove} {r : List HostMove} (hb : BetweenBatches s) (hh : s.host = m :: r) :
    step s = State.hostMove { s with host := r } m := by
  rw [step_betweenBatches hb, State.hostTurn, hh]

/-- A host that lists no move runs a batch with budget 1 (log entry 3). -/
theorem step_invoked {s : State} {n : Nat} {r : List HostMove} (hb : BetweenBatches s) (hh : Invoked s n r) :
    step s = State.runBatch { s with host := r } n := by
  rcases hh with hh | ⟨hh, rfl, rfl⟩
  · exact step_hostMove hb hh
  · have hs : ({ s with host := [] } : State) = s := by rw [← hh]
    rw [step_betweenBatches hb, hs, State.hostTurn, hh]

/-- An interrupt that is ready is taken at the batch start, whatever the budget (R350). -/
theorem step_interrupt {s : State} {n : Nat} {r : List HostMove} (hb : BetweenBatches s) (hh : Invoked s n r)
    (hi : InterruptReady s) : step s = .next (State.raise { s with host := r } (.interrupt 11) 0#32) := by
  have hi' : InterruptReady { s with host := r } := hi
  rw [step_invoked hb hh, State.runBatch, State.interrupt_eq, if_pos hi']

/-- A budget of 0 executes nothing. -/
theorem step_run_zero {s : State} {r : List HostMove} (hb : BetweenBatches s) (hh : s.host = .run 0 :: r)
    (hi : ¬ InterruptReady s) : step s = .next { s with host := r } := by
  have hi' : ¬ InterruptReady { s with host := r } := hi
  rw [step_invoked hb (.inl hh), State.runBatch, State.interrupt_eq, if_neg hi']
  rfl

/-- Settles O8: the first instruction of a batch is executed where no interrupt is ready, and inside a batch none is looked for. -/
theorem interruptsAreSampledAtBatchStart : Obligations.InterruptsAreSampledAtBatchStart := by
  refine ⟨fun s n r hb hh hm hne => ?taken, fun s r hb hh hi => ?nothing, fun s n r i hb hh hi hp hd => ?starts,
    fun _ _ hb _ _ hp hd => step_inBatch hb hp hd⟩
  case taken =>
    have hi := (interruptReady_iff s).mpr ⟨hm, hne⟩
    obtain ⟨k, hk⟩ : ∃ k, Invoked s k r :=
      hh.elim (fun h => ⟨n, .inl h⟩) fun ⟨h, hr⟩ => ⟨1, .inr ⟨h, hr, rfl⟩⟩
    obtain ⟨hbit, hlow⟩ := lowest_of_interruptReady hi
    exact ⟨_, 11, step_interrupt hb hk hi, hbit, hlow, raise_interrupt { s with host := r } 11 0#32⟩
  case nothing => exact step_run_zero hb hh (mt (interruptReady_iff s).mp hi)
  case starts =>
    have hn : n ≠ 0 := hh.elim And.right fun ⟨_, _, h1⟩ => h1.trans_ne Nat.one_ne_zero
    have hk : Invoked s n r := hh.imp_left And.left
    exact step_executes (hk.entered hb hn (mt (interruptReady_iff s).mp hi)) hp hd

/-! ## Steps that execute (R341, R358, R359) -/

/-- Settles O5: each of the three is a way to enter an instruction. -/
theorem stepRunsDecodedInstruction : Obligations.StepRunsDecodedInstruction :=
  ⟨fun _ _ hb hp hd => step_inBatch hb hp hd,
    fun _ _ n r hb hh hn hi hp hd => step_executes (.starts n r hb hh hn hi) hp hd,
    fun _ _ hb hh hi hp hd => step_executes (.alone hb hh hi) hp hd⟩

/-- Settles O7: a failed fetch is a raise that nothing precedes. -/
theorem fetchOutsideRamTraps : Obligations.FetchOutsideRamTraps := fun _ u hu hp =>
  ⟨_, step_fetchFaults hu hp, hu.pc_mem.1 ▸ traps_raise u .instrAccessFault u.pc rfl⟩

/-- A step that executes an instruction retires it, or traps. -/
theorem step_retires_or_traps {s u t : State} (hu : Entered s u) (h : step s = .next t) :
    (Retired u t ∧ t.engine = u.engine ∧ t.cfg = u.cfg) ∨ ∃ c v, TrapTaken u t c v u.pc := by
  rw [step_entered hu] at h
  cases effect_runInstr (.inside hu.inBatch) h with
  | finishes c he => cases hu.inBatch.1.symm.trans he
  | resets _ hb | loads _ _ hb | injects _ _ hb | drains _ _ hb | interrupts _ _ hb | idles _ hb =>
    exact absurd hb.2 hu.inBatch.2
  | fetchFaults u' hu' =>
    cases hu'.unique (.inside hu.inBatch)
    exact .inr ⟨_, _, trapTaken_raise_exception u .instrAccessFault u.pc rfl⟩
  | illegal u' hu' w =>
    cases hu'.unique (.inside hu.inBatch)
    exact .inr ⟨_, _, trapTaken_raise_exception u .illegalInstr w rfl⟩
  | executes u' _ i hu' hp hd hx =>
    cases hu'.unique (.inside hu.inBatch)
    exact (exec_effect hx).retires_or_traps

/-- Settles O12: a retirement takes one from the budget, a trap ends the batch. -/
theorem everyStepUsesTheBudget : Obligations.EveryStepUsesTheBudget := by
  intro s t hb h
  rcases step_retires_or_traps (.inside hb) h with ⟨hr, he, -⟩ | ⟨c, v, ht⟩
  · have hleft : t.batchLeft + 1 = s.batchLeft := by
      obtain ⟨-, -, -, hl⟩ := hr
      have := hb.2
      omega
    exact ⟨he.trans hb.1, .inl ⟨hleft, hr⟩⟩
  · obtain ⟨hepc, -, -, -, -, -, -, hpriv, hpc, he, hk, hl, hcy, hin, -⟩ := ht
    exact ⟨he, .inr ⟨hl, hk, hpriv, hpc, hepc, hcy, hin⟩⟩

/-! ## A vector that cannot be executed (R355) -/

/-- Between batches the batch an instruction is executed in has only begun: its counters and its
trap vector are those of the step. -/
theorem Entered.begins {s u : State} (hu : Entered s u) (hb : BetweenBatches s) :
    u.batchRetired = 0 ∧ u.cycle = s.cycle ∧ u.instret = s.instret ∧ u.mtvec = s.mtvec := by
  cases hu with
  | inside hin => exact absurd hb.2 hin.2
  | starts | alone => exact ⟨rfl, rfl, rfl, rfl⟩

/-- A trap before anything has retired leaves the counters, and the pc at the vector. -/
theorem trapped_at_start {u t : State} {c v p : Word} (hk : u.batchRetired = 0) (h : TrapTaken u t c v p) :
    BetweenBatches t ∧ t.host = u.host ∧ t.batchRetired = 0 ∧ t.mstatus.getLsbD 3 = false ∧ t.mtvec = u.mtvec ∧
      t.pc = u.mtvec ∧ t.mcause = c ∧ t.mepc = p ∧ t.mtval = v ∧ t.cycle = u.cycle ∧ t.instret = u.instret := by
  have hcounter : ∀ (vis : Visibility) (x : BitVec 64), trappedCounter vis 0 x = x := by
    intro vis x
    cases vis <;> simp [trappedCounter]
  obtain ⟨hepc, hca, hval, -, -, hmie, -, -, hpc, he, hr, hl, hcy, hin, -, htv, -, -, -, hhost⟩ := h
  rw [hk, hcounter] at hcy hin
  exact ⟨⟨he, hl⟩, hhost, hr, hmie, htv, hpc, hca, hepc, hval, hcy, hin⟩

/-- Settles O60: the first step of the batch traps, before anything has retired, to where it stands. -/
theorem unfetchableVectorRepeats : Obligations.UnfetchableVectorRepeats := by
  refine ⟨fun s u hb hu hno hpc => ?unfetchable, fun s u hb hu htv hpc hw => ?zero⟩ <;>
    obtain ⟨hk, hcy, hin, htv'⟩ := hu.begins hb
  case unfetchable =>
    have ht := trapTaken_raise_exception u .instrAccessFault s.pc rfl
    obtain ⟨hb', hhost, hr, hmie, h1, h2, hca, hepc, hval, hcy', hin'⟩ := trapped_at_start hk ht
    exact ⟨_, step_fetchFaults hu (hpc ▸ hno), hb', hhost, hr, hmie, h1.trans htv', h2.trans h1.symm, hca,
      hepc.trans (hu.pc_mem.1.trans hpc), hval.trans hpc, hcy'.trans hcy, hin'.trans hin⟩
  case zero =>
    have hw' : wordAtPc s = 0#32 := by rw [wordAtPc, hpc, hw]
    have hd : decodeWord (wordAtPc s) = .error .badOpcode := by rw [hw']; rfl
    have hp : InRam s.pc 4 := by rw [hpc]; unfold InRam; decide
    have ht := trapTaken_raise_exception u .illegalInstr (wordAtPc s) rfl
    obtain ⟨hb', hhost, hr, hmie, h1, h2, hca, hepc, hval, hcy', hin'⟩ := trapped_at_start hk ht
    have hmem : wordAt (u.raise .illegalInstr (wordAtPc s)) 0#32 = wordAt s 0#32 := by
      simp only [wordAt, byteAt, State.raise_mem, hu.pc_mem.2]
    exact ⟨_, step_illegal hu hp hd, hb', hhost, hr, hmie, h1.trans (htv'.trans htv), h2.trans (htv'.trans htv),
      hmem.trans hw, hca, hepc.trans (hu.pc_mem.1.trans hpc), hval.trans hw', hcy'.trans hcy, hin'.trans hin⟩

end Sys2Proof.Machine
end

section
/-! The host's moves between batches (70_reset_and_hazards R400 to R403, R408): a reset, a load, and the two ends of the UART. -/

namespace Sys2Proof.Machine

/-- Settles O23: a reset is `State.reset` but for what it keeps. -/
theorem hostReset : Obligations.HostReset := by
  intro s r hb hh
  exact ⟨_, step_hostMove hb hh, rfl, rfl, rfl, State.getReg_reset, rfl, rfl, rfl, rfl, rfl, rfl, rfl, rfl, rfl, rfl, rfl, rfl,
    rfl, rfl, rfl, rfl, rfl, rfl, rfl⟩

theorem State.hostLoad_of_fits {s : State} {image : List Byte} (h : Config.imageBase + image.length ≤ Config.ramEnd) :
    s.hostLoad image = .next { s with mem := Mem.copy s.mem Config.imageBase image } := if_pos h

/-- A load goes on only where the image fits. -/
theorem State.hostLoad_next {s t : State} {image : List Byte} (h : s.hostLoad image = .next t) :
    Config.imageBase + image.length ≤ Config.ramEnd ∧ t = { s with mem := Mem.copy s.mem Config.imageBase image } := by
  unfold State.hostLoad at h
  split at h
  · cases h
    exact ⟨‹_›, rfl⟩
  · cases h

/-- Settles O24: the image is copied byte by byte, and a reset, which keeps RAM, does the same to what was copied before it and
what is copied after it. -/
theorem hostLoad : Obligations.HostLoad := by
  refine ⟨fun s image r hb hh hfits => ?copies, fun s image r t u hb hh ht hu => ?commutes⟩
  case copies =>
    refine ⟨_, (step_hostMove hb hh).trans (State.hostLoad_of_fits hfits), fun i hi => ?inside, fun x hx => ?outside, rfl⟩
    case inside =>
      have hin : Config.imageBase ≤ 0x1000 + i ∧ 0x1000 + i < Config.imageBase + image.length := by
        unfold Config.imageBase
        omega
      refine ((Mem.read_copy s.mem Config.imageBase image (0x1000 + i)).trans (dif_pos hin)).trans ?_
      simp only [Config.imageBase, Nat.add_sub_cancel_left]
    case outside =>
      exact (Mem.read_copy s.mem Config.imageBase image x).trans (dif_neg (by unfold Config.imageBase; omega))
  case commutes =>
    obtain ⟨hfits, rfl⟩ := State.hostLoad_next ((step_hostMove hb hh).symm.trans ht)
    have hreset := step_hostMove (s := { s with host := .reset :: r, mem := Mem.copy s.mem Config.imageBase image }) hb rfl
    cases hreset.symm.trans hu
    exact ⟨_, step_hostMove (s := { s with host := .reset :: .load image :: r }) hb rfl,
      (step_hostMove (m := .load image) (r := r) ⟨rfl, rfl⟩ rfl).trans (State.hostLoad_of_fits hfits)⟩

/-- Settles O25: an injection is an access of the UART, after which its line may have moved; a drain only takes bytes. -/
theorem hostUartMoves : Obligations.HostUartMoves := by
  refine ⟨fun s bytes r hb hh => ?inject, fun s n r hb hh => ⟨_, step_hostMove hb hh, rfl, rfl, rfl⟩⟩
  case inject =>
    refine ⟨_, step_hostMove hb hh, rfl, rfl, Aggregator.signal_served _ _ _, fun j hj => ?line, rfl⟩
    case line => exact (Aggregator.signal_pending _ _ s.cfg.uartIrq.isLt _ j).trans (if_neg hj)

end Sys2Proof.Machine
end

section
/-! The interrupt aggregator and the UART (60_exceptions R364 to R372): claim and complete bit by bit, what the instructions do at the
claim register, and what a load and a store leave in the UART. -/

namespace Sys2Proof.Machine

/-! ## Lines and the output (R364 to R366) -/

/-- Settles O40: the laws of `signal` and of mip. -/
theorem linesAndOutput : Obligations.LinesAndOutput :=
  ⟨fun g i level => ⟨g.signal_served i level, g.signal_pending i i.isLt level⟩, State.mip_getLsbD⟩

/-! ## Claim and complete (R367, R368) -/

theorem Aggregator.claim_of_none {g : Aggregator} (h : g.pending &&& ~~~g.served = 0#32) : g.claim = (0#32, g) := by
  rw [Aggregator.claim, lowestSet_eq_none.mpr h]

/-- The lowest pending, unserved source is claimed. -/
theorem Aggregator.claim_of_lowest {g : Aggregator} {l : Nat} (hl : l < 32) (hp : g.pending.getLsbD l = true)
    (hs : g.served.getLsbD l = false)
    (hlow : ∀ j, j < l → g.pending.getLsbD j = true → g.served.getLsbD j = true) :
    g.claim = (BitVec.ofNat 32 (l + 1), { g with served := g.served ||| (1#32 <<< l) }) := by
  have hset : lowestSet (g.pending &&& ~~~g.served) = some l := by
    have hbit : (g.pending &&& ~~~g.served).getLsbD l = true := by
      rw [BitVec.getLsbD_and, BitVec.getLsbD_not, hp, hs]
      simpa using hl
    refine lowestSet_eq_some.mpr ⟨hl, hbit, fun j hj => ?_⟩
    have hj32 : j < 32 := Nat.lt_trans hj hl
    cases hpj : g.pending.getLsbD j with
    | false => simp [hpj]
    | true => simp [hj32, hlow j hj hpj]
  rw [Aggregator.claim, hset]

/-- A completed id is served no more; ids outside 1 to 32 complete nothing. -/
theorem Aggregator.complete_served (g : Aggregator) (v : Word) (j : Nat) :
    (g.complete v).served.getLsbD j = if j + 1 = v.toNat ∧ j < 32 then false else g.served.getLsbD j := by
  unfold Aggregator.complete
  by_cases hv : 1 ≤ v.toNat ∧ v.toNat ≤ 32
  · have hbit := one_shiftLeft_getLsbD (v.toNat - 1) j (by omega)
    have hj : j + 1 = v.toNat ∧ j < 32 ↔ j = v.toNat - 1 := by omega
    simp only [hv, and_self, if_true, BitVec.getLsbD_and, BitVec.getLsbD_not, hbit, hj]
    by_cases h : j = v.toNat - 1
    · simp [h]
    · by_cases h32 : j < 32
      · simp [h, h32]
      · simp [h, BitVec.getLsbD_of_ge g.served j (Nat.le_of_not_lt h32)]
  · rw [if_neg hv, if_neg (by omega)]

/-! ## The claim register (R367 to R369) -/

/-- The address of the register in the slot `x`. -/
theorem claimAddress (x : BitVec 4) :
    0xC0000000 ≤ (0xC0000004#32 ||| (x.zeroExtend 32 <<< 24)).toNat ∧
    slotOf (0xC0000004#32 ||| (x.zeroExtend 32 <<< 24)) = x ∧ regNoOf (0xC0000004#32 ||| (x.zeroExtend 32 <<< 24)) = 4#24 := by
  revert x
  decide

theorem exec_lw_of_memRead {s u : State} {rd rs1 : Reg} {imm : BitVec 12} {v : Word}
    (h : s.memRead (s.getReg rs1 + BitVec.ofInt 32 imm.toInt) .word = some (v, u)) :
    ∃ t, exec (.lw rd rs1 imm) s = .next t ∧ RegWritten s t rd v ∧ Follows s u t ∧ t.resv = s.resv := by
  have hx : exec (.lw rd rs1 imm) s = .next (u.writeBack rd v) := loadWith_some rfl h
  obtain ⟨g, ut, d, rfl⟩ := State.memRead_frame h
  exact ⟨_, hx, regWritten_writeBack _ rd v, follows_writeBack s s.mem g ut d rd v, by simp⟩

theorem exec_sw_of_memWrite {s u : State} {rs1 rs2 : Reg} {imm : BitVec 12}
    (h : s.memWrite (s.getReg rs1 + BitVec.ofInt 32 imm.toInt) .word (s.getReg rs2) = some u) :
    ∃ t, exec (.sw rs1 rs2 imm) s = .next t ∧ SameRegs s t ∧ Follows s u t ∧ t.resv = s.resv := by
  have hx : exec (.sw rs1 rs2 imm) s = .next u.advance := storeWith_some rfl h
  obtain ⟨m, g, ut, d, rfl⟩ := State.memWrite_frame h
  exact ⟨_, hx, State.advance_getReg _, follows_advance s m g ut d, by simp⟩

/-- Settles O37: a read claims, and LW gives what the read gives. -/
theorem claimRegister : Obligations.ClaimRegister := by
  refine ⟨fun s => claimAddress s.cfg.aggSlot, fun s a ha => ⟨fun h0 => ?none, fun l hl hp hs hlow => ?some⟩,
    fun s u rd rs1 imm v _ hr => exec_lw_of_memRead hr⟩
  case none => rw [State.memRead_claim ha, Aggregator.claim_of_none h0]
  case some =>
    rw [State.memRead_claim ha, Aggregator.claim_of_lowest hl hp hs hlow]
    refine ⟨_, rfl, rfl, fun j => ?_, rfl⟩
    rw [BitVec.getLsbD_or, one_shiftLeft_getLsbD l j hl, Bool.or_comm]

/-- Settles O38: a write completes, and SW leaves what the write leaves. -/
theorem completeRegister : Obligations.CompleteRegister :=
  ⟨fun s _ v ha => ⟨_, State.memWrite_complete v ha, s.agg.complete_pending v, s.agg.complete_served v, rfl⟩,
    fun _ _ _ _ _ _ hw => exec_sw_of_memWrite hw⟩

/-! ## The aggregator's other registers and widths (R369) -/

/-- At the aggregator every access but a 32-bit one of the claim register is refused. -/
theorem refused_at_aggregator {s : State} {a : Word} {w : Width} (d : Dir) (ha : 0xC0000000 ≤ a.toNat)
    (hs : slotOf a = s.cfg.aggSlot) (hno : ¬ (regNoOf a = 4#24 ∧ w = .word)) : Refused s d a w := by
  refine ⟨not_inRam_of_device ha w, .inr (.inr (.inr (.inl ⟨hs, fun h => hno ⟨?_, h.2⟩⟩)))⟩
  exact (regNoOf_eq_iff a 4#24).mpr h.1

/-- A refused load raises the load access fault. -/
theorem traps_of_loadWith {i : Instr} {s : State} {w : Width} {ext : Word → Word} {rd rs1 : Reg} {imm : BitVec 12} {a : Word}
    (hexec : exec i s = loadWith w ext rd rs1 imm s) (ha : a = s.getReg rs1 + imm12 imm) (hno : Refused s .read a w) :
    ∃ t, exec i s = .next t ∧ Traps s t 5#32 a :=
  ⟨_, hexec.trans (loadWith_none ha (State.memRead_refused hno)), traps_raise s .loadAccessFault a rfl⟩

/-- A refused store raises the store/AMO access fault. -/
theorem traps_of_storeWith {i : Instr} {s : State} {w : Width} {rs1 rs2 : Reg} {imm : BitVec 12} {a : Word}
    (hexec : exec i s = storeWith w rs1 rs2 imm s) (ha : a = s.getReg rs1 + imm12 imm) (hno : Refused s .write a w) :
    ∃ t, exec i s = .next t ∧ Traps s t 7#32 a :=
  ⟨_, hexec.trans (storeWith_none ha (State.memWrite_refused _ hno)), traps_raise s .storeAccessFault a rfl⟩

/-- An instruction that runs by the template of R264 claims, then completes with the value it computes. -/
theorem amoClaims_of_amoWith {i : Instr} {s : State} {rd rs1 rs2 : Reg} {a src : Word} {op op' : Word → Word → Word}
    (hop : ∀ x y, op' x y = op x y) (hexec : exec i s = amoWith op' rd rs1 rs2 s) (ha : a = s.getReg rs1)
    (hsrc : src = s.getReg rs2) : AmoClaims i s rd a src op := by
  obtain rfl : op' = op := funext₂ hop
  intro hc
  have hc' : AtClaimRegister { s with agg := s.agg.claim.2 } a := hc
  obtain ⟨t, hx, hrd, ⟨hm, hagg, huart, -, hcsrs, hctl, hpc, hret⟩, hresv⟩ :=
    follows_of_amoWith hexec ha hsrc (State.memRead_claim hc) (State.memWrite_complete _ hc')
  exact ⟨t, hx, hrd, hagg, huart, fun _ => by rw [hm], hcsrs, hctl, hresv, hpc, hret⟩

/-- Settles O39: what is refused traps by the rule of its kind, and an AMO does both accesses of the claim register. -/
theorem aggregatorRegisterMap : Obligations.AggregatorRegisterMap := by
  refine ⟨fun s a v w ha hs hno => ?accesses, fun s rd rs1 rs2 imm a ha hdev hs => ?instructions,
    fun s rd rs1 rs2 aq rl a src ha hsrc => ?amos⟩
  case accesses =>
    exact ⟨State.memRead_refused (refused_at_aggregator .read ha hs hno),
      State.memWrite_refused v (refused_at_aggregator .write ha hs hno)⟩
  case instructions =>
    have hbyte (d : Dir) : Refused s d a .byte := refused_at_aggregator d hdev hs (by simp)
    have hhalf (d : Dir) : Refused s d a .half := refused_at_aggregator d hdev hs (by simp)
    exact ⟨traps_of_loadWith rfl ha (hbyte .read), traps_of_loadWith rfl ha (hbyte .read),
      traps_of_loadWith rfl ha (hhalf .read), traps_of_loadWith rfl ha (hhalf .read),
      traps_of_storeWith rfl ha (hbyte .write), traps_of_storeWith rfl ha (hhalf .write), fun hr =>
      ⟨traps_of_loadWith rfl ha (refused_at_aggregator .read hdev hs fun h => hr h.1),
        traps_of_storeWith rfl ha (refused_at_aggregator .write hdev hs fun h => hr h.1)⟩⟩
  case amos =>
    refine ⟨?swap, ?add, ?xor, ?and, ?or, ?min, ?max, ?minu, ?maxu⟩
    case swap | add | xor | and | or => exact amoClaims_of_amoWith (fun _ _ => rfl) rfl ha hsrc
    case min | max => exact amoClaims_of_amoWith (fun _ _ => if_congr ltS_iff rfl rfl) rfl ha hsrc
    case minu | maxu => exact amoClaims_of_amoWith (fun _ _ => if_congr ltU_iff rfl rfl) rfl ha hsrc

/-! ## The UART (R371, R372) -/

/-- What a read of the UART gives keeps its contract, whatever the bits it leaves open (R372 items 2, 3 and 6). -/
theorem uartShows_uartReadValue (u : Uart) (r : UartReg) (o : Word) : UartShows u r (uartReadValue u r o) := by
  refine ⟨?txdata, ?empty, ?oldest⟩
  case txdata =>
    rintro rfl
    have hfull : decide (Config.uartFifoDepth ≤ u.tx.length) = decide (8 ≤ u.tx.length) := rfl
    rw [uartReadValue, hfull, BitVec.getLsbD_append]
    simp
  case empty =>
    rintro rfl hrx
    rw [uartReadValue, hrx, BitVec.getLsbD_append]
    simp
  case oldest =>
    rintro rfl b rest hrx
    rw [uartReadValue, hrx]
    refine ⟨?_, BitVec.extractLsb'_append_eq_right⟩
    rw [BitVec.getLsbD_append, BitVec.getLsbD_append]
    simp

/-- A change of the line is one of the UART's own pending bit. -/
theorem uartSignal_pending (s : State) {j : Nat} (hj : j ≠ s.cfg.uartIrq.val) :
    s.uartSignal.agg.pending.getLsbD j = s.agg.pending.getLsbD j :=
  (Aggregator.signal_pending _ _ s.cfg.uartIrq.isLt _ j).trans (if_neg hj)

/-- An instruction that leaves the devices as `u`, which differs from `s` in the UART only, has touched the UART. -/
theorem uartTouched_of_follows {s u t : State} (h : Follows s u t) (hresv : t.resv = s.resv) (hm : u.mem = s.mem)
    (hserved : u.agg.served = s.agg.served)
    (hpend : ∀ j, j ≠ s.cfg.uartIrq.val → u.agg.pending.getLsbD j = s.agg.pending.getLsbD j) : UartTouched s t := by
  obtain ⟨hmem, hagg, -, -, hcsrs, hctl, hpc, hret⟩ := h
  exact ⟨hmem.trans hm, by rw [hagg, hserved], fun j hj => by rw [hagg, hpend j hj], hcsrs, hctl, hresv, hpc, hret⟩

theorem uartAfterRead_rx (u : Uart) (r : UartReg) :
    (uartAfterRead u r).rx = if r = .rxdata then u.rx.tail else u.rx := by
  cases r <;> rfl

/-- A load that looks at the low bytes only takes from the UART what R372 says. -/
theorem loadsUart_of_loadWith {i : Instr} {s : State} {w : Width} {ext : Word → Word} {rd rs1 : Reg} {imm : BitVec 12}
    {a : Word} (r : UartReg) (hexec : exec i s = loadWith w ext rd rs1 imm s) (ha : a = s.getReg rs1 + imm12 imm)
    (hext : ∀ v, ext (lowBytes w v) = ext v) : LoadsUart i s rd a w r ext := by
  intro hat
  have hx := hexec.trans (loadWith_some ha (State.memRead_uart hat))
  refine ⟨_, _, uartShows_uartReadValue s.uart r (Config.uartOracle s.draws), hx, ?rd, by simp [uartAfterRead_tx],
    by simp [uartAfterRead_rx], ?touched⟩
  case rd =>
    rw [hext]
    exact regWritten_writeBack (State.uartSignal { s with uart := uartAfterRead s.uart r }) rd _
  case touched =>
    exact uartTouched_of_follows (follows_writeBack s s.mem _ _ _ rd _) (by simp) rfl (Aggregator.signal_served _ _ _)
      fun j hj => uartSignal_pending { s with uart := uartAfterRead s.uart r } hj

/-- The low `k` bits are among the low `n` that a narrow access carries. -/
theorem extractLsb'_setWidth_extractLsb' (v : Word) {k n : Nat} (hk : k ≤ n) (hn : n ≤ 32) :
    ((v.extractLsb' 0 n).setWidth 32).extractLsb' 0 k = v.extractLsb' 0 k := by
  apply BitVec.eq_of_getLsbD_eq
  intro i hi
  have hin : i < n := Nat.lt_of_lt_of_le hi hk
  have hi32 : i < 32 := Nat.lt_of_lt_of_le hin hn
  simp only [BitVec.getLsbD_extractLsb', BitVec.getLsbD_setWidth, Nat.zero_add, hi, hin, hi32, decide_true, Bool.true_and]

/-- Every access carries the low byte. -/
theorem lowByte_lowBytes (w : Width) (v : Word) : (lowBytes w v).extractLsb' 0 8 = v.extractLsb' 0 8 := by
  cases w with
  | byte => exact extractLsb'_setWidth_extractLsb' v (by decide) (by decide)
  | half => exact extractLsb'_setWidth_extractLsb' v (by decide) (by decide)
  | word => rfl

theorem lowHalf_lowBytes (v : Word) : (lowBytes .half v).extractLsb' 0 16 = v.extractLsb' 0 16 :=
  extractLsb'_setWidth_extractLsb' v (Nat.le_refl 16) (by decide)

/-- Settles O41: the five look at no more than the bytes of their width. -/
theorem uartLoads : Obligations.UartLoads := by
  intro s rd rs1 imm r a ha
  refine ⟨?lb, ?lh, ?lw, ?lbu, ?lhu⟩
  case lb => exact loadsUart_of_loadWith r rfl ha fun v => congrArg (BitVec.signExtend 32) (lowByte_lowBytes .byte v)
  case lh => exact loadsUart_of_loadWith r rfl ha fun v => congrArg (BitVec.signExtend 32) (lowHalf_lowBytes v)
  case lw => exact loadsUart_of_loadWith r rfl ha fun _ => rfl
  case lbu => exact loadsUart_of_loadWith r (exec_lbu rd rs1 imm s) ha fun v => congrArg (0#24 ++ ·) (lowByte_lowBytes .byte v)
  case lhu => exact loadsUart_of_loadWith r (exec_lhu rd rs1 imm s) ha fun v => congrArg (0#16 ++ ·) (lowHalf_lowBytes v)

theorem uartAfterWrite_rx (u : Uart) (r : UartReg) (v : Word) : (uartAfterWrite u r v).rx = u.rx := by
  cases r with
  | txdata => simp only [uartAfterWrite]; split <;> rfl
  | _ => rfl

theorem uartAfterWrite_tx (u : Uart) (r : UartReg) (v : Word) :
    (uartAfterWrite u r v).tx = if r = .txdata ∧ u.tx.length < 8 then u.tx ++ [v.extractLsb' 0 8] else u.tx := by
  cases r with
  | txdata =>
    by_cases h : u.tx.length < 8 <;> simp [uartAfterWrite, Config.uartFifoDepth, h]
  | _ => simp [uartAfterWrite]

theorem uartWrite_touches (s : State) (r : UartReg) (v : Word) :
    (s.uartWrite r v).agg.served = s.agg.served ∧
    ∀ j, j ≠ s.cfg.uartIrq.val → (s.uartWrite r v).agg.pending.getLsbD j = s.agg.pending.getLsbD j := by
  by_cases hr : r = .baudDivisor
  · subst hr
    exact ⟨rfl, fun _ _ => rfl⟩
  · rw [s.uartWrite_signals v hr]
    exact ⟨Aggregator.signal_served _ _ _, fun j hj => uartSignal_pending { s with uart := uartAfterWrite s.uart r v } hj⟩

/-- A store leaves in the UART what R372 says. -/
theorem storesUart_of_storeWith {i : Instr} {s : State} {w : Width} {rs1 rs2 : Reg} {imm : BitVec 12} {a : Word} (r : UartReg)
    (hexec : exec i s = storeWith w rs1 rs2 imm s) (ha : a = s.getReg rs1 + imm12 imm) :
    StoresUart i s a w r (s.getReg rs2) := by
  intro hat
  have hx := hexec.trans (storeWith_some ha (State.memWrite_uart (s.getReg rs2) hat))
  obtain ⟨hserved, hpend⟩ := uartWrite_touches s r (lowBytes w (s.getReg rs2))
  refine ⟨_, hx, fun _ => by simp, by simp [uartAfterWrite_rx], ?tx, ?divisor, ?touched⟩
  case tx => simp [uartAfterWrite_tx, lowByte_lowBytes]
  case divisor =>
    rintro rfl
    simp [SameDevices, State.uartWrite_divisor]
  case touched =>
    obtain ⟨g, ut, d, hf⟩ := s.uartWrite_frame r (lowBytes w (s.getReg rs2))
    rw [hf] at hserved hpend ⊢
    exact uartTouched_of_follows (follows_advance s s.mem g ut d) (by simp) rfl hserved hpend

/-- Settles O42: the three differ in their width. -/
theorem uartStores : Obligations.UartStores := fun _ _ _ _ r _ ha =>
  ⟨storesUart_of_storeWith r rfl ha, storesUart_of_storeWith r rfl ha, storesUart_of_storeWith r rfl ha⟩

end Sys2Proof.Machine
end
